-- ==== Sys2Proof/Word.lean ====
section
/-! DEFINITION. The word types of HUFCORE: the widths rules R10, R12 and R40 to R44 give (00_scope.md, 10_state.md). -/

namespace Sys2Proof

/-- One CSR, one command word or one bus datum: 32 bits (R20). -/
abbrev Word := BitVec 32

/-- One byte of DMEM (R60). -/
abbrev Byte := BitVec 8

/-- A symbol as FT and CT hold it: 21 bits (R40, R44). -/
abbrev Sym := BitVec 21

/-- A symbol count of FT: CNT_W = 32 bits (R10, R40). -/
abbrev Count := BitVec 32

/-- A node frequency: FREQ_W = 64 bits (R10, R41). -/
abbrev Freq := BitVec 64

/-- A code value: VAL_W = 255 bits (R10, R44). -/
abbrev CodeVal := BitVec 255

/-- A code length: the 8 bits of R44. -/
abbrev CodeLen := BitVec 8

end Sys2Proof
end

