-- ==== Sys2Proof/Config.lean ====
section
/-! DEFINITION. What an implementation of HUFCORE fixes (the OPEN parameters of R10), the widths and constants the spec fixes, and the free values. -/

namespace Sys2Proof

/-- The OPEN parameters of R10. A state carries its own (`Machine.State.params`), so a statement about every state
is a statement about every implementation; `Params.ok` is the range R10 allows. -/
structure Params where
  /-- `NSYM_MAX`: capacity of FT and of CT in entries (R10, D2). -/
  nsymMax       : Nat
  /-- `MEM_BYTES`: size of DMEM in bytes (R10, D3). -/
  memBytes      : Nat
  /-- `CSR_BASE`: host bus address of CSR offset 0 (R10, D4). -/
  csrBase       : Nat
  /-- `DMEM_BASE`: host bus address of DMEM byte 0 (R10, R60, D4). -/
  dmemBase      : Nat
  /-- `HOST_DMEM_ORDER` (R63, D38): for a host access wider than a byte, the address offsets of its lanes, lowest lane
  first. No meaning reads it: R63 lets a model admit byte accesses only, and this one does. -/
  hostDmemOrder : List Nat
  deriving DecidableEq, Repr

namespace Config

/-- `MAX_CODE_LEN` (R10): the largest code length, fixed by the one-byte length field. -/
def maxCodeLen : Nat := 255

/-- `FMT_VER` (R10, R21): the data-format version. -/
def fmtVer : Byte := 1

/-- The number of Unicode scalar values, the upper bound of `NSYM_MAX` (R10, G3). -/
def maxScalars : Nat := 1112064

/-- The implementation that `Machine.State.reset` is of: the parameters of 95_test_vectors.md ("NSYM_MAX = 64 and
MEM_BYTES = 256"). DESIGN CHOICE, log entry 1: R10 leaves them OPEN. -/
def params : Params :=
  { nsymMax := 64, memBytes := 256, csrBase := 0, dmemBase := 0, hostDmemOrder := [] }

/-- The n-th free draw of a register value (R50). It has no body: nothing can be proved of the value. Log entry 3. -/
opaque freeWord : Nat → Word

/-- The n-th free draw of a DMEM byte (R76, R181). It has no body: nothing can be proved of the value. Log entry 3. -/
opaque freeByte : Nat → Byte

end Config
end Sys2Proof
end

