-- ==== Sys2Proof/Syntax.lean ====
section
/-! DEFINITION. The instructions of HUFCORE: the eleven commands of R93 and the soft reset of R181, one constructor per row of opcode_table.json. -/

namespace Sys2Proof

/-- An instruction. No row has an operand field: a command's operands are the latched argument registers (R91, R95),
and the soft reset ignores every bit of its word but SRST (R24, R181). -/
inductive Instr where
  /-- NOP, R180. -/
  | nop
  /-- FT_CLEAR, R110. -/
  | ftClear
  /-- FREQ_COUNT, R111. -/
  | freqCount
  /-- FT_INSERT, R113. -/
  | ftInsert
  /-- TREE_BUILD, R120. -/
  | treeBuild
  /-- CODE_GEN, R130. -/
  | codeGen
  /-- CT_CLEAR, R134. -/
  | ctClear
  /-- TABLE_SER, R140. -/
  | tableSer
  /-- TABLE_DESER, R150. -/
  | tableDeser
  /-- TEXT_ENCODE, R160. -/
  | textEncode
  /-- TEXT_DECODE, R171. -/
  | textDecode
  /-- SOFT_RESET, the write of 1 to CTRL.SRST, R181: "not a command", with a row of its own in the table (R93). -/
  | softReset
  deriving DecidableEq, Repr

end Sys2Proof
end

