-- ==== Sys2Proof/WellFormed.lean ====
section
/-! DEFINITION. What a well-formed instruction, command word and parameter set are (R91, R94, R10). -/

namespace Sys2Proof

/-- An instruction has no operand that could be out of range (R91), so each constructor is well-formed; the checks
that can fail are those of its word (`cmdWordWf`) and of the parameters (`Params.ok`). -/
def Instr.wf : Instr → Bool
  | .nop => true
  | .ftClear => true
  | .freqCount => true
  | .ftInsert => true
  | .treeBuild => true
  | .codeGen => true
  | .ctClear => true
  | .tableSer => true
  | .tableDeser => true
  | .textEncode => true
  | .textDecode => true
  | .softReset => true

/-- A legal CMD word: RSVD (bits 31:8) is 0 and OP (bits 7:0) is at most 0x0A (R91, R94). -/
def cmdWordWf (w : Word) : Bool :=
  w.extractLsb' 8 24 == 0 && w.extractLsb' 0 8 ≤ 0x0A#8

/-- The constraints of R10 on the OPEN parameters. -/
def Params.ok (p : Params) : Bool :=
  2 ≤ p.nsymMax && p.nsymMax ≤ Config.maxScalars && 16 ≤ p.memBytes && p.memBytes ≤ 2 ^ 28

end Sys2Proof
end

