-- ==== Sys2Proof/Decode.lean ====
section
/-! DEFINITION. The decoder and the encoder of HUFCORE's instruction words (R91, R93, R94, R96, R181). -/

namespace Sys2Proof

/-- The register a host writes an instruction's word to: CMD for the eleven commands, CTRL for the soft reset (R93). -/
inductive Port where
  | cmd
  | ctrl
  deriving DecidableEq, Repr

/-- Why a word is no instruction. -/
inductive Reject where
  /-- `w[31:8] != 0` in a CMD word (R94). -/
  | reservedNonzero
  /-- `w[7:0]` is 0x0B to 0xFF in a CMD word (R94). -/
  | noSuchOpcode
  /-- A CTRL word with SRST = 0: "writing 0 has no effect" as a reset (R24). -/
  | noSoftReset
  deriving DecidableEq, Repr

/-- One row of opcode_table.json: the word's register, its mask and its match. -/
structure Row where
  port  : Port
  mask  : Word
  bits  : Word
  instr : Instr
  deriving DecidableEq, Repr

/-- The opcode map of R93 ("The match mask is 0xFFFFFFFF") and the soft reset's row. -/
def opcodeRows : List Row :=
  [ ⟨.cmd, 0xFFFFFFFF#32, 0x00000000#32, .nop⟩,
    ⟨.cmd, 0xFFFFFFFF#32, 0x00000001#32, .ftClear⟩,
    ⟨.cmd, 0xFFFFFFFF#32, 0x00000002#32, .freqCount⟩,
    ⟨.cmd, 0xFFFFFFFF#32, 0x00000003#32, .ftInsert⟩,
    ⟨.cmd, 0xFFFFFFFF#32, 0x00000004#32, .treeBuild⟩,
    ⟨.cmd, 0xFFFFFFFF#32, 0x00000005#32, .codeGen⟩,
    ⟨.cmd, 0xFFFFFFFF#32, 0x00000006#32, .ctClear⟩,
    ⟨.cmd, 0xFFFFFFFF#32, 0x00000007#32, .tableSer⟩,
    ⟨.cmd, 0xFFFFFFFF#32, 0x00000008#32, .tableDeser⟩,
    ⟨.cmd, 0xFFFFFFFF#32, 0x00000009#32, .textEncode⟩,
    ⟨.cmd, 0xFFFFFFFF#32, 0x0000000A#32, .textDecode⟩,
    ⟨.ctrl, 0x00000001#32, 0x00000001#32, .softReset⟩ ]

/-- A row reads word `w` at register `p`. -/
def Row.matches (r : Row) (p : Port) (w : Word) : Bool :=
  r.port == p && (w &&& r.mask) == r.bits

/-- Which reason a word that no row reads is rejected for (R94, R24). -/
def rejectReason (p : Port) (w : Word) : Reject :=
  match p with
  | .cmd => if w.extractLsb' 8 24 ≠ 0 then .reservedNonzero else .noSuchOpcode
  | .ctrl => .noSoftReset

/-- The decoder: total on every word at either register, and rejecting by name (R93, R94). -/
def decode (p : Port) (w : Word) : Except Reject Instr :=
  match opcodeRows.find? (fun r => r.matches p w) with
  | some r => .ok r.instr
  | none => .error (rejectReason p w)

/-- The opcode byte OP of a command (R93). -/
def opcodeOf : Instr → BitVec 8
  | .nop => 0x00
  | .ftClear => 0x01
  | .freqCount => 0x02
  | .ftInsert => 0x03
  | .treeBuild => 0x04
  | .codeGen => 0x05
  | .ctClear => 0x06
  | .tableSer => 0x07
  | .tableDeser => 0x08
  | .textEncode => 0x09
  | .textDecode => 0x0A
  | .softReset => 0x01

/-- The register an instruction's word is written to (R93). -/
def portOf : Instr → Port
  | .softReset => .ctrl
  | .nop | .ftClear | .freqCount | .ftInsert | .treeBuild | .codeGen => .cmd
  | .ctClear | .tableSer | .tableDeser | .textEncode | .textDecode => .cmd

/-- The encoder: the register and the word a host writes to run an instruction. A command's word is OP in bits 7:0
under RSVD = 0 (R91); the soft reset's is `csrw CTRL, 0x00000001` (R100). -/
def encode (i : Instr) : Port × Word :=
  (portOf i, 0#24 ++ opcodeOf i)

/-- The port a word of opcode_table.json is for. A table word does not carry its register: the eleven CMD rows are 32
bits wide and the CTRL row is one bit wide (nbits = 8 in whole bytes). Log entry 7. -/
def tablePort (nbits : Nat) : Port :=
  if nbits ≤ 8 then .ctrl else .cmd

/-- What the decoder reads from a row's word, the row being `nbits` wide. -/
def decodeTableWord (nbits w : Nat) : Option Instr :=
  match decode (tablePort nbits) (BitVec.ofNat 32 w) with
  | .ok i => some i
  | .error _ => none

end Sys2Proof
end

