-- ==== Sys2Proof/Machine/State.lean ====
section
/-! DEFINITION. HUFCORE's state as plain data: CSRs, tables, latched operands, DMEM (10_state.md, 20_memory.md, 30_encoding.md R92), the host's side of the bus (R8, R99), and the state after reset (R220). -/

namespace Sys2Proof.Machine

/-! ## The error codes -/

/-- STATUS.ERRCODE (R191): the fifteen codes the block knows. -/
inductive ErrCode where
  /-- 0x00, a normal completion. -/
  | none
  /-- 0x01, TREE_BUILD with FT empty, TEXT_DECODE with CT empty. -/
  | emptyAlphabet
  /-- 0x02, CODE_GEN with no valid tree. -/
  | malformedTree
  /-- 0x03, TABLE_DESER. -/
  | truncatedTable
  /-- 0x04, a container error: never raised by the block (R197). -/
  | truncatedText
  /-- 0x05, TEXT_DECODE. -/
  | unrecognizedCode
  /-- 0x06, a container error: never raised by the block (R197). -/
  | unknownFormatVersion
  /-- 0x07, FREQ_COUNT, TEXT_ENCODE, TABLE_DESER, FT_INSERT. -/
  | invalidSymbol
  /-- 0x08, TEXT_DECODE. -/
  | duplicateCode
  /-- 0x09, a full table or a full destination region (R194). -/
  | capacity
  /-- 0x0A, a region that leaves DMEM (R66). -/
  | range
  /-- 0x0B, a CMD word outside the opcode map (R94). -/
  | badCommand
  /-- 0x0C, overlap, padding count or zero count. -/
  | badArg
  /-- 0x0D, TEXT_ENCODE. -/
  | missingSymbol
  /-- 0x0E, CODE_GEN. -/
  | codeTooLong
  deriving DecidableEq, Repr

/-! ## The tables -/

/-- An entry of FT (R40). -/
structure FtEntry where
  sym : Sym
  cnt : Count
  deriving DecidableEq, Repr

/-- A node of NODES (R41). -/
inductive Node where
  | leaf (sym : Sym) (freq : Freq)
  | internal (left right : Nat) (freq : Freq)
  deriving DecidableEq, Repr

/-- An entry of CT (R44). -/
structure CtEntry where
  sym   : Sym
  value : CodeVal
  len   : CodeLen
  deriving DecidableEq, Repr

/-! ## Operands and memory -/

/-- The operands latched at command start (R92): `A.OP`, `A.SRC_ADDR`, ..., `A.ARG1`. -/
structure Latched where
  op      : BitVec 8
  srcAddr : Word
  srcLen  : Word
  dstAddr : Word
  dstCap  : Word
  arg0    : Word
  arg1    : Word
  deriving DecidableEq, Repr

/-- The latch while no command runs. "When no command runs, none of this state exists" (R46): the model clears it, so
that nothing of an ended command is left. Log entry 11. -/
def Latched.absent : Latched :=
  { op := 0, srcAddr := 0, srcLen := 0, dstAddr := 0, dstCap := 0, arg0 := 0, arg1 := 0 }

/-- DMEM (R60), sparse: address and byte, in the canonical form `Memory.wf` of Machine/Ops.lean. -/
abbrev Memory := List Host.Cell

/-! ## The CSR space and the host's transactions -/

/-- The CSRs of R20. -/
inductive Csr where
  | id | capNsym | capMem | ctrl | cmd | status | errInfo
  | srcAddr | srcLen | dstAddr | dstCap | arg0 | arg1
  | result0 | result1 | result2 | result3
  | ftN | ctN | nodeN | root | maxlen
  | idx | ftSymW | ftCntW | ctSymW | ctLenW
  | nodeKindW | nodeAW | nodeBW | nodeFreqLoW | nodeFreqHiW
  | ctValW (j : Fin 8)
  deriving DecidableEq, Repr

/-- One transaction of the host (R99), the polling loop `wait` (R100), and the accesses R63 and R64 shut out. -/
inductive HostOp where
  /-- `csrw`: a 32-bit write at a byte offset of the CSR space. -/
  | csrw (off : BitVec 8) (v : Word)
  /-- `csrr`: a 32-bit read at a byte offset of the CSR space. -/
  | csrr (off : BitVec 8)
  /-- `sb`: write one byte of DMEM. -/
  | sb (addr : Word) (b : Byte)
  /-- `lb`: read one byte of DMEM. -/
  | lb (addr : Word)
  /-- `wait`: "repeat `csrr STATUS` until bit 0 (BUSY) of the value read is 0" (R100). -/
  | wait
  /-- An access to the CSR space of another width than 32 bits (R64). -/
  | csrNarrow (off : BitVec 8) (bits : Nat)
  /-- An access to DMEM wider than one byte (R63, U10). -/
  | dmemWide (addr : Word) (bytes : Nat)
  deriving DecidableEq, Repr

/-- The two agents of R8. -/
inductive Agent where
  | host
  | engine
  deriving DecidableEq, Repr

/-! ## The state -/

structure State where
  /-- The OPEN parameters (R10); CAP_NSYM (R22) and CAP_MEM (R23) read them. No step changes them. -/
  params    : Params
  /-- CTRL.IRQ_EN (R24). -/
  irqEn     : Bool
  /-- CMD, the last accepted command word (R25). -/
  cmd       : Word
  /-- STATUS.BUSY (R26). -/
  busy      : Bool
  /-- STATUS.DONE (R26). -/
  done      : Bool
  /-- STATUS.OVR (R26). -/
  ovr       : Bool
  /-- STATUS.TREE_VALID (R26). -/
  treeValid : Bool
  /-- STATUS.ERRCODE (R26, R191); STATUS.ERR reads as ERRCODE != 0. -/
  errcode   : ErrCode
  /-- ERR_INFO (R27). -/
  errInfo   : Word
  /-- The argument registers (R28 to R33). -/
  srcAddr   : Word
  srcLen    : Word
  dstAddr   : Word
  dstCap    : Word
  arg0      : Word
  arg1      : Word
  /-- The result registers (R34). -/
  result0   : Word
  result1   : Word
  result2   : Word
  result3   : Word
  /-- IDX (R39). -/
  idx       : Word
  /-- FT (R40); FT_N (R35) and the FT windows (R39) read it. -/
  ft        : List FtEntry
  /-- NODES (R41); NODE_N (R37) and the node windows (R48) read it. -/
  nodes     : List Node
  /-- ROOT (R37, R42). -/
  root      : Nat
  /-- CT (R44); CT_N (R36), MAXLEN (R38), the CT windows (R47) and INV (R45) read it. -/
  ct        : List CtEntry
  /-- The operands of the running command (R92). -/
  a         : Latched
  /-- DMEM (R60). -/
  dmem      : Memory
  /-- The model's own: the host's transactions still to come, in program order (R75 (a), R99). Log entry 5. -/
  host      : List HostOp
  /-- The model's own: which agent moves at the next steps at which both could (R195, R229). Log entry 5. -/
  sched     : List Agent
  /-- The model's own: the values the host's reads returned, latest first (R99). Log entry 8. -/
  rdata     : List Word
  /-- The model's own: how many free values were drawn. Log entry 3. -/
  draws     : Nat
  deriving DecidableEq, Repr

/-- The faults of the spec. Each is the HOST's, and "errs toward unprovable" (R64, R76): safe. -/
inductive Fault where
  /-- HOST_BAD_ACCESS, raised by a host access to the CSR space that is not an aligned 32-bit word (R64), and by a
  host access to a DMEM byte at or above MEM_BYTES (R70). Safe. -/
  | hostBadAccess
  /-- HOST_RACE, raised by a host write into the running command's source or destination range (R76). Safe. -/
  | hostRace
  deriving DecidableEq, Repr

/-- The refusals. -/
inductive Refusal where
  /-- Raised by an arm of `exec` whose instruction has no meaning: none is left. Safe. -/
  | notModelled (mnemonic : String)
  /-- A host access to DMEM wider than one byte: "the model admits only byte accesses" (R63, U10: refuse). Safe.
  Log entry 10. -/
  | wideDmemAccess
  deriving DecidableEq, Repr

/-- Power-on reset (R220) of an implementation `p` whose DMEM holds `m`: R222 leaves every byte of DMEM unspecified,
"a free draw per byte", which is this argument. Every other field has R220's value. -/
def State.powerOn (p : Params) (m : Memory) : State :=
  { params := p, irqEn := false, cmd := 0, busy := false, done := false, ovr := false, treeValid := false,
    errcode := .none, errInfo := 0, srcAddr := 0, srcLen := 0, dstAddr := 0, dstCap := 0, arg0 := 0, arg1 := 0,
    result0 := 0, result1 := 0, result2 := 0, result3 := 0, idx := 0, ft := [], nodes := [], root := 0, ct := [],
    a := Latched.absent, dmem := m, host := [], sched := [], rdata := [], draws := 0 }

/-- The machine right after power-on reset (R220), with nothing listed in DMEM and no transaction pending. The choice of
the parameters is log entry 1, of DMEM's contents log entry 2. -/
def State.reset : State := State.powerOn Config.params []

end Sys2Proof.Machine
end

