-- ==== Sys2Proof/Machine/Ops.lean ====
section
/-! DEFINITION. The named operations over DMEM and registers: byte reads and writes, command start, completion, errors (HUFCORE's exceptions), free draws. -/

namespace Sys2Proof.Machine

/-! ## DMEM -/

/-- What a DMEM address that no cell lists reads as. R222 leaves DMEM unspecified at power-on; a reset with other
contents is `State.powerOn p m`. DESIGN CHOICE, log entry 2. -/
def unlistedByte (_addr : Nat) : Byte := 0

/-- The canonical form of DMEM: addresses strictly rising, and no cell that equals what an unlisted address reads as. -/
abbrev Memory.wf (m : Memory) : Prop :=
  (m.map Prod.fst).Pairwise (· < ·) ∧ ∀ c ∈ m, c.2 ≠ unlistedByte c.1

/-- `MemRead(addr, 1)` (R13, R65). -/
def Memory.read : Memory → Nat → Byte
  | [], addr => unlistedByte addr
  | (k, v) :: m, addr => if k = addr then v else Memory.read m addr

/-- The cells of every address but `addr`. -/
def Memory.erase (m : Memory) (addr : Nat) : Memory :=
  m.filter fun c => c.1 ≠ addr

/-- Put a cell at its place in the order of addresses. -/
def Memory.place : Memory → Nat → Byte → Memory
  | [], addr, v => [(addr, v)]
  | (k, w) :: m, addr, v => if addr < k then (addr, v) :: (k, w) :: m else (k, w) :: Memory.place m addr v

/-- `MemWrite(addr, 1, v)` (R13, R65), keeping the canonical form: a byte equal to what `addr` reads as unlisted is not
listed. -/
def Memory.write (m : Memory) (addr : Nat) (v : Byte) : Memory :=
  if v = unlistedByte addr then Memory.erase m addr else Memory.place (Memory.erase m addr) addr v

/-- Write the bytes in order, one each at ascending addresses (R65, R171). -/
def Memory.writeAll : Memory → Nat → List Byte → Memory
  | m, _, [] => m
  | m, addr, v :: vs => Memory.writeAll (Memory.write m addr v) (addr + 1) vs

/-- The `n` bytes of a region at `base`, in address order. -/
def Memory.bytes (m : Memory) (base n : Nat) : List Byte :=
  (List.range n).map fun i => Memory.read m (base + i)

/-- `BitRead(base, k)` (R13, R61): bit k of a region is bit `7 - (k mod 8)` of its byte `k div 8`. -/
def Memory.bit (m : Memory) (base k : Nat) : Bool :=
  (Memory.read m (base + k / 8)).getLsbD (7 - k % 8)

/-- The first `n` bits of a region at `base`, in the order of R61. -/
def Memory.bits (m : Memory) (base n : Nat) : List Bool :=
  (List.range n).map fun k => Memory.bit m base k

/-! ## Free draws (93_implementation_defined.md) -/

/-- Draw a free word: a host read of changing state (R50). -/
def State.drawWord (s : State) : Word × State :=
  (Config.freeWord s.draws, { s with draws := s.draws + 1 })

/-- Draw a free byte: a host read of the active destination range (R76). -/
def State.drawByte (s : State) : Byte × State :=
  (Config.freeByte s.draws, { s with draws := s.draws + 1 })

/-- Give each of the `n` bytes from `base` a free value, the draws numbered from `k` (R181). -/
def scramble : (n : Nat) → Memory → (base k : Nat) → Memory
  | 0, m, _, _ => m
  | n + 1, m, base, k => scramble n (Memory.write m base (Config.freeByte k)) (base + 1) (k + 1)

/-! ## Command start, completion and error -/

/-- The copy command start takes of the argument registers and of OP (R92). -/
def State.latch (s : State) (w : Word) : Latched :=
  { op := w.extractLsb' 0 8, srcAddr := s.srcAddr, srcLen := s.srcLen, dstAddr := s.dstAddr, dstCap := s.dstCap,
    arg0 := s.arg0, arg1 := s.arg1 }

/-- Command start (R90): the indivisible step of an accepted CMD write of `w`. OVR stays (R26). -/
def State.start (s : State) (w : Word) : State :=
  { s with cmd := w, a := s.latch w, done := false, errcode := .none, errInfo := 0,
           result0 := 0, result1 := 0, result2 := 0, result3 := 0, busy := true }

/-- `complete` (R192): the normal completion. The latch ceases to exist (R46). -/
def State.complete (s : State) : State :=
  { s with busy := false, done := true, a := Latched.absent }

/-- `raise E(info)` (R193), after the error effects its command states: taking an error, the block's one kind of
exception. It saves no state and redirects no control flow (R197), and there is no return from it (R198). -/
def State.raise (s : State) (e : ErrCode) (info : Word) : State :=
  { s with errcode := e, errInfo := info, busy := false, done := true, a := Latched.absent }

/-- TREE_VALID becomes 0: "NODES is emptied and NODE_N and ROOT become 0" (R37). -/
def State.dropTree (s : State) : State :=
  { s with treeValid := false, nodes := [], root := 0 }

/-- A read's value goes to the host (R99). -/
def State.returnRead (s : State) (v : Word) : State :=
  { s with rdata := v :: s.rdata }

/-- The word the engine decodes (R94): RSVD as CMD holds it over the latched `A.OP` (R92). While a command runs this
is the accepted word, which CMD keeps (R182). DEDUCED, log entry 16. -/
def State.fetchWord (s : State) : Word :=
  s.cmd.extractLsb' 8 24 ++ s.a.op

/-- The instruction the engine runs, if the accepted word is one. -/
def State.running (s : State) : Option Instr :=
  if s.busy then
    match decode .cmd s.fetchWord with
    | .ok i => some i
    | .error _ => none
  else none

/-- The completion of a word outside the opcode map: BAD_COMMAND with the whole word (R94, R191). -/
def State.badCommand (s : State) : State :=
  s.raise .badCommand s.fetchWord

end Sys2Proof.Machine
end

