-- ==== Sys2Proof/Machine/Flags.lean ====
section
/-! DEFINITION. STATUS, its flags and its write-one-to-clear bits, the interrupt output, and the register views computed from the tables (R26, R35 to R38, R54, R191, R196). -/

namespace Sys2Proof.Machine

/-- The numeric codes of R191. -/
def ErrCode.code : ErrCode → BitVec 8
  | .none => 0x00
  | .emptyAlphabet => 0x01
  | .malformedTree => 0x02
  | .truncatedTable => 0x03
  | .truncatedText => 0x04
  | .unrecognizedCode => 0x05
  | .unknownFormatVersion => 0x06
  | .invalidSymbol => 0x07
  | .duplicateCode => 0x08
  | .capacity => 0x09
  | .range => 0x0A
  | .badCommand => 0x0B
  | .badArg => 0x0C
  | .missingSymbol => 0x0D
  | .codeTooLong => 0x0E

/-- STATUS.ERR reads as (ERRCODE != 0) (R26). -/
def State.err (s : State) : Bool :=
  s.errcode.code != 0

/-- STATUS from its fields (R26): ERRCODE in 15:8, then TREE_VALID, OVR, ERR, DONE, BUSY from bit 4 down. -/
def statusOf (errcode : BitVec 8) (treeValid ovr err done busy : Bool) : Word :=
  0#16 ++ errcode ++ 0#3 ++ BitVec.ofBool treeValid ++ BitVec.ofBool ovr ++ BitVec.ofBool err
    ++ BitVec.ofBool done ++ BitVec.ofBool busy

/-- STATUS as a read returns it while no command runs (R26). -/
def State.statusWord (s : State) : Word :=
  statusOf s.errcode.code s.treeValid s.ovr s.err s.done s.busy

/-- STATUS as a read returns it while a command runs (R50): BUSY, DONE and OVR exact; ERRCODE, ERR and TREE_VALID taken
from the free word `f`. -/
def State.statusBusyWord (s : State) (f : Word) : Word :=
  statusOf (f.extractLsb' 8 8) (f.getLsbD 4) s.ovr (f.getLsbD 2) s.done s.busy

/-- A host write to STATUS (R26): bit 1 clears DONE, bit 3 clears OVR, nothing else changes. -/
def State.writeStatus (s : State) (v : Word) : State :=
  { s with done := s.done && !v.getLsbD 1, ovr := s.ovr && !v.getLsbD 3 }

/-- CTRL as a read returns it: SRST reads 0, reserved bits read 0 (R24). -/
def State.ctrlWord (s : State) : Word :=
  0#30 ++ BitVec.ofBool s.irqEn ++ 0#1

/-- The interrupt output (R196): `irq = STATUS.DONE and CTRL.IRQ_EN`. -/
def State.irq (s : State) : Bool :=
  s.done && s.irqEn

/-- MAXLEN of a code table (R38): the largest len, 0 when the table is empty. -/
def maxLen (ct : List CtEntry) : Nat :=
  ct.foldl (fun m e => max m e.len.toNat) 0

/-- NODE_N (R37). -/
def State.nodeN (s : State) : Nat :=
  if s.treeValid then s.nodes.length else 0

/-- ROOT as the register reads (R37). -/
def State.rootReg (s : State) : Nat :=
  if s.treeValid then s.root else 0

end Sys2Proof.Machine
end

