-- ==== Sys2Proof/Machine/Operands.lean ====
section
/-! DEFINITION. The operand forms of the commands: which operands each uses (R95), region and overlap checks (R66, R67), active ranges (R76), bit sequences (R12), symbols in UTF-8 (R72 to R74), and the packer (R68, R69). -/

namespace Sys2Proof.Machine

/-! ## Regions -/

/-- The commands that use a source region (R95). -/
def usesSrc : Instr → Bool
  | .freqCount | .tableDeser | .textEncode | .textDecode => true
  | .nop | .ftClear | .ftInsert | .treeBuild | .codeGen | .ctClear | .tableSer | .softReset => false

/-- The commands that use a destination region (R95). -/
def usesDst : Instr → Bool
  | .tableSer | .textEncode | .textDecode => true
  | .nop | .ftClear | .freqCount | .ftInsert | .treeBuild | .codeGen | .ctClear | .tableDeser | .softReset => false

/-- The DMEM addresses of a latched operand region, as numbers (sums are exact, R66). -/
def Latched.src (a : Latched) : Nat := a.srcAddr.toNat
def Latched.srcEnd (a : Latched) : Nat := a.srcAddr.toNat + a.srcLen.toNat
def Latched.dst (a : Latched) : Nat := a.dstAddr.toNat
def Latched.dstEnd (a : Latched) : Nat := a.dstAddr.toNat + a.dstCap.toNat

/-- The source region check (R66). -/
def State.srcInRange (s : State) : Bool :=
  s.a.srcEnd ≤ s.params.memBytes

/-- The destination region check (R66). -/
def State.dstInRange (s : State) : Bool :=
  s.a.dstEnd ≤ s.params.memBytes

/-- The overlap of the two regions (R67). -/
def Latched.overlap (a : Latched) : Bool :=
  0 < a.srcLen.toNat && 0 < a.dstCap.toNat && a.src < a.dstEnd && a.dst < a.srcEnd

/-- An error a command raises: its kind and ERR_INFO (R193). -/
structure Err where
  kind : ErrCode
  info : Word
  deriving DecidableEq, Repr

/-- The checks of a two-region command before it touches DMEM, in the order of R66, R67 and R195. -/
def State.regionErr (s : State) : Option Err :=
  if !s.srcInRange then some ⟨.range, 0⟩
  else if !s.dstInRange then some ⟨.range, 1⟩
  else if s.a.overlap then some ⟨.badArg, 1⟩
  else none

/-- `addr` lies in the active source range: the one the running command uses (R76). -/
def State.activeSrc (s : State) (addr : Nat) : Bool :=
  s.running.any usesSrc && s.a.src ≤ addr && addr < s.a.srcEnd

/-- `addr` lies in the active destination range: the one the running command uses (R76). -/
def State.activeDst (s : State) (addr : Nat) : Bool :=
  s.running.any usesDst && s.a.dst ≤ addr && addr < s.a.dstEnd

/-- The bytes of the source region. A command reads them from DMEM as it stands at its start: no byte it writes lies in
the source region (R67), "so that order is not observable" (R75 (d)). DEDUCED, log entry 14. -/
def State.srcBytes (s : State) : List Byte :=
  Memory.bytes s.dmem s.a.src s.a.srcLen.toNat

/-- The first `n` bits of the source region (R61). -/
def State.srcBits (s : State) (n : Nat) : List Bool :=
  Memory.bits s.dmem s.a.src n

/-! ## Bit sequences -/

/-- `bin_L(v)` (R12): the L low bits of v, most significant first. -/
def bin : (len v : Nat) → List Bool
  | 0, _ => []
  | len + 1, v => v.testBit len :: bin len v

/-- The unsigned number a bit sequence writes, first bit most significant (`BitsRead`, R13). -/
def bitsNat (bs : List Bool) : Nat :=
  bs.foldl (fun acc b => 2 * acc + b.toNat) 0

/-- A byte as its bit sequence (R61, R62). -/
def byteBits (b : Byte) : List Bool :=
  bin 8 b.toNat

/-! ## Symbols in UTF-8 -/

/-- A Unicode scalar value (glossary, R113, G2). -/
def isScalar (n : Nat) : Bool :=
  n ≤ 0x10FFFF && !(0xD800 ≤ n && n ≤ 0xDFFF)

/-- `Utf8Encode(s)` (R72). A 21-bit value that is no symbol, which no table of a reachable state holds, is laid out by
the row its size falls in. Log entry 13. -/
def utf8Encode (s : Sym) : List Byte :=
  if s.toNat ≤ 0x7F then [s.extractLsb' 0 8]
  else if s.toNat ≤ 0x7FF then [0b110#3 ++ s.extractLsb' 6 5, 0b10#2 ++ s.extractLsb' 0 6]
  else if s.toNat ≤ 0xFFFF then
    [0b1110#4 ++ s.extractLsb' 12 4, 0b10#2 ++ s.extractLsb' 6 6, 0b10#2 ++ s.extractLsb' 0 6]
  else
    [0b11110#5 ++ s.extractLsb' 18 3, 0b10#2 ++ s.extractLsb' 12 6, 0b10#2 ++ s.extractLsb' 6 6,
     0b10#2 ++ s.extractLsb' 0 6]

/-- `Utf8Len(b0)` (R73): the sequence length a lead byte gives, none where it is invalid. -/
def utf8Len (b0 : Byte) : Option Nat :=
  if b0.toNat ≤ 0x7F then some 1
  else if b0.toNat ≤ 0xBF then none
  else if b0.toNat ≤ 0xDF then some 2
  else if b0.toNat ≤ 0xEF then some 3
  else if b0.toNat ≤ 0xF7 then some 4
  else none

/-- A continuation byte `10xxxxxx` (R73). -/
def isCont (b : Byte) : Bool :=
  b.extractLsb' 6 2 == 0b10#2

/-- The last checks of `Utf8Decode` (R73): the range minimum of its length, surrogates, and the upper bound. -/
def checkScalar (min : Nat) (v : Sym) : Option Sym :=
  if min ≤ v.toNat && isScalar v.toNat then some v else none

/-- `Utf8Decode(b0 .. b(n-1))` (R73), given exactly the n bytes: none where it is invalid. -/
def utf8Decode : List Byte → Option Sym
  | [b0] => if utf8Len b0 = some 1 then checkScalar 0 (0#14 ++ b0.extractLsb' 0 7) else none
  | [b0, b1] =>
    if utf8Len b0 = some 2 && isCont b1 then
      checkScalar 0x80 (0#10 ++ b0.extractLsb' 0 5 ++ b1.extractLsb' 0 6)
    else none
  | [b0, b1, b2] =>
    if utf8Len b0 = some 3 && isCont b1 && isCont b2 then
      checkScalar 0x800 (0#5 ++ b0.extractLsb' 0 4 ++ b1.extractLsb' 0 6 ++ b2.extractLsb' 0 6)
    else none
  | [b0, b1, b2, b3] =>
    if utf8Len b0 = some 4 && isCont b1 && isCont b2 && isCont b3 then
      checkScalar 0x10000
        (b0.extractLsb' 0 3 ++ b1.extractLsb' 0 6 ++ b2.extractLsb' 0 6 ++ b3.extractLsb' 0 6)
    else none
  | _ => none

/-- `NextSymbol(pos)` (R74), on the bytes of the source region from pos on: the symbol and its length, or none where the
command raises INVALID_SYMBOL(pos). -/
def nextSymbol : List Byte → Option (Sym × Nat)
  | [] => none
  | b0 :: rest =>
    match utf8Len b0 with
    | none => none
    | some n =>
      if (b0 :: rest).length < n then none
      else (utf8Decode ((b0 :: rest).take n)).map fun s => (s, n)

/-! ## The packer -/

/-- The bit-serial output stage (R68): bits emitted, bytes written, pending bits, and DMEM as written so far. -/
structure Packer where
  nbits : Nat
  out   : Nat
  pend  : List Bool
  mem   : Memory
  deriving DecidableEq, Repr

/-- The packer at a command's start: "Both counts start at 0" (R68). -/
def Packer.init (m : Memory) : Packer :=
  { nbits := 0, out := 0, pend := [], mem := m }

/-- Emit one bit (R68). The bit of index k with `k mod 8 = 7` fills a byte, which is written if it lies below the
capacity; otherwise the packer answers itself as it stood, and the command raises CAPACITY. -/
def Packer.push (a : Latched) (p : Packer) (b : Bool) : Except Packer Packer :=
  if p.nbits % 8 = 7 then
    if a.dstCap.toNat ≤ p.out then .error p
    else .ok { nbits := p.nbits + 1, out := p.out + 1, pend := [],
               mem := Memory.write p.mem (a.dst + p.out) (BitVec.ofNat 8 (bitsNat (p.pend ++ [b]))) }
  else .ok { p with nbits := p.nbits + 1, pend := p.pend ++ [b] }

/-- Emit a bit sequence, one bit at a time (R68). -/
def Packer.emit (a : Latched) (p : Packer) : List Bool → Except Packer Packer
  | [] => .ok p
  | b :: bs =>
    match p.push a b with
    | .ok p' => p'.emit a bs
    | .error p' => .error p'

/-- The padding of a sequence of n bits to a byte boundary (R69). -/
def padCount (n : Nat) : Nat :=
  (8 - n % 8) % 8

/-- `Flush()` (R68): emit the padding zeros. The padding count is `padCount` of the bits emitted before it. -/
def Packer.flush (a : Latched) (p : Packer) : Except Packer Packer :=
  p.emit a (List.replicate (padCount p.nbits) false)

end Sys2Proof.Machine
end

