-- ==== Sys2Proof/Machine/Csr.lean ====
section
/-! DEFINITION. The CSR map and what a read of each CSR returns (R20 to R39, R47 to R50). -/

namespace Sys2Proof.Machine

/-- The CSR map of R20: the register at an aligned offset, none at a reserved one (R49). -/
def csrAt (off : BitVec 8) : Option Csr :=
  match off.toNat with
  | 0x00 => some .id
  | 0x04 => some .capNsym
  | 0x08 => some .capMem
  | 0x0C => some .ctrl
  | 0x10 => some .cmd
  | 0x14 => some .status
  | 0x18 => some .errInfo
  | 0x20 => some .srcAddr
  | 0x24 => some .srcLen
  | 0x28 => some .dstAddr
  | 0x2C => some .dstCap
  | 0x30 => some .arg0
  | 0x34 => some .arg1
  | 0x40 => some .result0
  | 0x44 => some .result1
  | 0x48 => some .result2
  | 0x4C => some .result3
  | 0x50 => some .ftN
  | 0x54 => some .ctN
  | 0x58 => some .nodeN
  | 0x5C => some .root
  | 0x60 => some .maxlen
  | 0x70 => some .idx
  | 0x74 => some .ftSymW
  | 0x78 => some .ftCntW
  | 0x7C => some .ctSymW
  | 0x80 => some .ctLenW
  | 0x84 => some .nodeKindW
  | 0x88 => some .nodeAW
  | 0x8C => some .nodeBW
  | 0x90 => some .nodeFreqLoW
  | 0x94 => some .nodeFreqHiW
  | 0xA0 => some (.ctValW 0)
  | 0xA4 => some (.ctValW 1)
  | 0xA8 => some (.ctValW 2)
  | 0xAC => some (.ctValW 3)
  | 0xB0 => some (.ctValW 4)
  | 0xB4 => some (.ctValW 5)
  | 0xB8 => some (.ctValW 6)
  | 0xBC => some (.ctValW 7)
  | _ => none

/-- The offset of a CSR (R20). -/
def csrOffset : Csr → BitVec 8
  | .id => 0x00
  | .capNsym => 0x04
  | .capMem => 0x08
  | .ctrl => 0x0C
  | .cmd => 0x10
  | .status => 0x14
  | .errInfo => 0x18
  | .srcAddr => 0x20
  | .srcLen => 0x24
  | .dstAddr => 0x28
  | .dstCap => 0x2C
  | .arg0 => 0x30
  | .arg1 => 0x34
  | .result0 => 0x40
  | .result1 => 0x44
  | .result2 => 0x48
  | .result3 => 0x4C
  | .ftN => 0x50
  | .ctN => 0x54
  | .nodeN => 0x58
  | .root => 0x5C
  | .maxlen => 0x60
  | .idx => 0x70
  | .ftSymW => 0x74
  | .ftCntW => 0x78
  | .ctSymW => 0x7C
  | .ctLenW => 0x80
  | .nodeKindW => 0x84
  | .nodeAW => 0x88
  | .nodeBW => 0x8C
  | .nodeFreqLoW => 0x90
  | .nodeFreqHiW => 0x94
  | .ctValW j => 0xA0 + BitVec.ofNat 8 (4 * j.val)

/-- An aligned offset: a multiple of 4 (R64). -/
def alignedOff (off : BitVec 8) : Bool :=
  off.toNat % 4 = 0

/-- ID (R21): "HUF" in bits 31:8, FMT_VER in bits 7:0. -/
def idWord : Word := 0x485546#24 ++ Config.fmtVer

/-- The entry of FT that IDX selects (R39). -/
def State.ftAtIdx (s : State) : Option FtEntry := s.ft[s.idx.toNat]?

/-- The entry of CT that IDX selects (R47). -/
def State.ctAtIdx (s : State) : Option CtEntry := s.ct[s.idx.toNat]?

/-- The node that IDX selects, while the tree is valid (R48). -/
def State.nodeAtIdx (s : State) : Option Node :=
  if s.treeValid then s.nodes[s.idx.toNat]? else none

/-- NODE_KIND_W (R48): 1 for a leaf, 2 for an internal node, 0 for no node. -/
def nodeKind : Option Node → Word
  | some (.leaf _ _) => 1
  | some (.internal _ _ _) => 2
  | none => 0

/-- NODE_A_W (R48). -/
def nodeA : Option Node → Word
  | some (.leaf x _) => x.setWidth 32
  | some (.internal l _ _) => BitVec.ofNat 32 l
  | none => 0

/-- NODE_B_W (R48). -/
def nodeB : Option Node → Word
  | some (.leaf _ _) => 0
  | some (.internal _ r _) => BitVec.ofNat 32 r
  | none => 0

/-- The frequency the node windows show (R48). -/
def nodeFreqW : Option Node → Freq
  | some (.leaf _ f) => f
  | some (.internal _ _ f) => f
  | none => 0

/-- CT_VAL_Wj (R47): bits 32j+31 to 32j of the value. -/
def ctValWord (j : Nat) : Option CtEntry → Word
  | some e => e.value.extractLsb' (32 * j) 32
  | none => 0

/-- What a CSR holds: the value a read returns while no command runs. A count is cut to 32 bits, which R11 says loses
nothing: DEDUCED, log entry 17. -/
def State.csrValue (s : State) : Csr → Word
  | .id => idWord
  | .capNsym => BitVec.ofNat 32 s.params.nsymMax
  | .capMem => BitVec.ofNat 32 s.params.memBytes
  | .ctrl => s.ctrlWord
  | .cmd => s.cmd
  | .status => s.statusWord
  | .errInfo => s.errInfo
  | .srcAddr => s.srcAddr
  | .srcLen => s.srcLen
  | .dstAddr => s.dstAddr
  | .dstCap => s.dstCap
  | .arg0 => s.arg0
  | .arg1 => s.arg1
  | .result0 => s.result0
  | .result1 => s.result1
  | .result2 => s.result2
  | .result3 => s.result3
  | .ftN => BitVec.ofNat 32 s.ft.length
  | .ctN => BitVec.ofNat 32 s.ct.length
  | .nodeN => BitVec.ofNat 32 s.nodeN
  | .root => BitVec.ofNat 32 s.rootReg
  | .maxlen => BitVec.ofNat 32 (maxLen s.ct)
  | .idx => s.idx
  | .ftSymW => match s.ftAtIdx with | some e => e.sym.setWidth 32 | none => 0
  | .ftCntW => match s.ftAtIdx with | some e => e.cnt | none => 0
  | .ctSymW => match s.ctAtIdx with | some e => e.sym.setWidth 32 | none => 0
  | .ctLenW => match s.ctAtIdx with | some e => e.len.setWidth 32 | none => 0
  | .nodeKindW => nodeKind s.nodeAtIdx
  | .nodeAW => nodeA s.nodeAtIdx
  | .nodeBW => nodeB s.nodeAtIdx
  | .nodeFreqLoW => (nodeFreqW s.nodeAtIdx).extractLsb' 0 32
  | .nodeFreqHiW => (nodeFreqW s.nodeAtIdx).extractLsb' 32 32
  | .ctValW j => ctValWord j.val s.ctAtIdx

/-- The CSRs that return exact values while a command runs (R50). STATUS is exact in part: `State.statusBusyWord`. -/
def exactWhileBusy : Csr → Bool
  | .id | .capNsym | .capMem | .ctrl | .cmd => true
  | .srcAddr | .srcLen | .dstAddr | .dstCap | .arg0 | .arg1 | .idx => true
  | .status | .errInfo | .result0 | .result1 | .result2 | .result3 => false
  | .ftN | .ctN | .nodeN | .root | .maxlen => false
  | .ftSymW | .ftCntW | .ctSymW | .ctLenW => false
  | .nodeKindW | .nodeAW | .nodeBW | .nodeFreqLoW | .nodeFreqHiW => false
  | .ctValW _ => false

/-- A read of a CSR (R50): the value and the state after it, which differs only where a free value was drawn.
DEDUCED, log entry 12: the value drawn is any 32-bit value. -/
def State.readCsr (s : State) (c : Csr) : Word × State :=
  if s.busy && !exactWhileBusy c then
    let (f, s') := s.drawWord
    if c = .status then (s.statusBusyWord f, s') else (f, s')
  else (s.csrValue c, s)

/-- A read at an aligned offset: a reserved offset reads 0 (R49). -/
def State.readOff (s : State) (off : BitVec 8) : Word × State :=
  match csrAt off with
  | some c => s.readCsr c
  | none => (0, s)

end Sys2Proof.Machine
end

