-- ==== Sys2Proof/Machine/Tree.lean ====
section
/-! DEFINITION. TREE_BUILD (41_tree_builder.md). -/

namespace Sys2Proof.Machine

/-- A node's frequency (R41). -/
def Node.freq : Node → Freq
  | .leaf _ f => f
  | .internal _ _ f => f

/-- `NODES[i].freq`, 0 where there is no node i (which the loop never asks for). -/
def nodeFreq (nodes : List Node) (i : Nat) : Freq :=
  match nodes[i]? with
  | some n => n.freq
  | none => 0

/-- Put index i into a sorted list before the first entry whose key is not smaller, so that i stays before its equals. -/
def insertByFreq (nodes : List Node) (i : Nat) : List Nat → List Nat
  | [] => [i]
  | j :: js => if nodeFreq nodes i ≤ nodeFreq nodes j then i :: j :: js else j :: insertByFreq nodes i js

/-- `StableSortAscending(WS, key(i) = NODES[i].freq)` (R120): equal keys keep their relative order. -/
def stableSort (nodes : List Node) : List Nat → List Nat
  | [] => []
  | i :: is => insertByFreq nodes i (stableSort nodes is)

/-- TREE_BUILD's loop (R120): NODES, the working set WS (R43) and the count m of merges. -/
structure TreeLoop where
  nodes : List Node
  ws    : List Nat
  m     : Nat
  deriving DecidableEq, Repr

/-- `while |WS| > 1` (R120): sort, merge the first two, put the new node at the end. N leaves take N - 1 merges (R125),
so N turns are enough. -/
def treeLoop : (fuel : Nat) → TreeLoop → TreeLoop
  | 0, l => l
  | fuel + 1, l =>
    match stableSort l.nodes l.ws with
    | x :: y :: rest =>
      treeLoop fuel
        { nodes := l.nodes ++ [.internal x y (nodeFreq l.nodes x + nodeFreq l.nodes y)],
          ws := rest ++ [l.nodes.length], m := l.m + 1 }
    | _ => l

/-- The leaves TREE_BUILD makes of FT, in FT order (R120, R41). -/
def leavesOf (ft : List FtEntry) : List Node :=
  ft.map fun e => .leaf e.sym (e.cnt.setWidth 64)

/-- TREE_BUILD's tree of FT (R120). -/
def buildTree (ft : List FtEntry) : TreeLoop :=
  treeLoop ft.length { nodes := leavesOf ft, ws := List.range ft.length, m := 0 }

/-- TREE_BUILD (R120). -/
def execTreeBuild (s : State) : Host.Outcome State Fault Refusal :=
  if s.ft.length = 0 then .next (s.dropTree.raise .emptyAlphabet 0)
  else
    let l := buildTree s.ft
    let root := l.ws.headD 0
    .next { s with nodes := l.nodes, root := root, treeValid := true, result0 := BitVec.ofNat 32 l.nodes.length,
                   result1 := BitVec.ofNat 32 root, result2 := BitVec.ofNat 32 l.m }.complete

end Sys2Proof.Machine
end

