-- ==== Sys2Proof/Machine/CodeTable.lean ====
section
/-! DEFINITION. CODE_GEN and CT_CLEAR (42_code_table.md). -/

namespace Sys2Proof.Machine

/-- What the walk records of a leaf (R130): its index, `code[i]` and `depth[i]`. -/
structure LeafCode where
  leaf  : Nat
  code  : Nat
  depth : Nat
  deriving DecidableEq, Repr

/-- `Walk(i, v, d)` (R130): 0 to the left, 1 to the right. A child's index is lower than its parent's (R41), so as much
fuel as there are nodes is enough. -/
def walk (nodes : List Node) : (fuel i v d : Nat) → List LeafCode
  | 0, _, _, _ => []
  | fuel + 1, i, v, d =>
    match nodes[i]? with
    | some (.leaf _ _) => [⟨i, v, d⟩]
    | some (.internal l r _) => walk nodes fuel l (2 * v) (d + 1) ++ walk nodes fuel r (2 * v + 1) (d + 1)
    | none => []

/-- The codes of the leaves (R130): a root that is a leaf has the code (0, 1) (R131). -/
def leafCodes (nodes : List Node) (root : Nat) : List LeafCode :=
  match nodes[root]? with
  | some (.leaf _ _) => [⟨root, 0, 1⟩]
  | _ => walk nodes nodes.length root 0 0

/-- `code[i]` and `depth[i]`. A valid tree gives every leaf one (R41); in a state without one, which no run reaches, a
leaf the walk does not meet has the code (0, 0). Log entry 13. -/
def codeOf (codes : List LeafCode) (i : Nat) : LeafCode :=
  (codes.find? fun c => c.leaf = i).getD ⟨i, 0, 0⟩

/-- `NODES[i].sym` of a leaf. -/
def leafSym (nodes : List Node) (i : Nat) : Sym :=
  match nodes[i]? with
  | some (.leaf x _) => x
  | _ => 0

/-- The smallest leaf index i < n with `depth[i] > 255` (R130, R132). -/
def firstTooLong (codes : List LeafCode) (n : Nat) : Option Nat :=
  (List.range n).find? fun i => Config.maxCodeLen < (codeOf codes i).depth

/-- CT in leaf index order (R130, R133). -/
def codeTable (nodes : List Node) (codes : List LeafCode) (n : Nat) : List CtEntry :=
  (List.range n).map fun i =>
    ⟨leafSym nodes i, BitVec.ofNat 255 (codeOf codes i).code, BitVec.ofNat 8 (codeOf codes i).depth⟩

/-- CODE_GEN (R130). Either outcome consumes the tree (R136); an error empties CT. -/
def execCodeGen (s : State) : Host.Outcome State Fault Refusal :=
  if !s.treeValid then .next ({ s with ct := [] }.dropTree.raise .malformedTree 0)
  else
    let n := (s.nodes.length + 1) / 2
    let codes := leafCodes s.nodes s.root
    match firstTooLong codes n with
    | some i => .next ({ s with ct := [] }.dropTree.raise .codeTooLong (BitVec.ofNat 32 i))
    | none =>
      let ct := codeTable s.nodes codes n
      .next { s with ct := ct, result0 := BitVec.ofNat 32 ct.length,
                     result1 := BitVec.ofNat 32 (maxLen ct) }.dropTree.complete

/-- CT_CLEAR (R134). TREE_VALID is not touched. -/
def execCtClear (s : State) : Host.Outcome State Fault Refusal :=
  .next { s with ct := [] }.complete

end Sys2Proof.Machine
end

