-- ==== Sys2Proof/Machine/Control.lean ====
section
/-! DEFINITION. NOP and the soft reset (47_control.md R180, R181). -/

namespace Sys2Proof.Machine

/-- NOP (R180): `complete`. -/
def execNop (s : State) : Host.Outcome State Fault Refusal :=
  .next s.complete

/-- How many bytes of DMEM a soft reset leaves unspecified: those of the abandoned command's active destination range
(R181), as far as DMEM reaches. Log entry 9. -/
def State.abandonedBytes (s : State) : Nat :=
  if s.running.any usesDst then min s.a.dstEnd s.params.memBytes - s.a.dst else 0

/-- The soft reset (R181, R221): R220's state in every row but DMEM, whose bytes in the abandoned command's active
destination range become free values. What is the host's own (its program, the schedule, the values it read) stays. -/
def execSoftReset (s : State) : Host.Outcome State Fault Refusal :=
  .next { State.powerOn s.params (scramble s.abandonedBytes s.dmem s.a.dst s.draws) with
    host := s.host, sched := s.sched, rdata := s.rdata, draws := s.draws + s.abandonedBytes }

end Sys2Proof.Machine
end

