-- ==== Sys2Proof/Machine/Decoder.lean ====
section
/-! DEFINITION. TEXT_DECODE (46_bitstream_decoder.md). -/

namespace Sys2Proof.Machine

/-- `INV(v, d)` (R45): the symbol of the CT entry with `value = v` and `len = d`. -/
def invLookup (ct : List CtEntry) (v d : Nat) : Option Sym :=
  (ct.find? fun e => e.value.toNat = v && e.len.toNat = d).map (·.sym)

/-- Entry j repeats the (value, len) pair of an earlier entry (R170). -/
def repeatsPair (ct : List CtEntry) (j : Nat) : Bool :=
  match ct[j]? with
  | none => false
  | some e => (ct.take j).any fun x => x.value = e.value && x.len = e.len

/-- The smallest index that repeats an earlier entry's pair (R170). -/
def firstDuplicate (ct : List CtEntry) : Option Nat :=
  (List.range ct.length).find? fun j => repeatsPair ct j

/-- The checks of TEXT_DECODE before it reads any bit, in the order of R171 and R195. -/
def State.decodeErr (s : State) : Option Err :=
  match s.regionErr with
  | some e => some e
  | none =>
    if 7 < s.a.arg0.toNat || (s.a.srcLen = 0 && s.a.arg0 ≠ 0) then some ⟨.badArg, 2⟩
    else if s.ct.isEmpty then some ⟨.emptyAlphabet, 0⟩
    else
      match firstDuplicate s.ct with
      | some j => some ⟨.duplicateCode, BitVec.ofNat 32 j⟩
      | none => none

/-- The one-entry table whose code has length 1 (R173): its symbol. -/
def singleSym : List CtEntry → Option Sym
  | [e] => if e.len = 1 then some e.sym else none
  | _ => none

/-- Where TEXT_DECODE's loop stands (R171): the accumulator `(acc, depth)` (R46, R172), the bits consumed k, where the
run began, the bytes and symbols written, and DMEM as written so far. -/
structure DecLoop where
  acc      : Nat
  depth    : Nat
  k        : Nat
  runstart : Nat
  out      : Nat
  nsym     : Nat
  mem      : Memory
  deriving DecidableEq, Repr

/-- `EmitSym(s)` (R171): write all of the symbol's bytes, or none where they do not all fit (`raise CAPACITY(runstart)`). -/
def emitSym (a : Latched) (l : DecLoop) (x : Sym) : Option DecLoop :=
  let u := utf8Encode x
  if a.dstCap.toNat < l.out + u.length then none
  else some { l with mem := Memory.writeAll l.mem (a.dst + l.out) u, out := l.out + u.length, nsym := l.nsym + 1 }

/-- A symbol was matched at the bit just consumed: emit it and begin a new run (R171). -/
def matchSym (a : Latched) (l : DecLoop) (x : Sym) : Except (ErrCode × DecLoop) DecLoop :=
  match emitSym a l x with
  | none => .error (.capacity, l)
  | some l' => .ok { l' with acc := 0, depth := 0, runstart := l'.k }

/-- One bit of the general path (R171, R175): shift it in, emit on a match, and give up a run longer than MAXLEN. -/
def decBit (ct : List CtEntry) (a : Latched) (l : DecLoop) (b : Bool) : Except (ErrCode × DecLoop) DecLoop :=
  let l := { l with k := l.k + 1, acc := 2 * l.acc + b.toNat, depth := l.depth + 1 }
  match invLookup ct l.acc l.depth with
  | some x => matchSym a l x
  | none => if maxLen ct < l.depth then .error (.unrecognizedCode, l) else .ok l

/-- One turn of TEXT_DECODE's loop (R171): in the single-symbol case every bit is the symbol (R173). -/
def decTurn (ct : List CtEntry) (a : Latched) (l : DecLoop) (b : Bool) : Except (ErrCode × DecLoop) DecLoop :=
  match singleSym ct with
  | some x => matchSym a { l with k := l.k + 1 } x
  | none => decBit ct a l b

/-- TEXT_DECODE's loop over the valid bits (R171). -/
def decLoop (ct : List CtEntry) (a : Latched) : List Bool → DecLoop → Except (ErrCode × DecLoop) DecLoop
  | [], l => .ok l
  | b :: bs, l =>
    match decTurn ct a l b with
    | .error e => .error e
    | .ok l' => decLoop ct a bs l'

/-- What TEXT_DECODE leaves of its loop in the state: DMEM and RESULT0 to RESULT2 (R171). -/
def State.decResult (s : State) (l : DecLoop) (r3 : Nat) : State :=
  { s with dmem := l.mem, result0 := BitVec.ofNat 32 l.out, result1 := BitVec.ofNat 32 l.nsym,
           result2 := BitVec.ofNat 32 l.k, result3 := BitVec.ofNat 32 r3 }

/-- The number of valid bits (R171, R177): `8 * A.SRC_LEN - A.ARG0`. -/
def Latched.validBits (a : Latched) : Nat :=
  8 * a.srcLen.toNat - a.arg0.toNat

/-- TEXT_DECODE (R171). RESULT3 is the final run length (R174), and 0 after an error in the loop. -/
def execTextDecode (s : State) : Host.Outcome State Fault Refusal :=
  match s.decodeErr with
  | some e => .next (s.raise e.kind e.info)
  | none =>
    match decLoop s.ct s.a (s.srcBits s.a.validBits) ⟨0, 0, 0, 0, 0, 0, s.dmem⟩ with
    | .error (e, l) => .next ((s.decResult l 0).raise e (BitVec.ofNat 32 l.runstart))
    | .ok l => .next (s.decResult l l.depth).complete

end Sys2Proof.Machine
end

