-- ==== Sys2Proof/Machine/Deserializer.lean ====
section
/-! DEFINITION. TABLE_DESER (44_table_deserializer.md). -/

namespace Sys2Proof.Machine

/-- Where TABLE_DESER's loop stands (R150): the bits of the region from pos on, pos, the table so far, entries read. -/
structure DeserLoop where
  rest  : List Bool
  pos   : Nat
  new   : List CtEntry
  nread : Nat
  deriving DecidableEq, Repr

/-- One entry as R150 reads it from the bits at its start. -/
inductive EntryRead where
  /-- The entry and the bits it took. -/
  | entry (e : CtEntry) (bits : Nat)
  /-- INVALID_SYMBOL(start). -/
  | invalid
  /-- TRUNCATED_TABLE(start) (R152). -/
  | truncated
  deriving DecidableEq, Repr

/-- The bytes that n groups of eight bits write, first bit most significant (R61). -/
def bytesOfBits : (n : Nat) → List Bool → List Byte
  | 0, _ => []
  | n + 1, bs => BitVec.ofNat 8 (bitsNat (bs.take 8)) :: bytesOfBits n (bs.drop 8)

/-- Read one entry (R150, R152), at least 8 bits remaining. -/
def readEntry (bs : List Bool) : EntryRead :=
  match utf8Len (BitVec.ofNat 8 (bitsNat (bs.take 8))) with
  | none => .invalid
  | some n =>
    if bs.length < 8 * n then .truncated
    else
      match utf8Decode (bytesOfBits n bs) with
      | none => .invalid
      | some x =>
        let atLen := bs.drop (8 * n)
        if atLen.length < 8 then .truncated
        else
          let len := bitsNat (atLen.take 8)
          let atVal := atLen.drop 8
          if atVal.length < len then .truncated
          else .entry ⟨x, BitVec.ofNat 255 (bitsNat (atVal.take len)), BitVec.ofNat 8 len⟩ (8 * n + 8 + len)

/-- Put an entry into the table being built (R150, R153): a repeated symbol replaces its entry in place, a new one is
appended; `none` where the table is full (`raise CAPACITY(start)`). -/
def ctPut (nsymMax : Nat) (t : List CtEntry) (e : CtEntry) : Option (List CtEntry) :=
  match t.findIdx? fun x => x.sym = e.sym with
  | some i => some (t.set i e)
  | none => if t.length = nsymMax then none else some (t ++ [e])

/-- TABLE_DESER's loop (R150, R151). Each entry takes at least 16 bits (R97), so as much fuel as there are bits is enough.
The error carries the loop's state at the start of the failing entry. -/
def deserLoop (nsymMax : Nat) : (fuel : Nat) → DeserLoop → Except (ErrCode × DeserLoop) DeserLoop
  | 0, l => .ok l
  | fuel + 1, l =>
    if l.rest.length < 8 then .ok l
    else
      match readEntry l.rest with
      | .invalid => .error (.invalidSymbol, l)
      | .truncated => .error (.truncatedTable, l)
      | .entry e bits =>
        match ctPut nsymMax l.new e with
        | none => .error (.capacity, l)
        | some t => deserLoop nsymMax fuel ⟨l.rest.drop bits, l.pos + bits, t, l.nread + 1⟩

/-- TABLE_DESER's error effects (R150). -/
def State.deserFail (s : State) (nread : Nat) : State :=
  { s with ct := [], result0 := 0, result1 := BitVec.ofNat 32 nread, result2 := 0 }

/-- TABLE_DESER (R150). -/
def execTableDeser (s : State) : Host.Outcome State Fault Refusal :=
  if !s.srcInRange then .next ((s.deserFail 0).raise .range 0)
  else
    let nb := 8 * s.a.srcLen.toNat
    match deserLoop s.params.nsymMax nb ⟨s.srcBits nb, 0, [], 0⟩ with
    | .error (e, l) => .next ((s.deserFail l.nread).raise e (BitVec.ofNat 32 l.pos))
    | .ok l =>
      .next { s with ct := l.new, result0 := BitVec.ofNat 32 l.new.length, result1 := BitVec.ofNat 32 l.nread,
                     result2 := BitVec.ofNat 32 (nb - l.pos) }.complete

end Sys2Proof.Machine
end

