-- ==== Sys2Proof/Machine/Encoder.lean ====
section
/-! DEFINITION. TEXT_ENCODE (45_bitstream_encoder.md). -/

namespace Sys2Proof.Machine

/-- Where TEXT_ENCODE's loop stands (R160): the packer and the two counts. -/
structure EncLoop where
  pk   : Packer
  pos  : Nat
  nsym : Nat
  deriving DecidableEq, Repr

/-- The CT entry of a symbol (R160). -/
def ctLookup (ct : List CtEntry) (x : Sym) : Option CtEntry :=
  ct.find? fun e => e.sym = x

/-- The code bits of an entry (R62): `bin_len(value)`. -/
def codeBits (e : CtEntry) : List Bool :=
  bin e.len.toNat e.value.toNat

/-- TEXT_ENCODE's loop over the source bytes from pos on (R160), its checks per symbol in the order of R195: INVALID_SYMBOL,
MISSING_SYMBOL, CAPACITY. Each turn takes at least one byte (R230). The error carries the loop's state at the `raise`. -/
def encLoop (ct : List CtEntry) (a : Latched) : (fuel : Nat) → List Byte → EncLoop → Except (ErrCode × EncLoop) EncLoop
  | _, [], l => .ok l
  | 0, _ :: _, l => .ok l
  | fuel + 1, b :: bs, l =>
    match nextSymbol (b :: bs) with
    | none => .error (.invalidSymbol, l)
    | some (x, n) =>
      match ctLookup ct x with
      | none => .error (.missingSymbol, l)
      | some e =>
        match l.pk.emit a (codeBits e) with
        | .error p => .error (.capacity, { l with pk := p })
        | .ok p => encLoop ct a fuel ((b :: bs).drop n) ⟨p, l.pos + n, l.nsym + 1⟩

/-- TEXT_ENCODE's error effects after the checks (R160). -/
def State.encFail (s : State) (e : ErrCode) (l : EncLoop) : State :=
  { s with dmem := l.pk.mem, result0 := BitVec.ofNat 32 l.pk.out, result1 := BitVec.ofNat 32 l.nsym, result2 := 0,
           result3 := BitVec.ofNat 32 l.pos }.raise e (BitVec.ofNat 32 l.pos)

/-- TEXT_ENCODE (R160). After a whole loop pos is A.SRC_LEN, the information of a failed flush. -/
def execTextEncode (s : State) : Host.Outcome State Fault Refusal :=
  match s.regionErr with
  | some e => .next (s.raise e.kind e.info)
  | none =>
    match encLoop s.ct s.a s.a.srcLen.toNat s.srcBytes ⟨Packer.init s.dmem, 0, 0⟩ with
    | .error (e, l) => .next (s.encFail e l)
    | .ok l =>
      match l.pk.flush s.a with
      | .error p => .next (s.encFail .capacity { l with pk := p })
      | .ok p =>
        .next { s with dmem := p.mem, result0 := BitVec.ofNat 32 p.out, result1 := BitVec.ofNat 32 l.nsym,
                       result2 := BitVec.ofNat 32 (padCount l.pk.nbits),
                       result3 := BitVec.ofNat 32 l.pos }.complete

end Sys2Proof.Machine
end

