-- ==== Sys2Proof/Machine/Frequency.lean ====
section
/-! DEFINITION. FT_CLEAR, FREQ_COUNT and FT_INSERT (40_frequency.md). -/

namespace Sys2Proof.Machine

/-- FT_CLEAR (R110). -/
def execFtClear (s : State) : Host.Outcome State Fault Refusal :=
  .next { s with ft := [] }.dropTree.complete

/-- `FtFind(T, s)` (R112): the index of the entry of symbol s. -/
def ftFind (t : List FtEntry) (x : Sym) : Option Nat :=
  t.findIdx? fun e => e.sym = x

/-- `FtInsertSorted(T, e)` (R112): the one position that keeps T strictly ascending by sym. -/
def ftInsertSorted : List FtEntry → FtEntry → List FtEntry
  | [], e => [e]
  | y :: ys, e => if e.sym < y.sym then e :: y :: ys else y :: ftInsertSorted ys e

/-- Where FREQ_COUNT's loop stands (R111). -/
structure FreqLoop where
  new  : List FtEntry
  pos  : Nat
  nsym : Nat
  deriving DecidableEq, Repr

/-- FREQ_COUNT's count of one symbol (R111): `none` where the table is full (`raise CAPACITY(pos)`). -/
def ftCount (nsymMax : Nat) (t : List FtEntry) (x : Sym) : Option (List FtEntry) :=
  match ftFind t x with
  | some i => some (t.modify i fun e => { e with cnt := e.cnt + 1 })
  | none => if t.length = nsymMax then none else some (ftInsertSorted t ⟨x, 1⟩)

/-- FREQ_COUNT's loop over the bytes from pos on (R111). Each turn takes at least one byte, so as much fuel as there are
bytes is enough (R230). The error carries the loop's state at the `raise`. -/
def freqLoop (nsymMax : Nat) : (fuel : Nat) → List Byte → FreqLoop → Except (ErrCode × FreqLoop) FreqLoop
  | _, [], l => .ok l
  | 0, _ :: _, l => .ok l
  | fuel + 1, b :: bs, l =>
    match nextSymbol (b :: bs) with
    | none => .error (.invalidSymbol, l)
    | some (x, n) =>
      match ftCount nsymMax l.new x with
      | none => .error (.capacity, l)
      | some t => freqLoop nsymMax fuel ((b :: bs).drop n) ⟨t, l.pos + n, l.nsym + 1⟩

/-- FREQ_COUNT's error effects (R111): FT emptied, the tree dropped, RESULT0 = 0, RESULT1 = nsym, RESULT3 = pos. -/
def State.freqFail (s : State) (nsym pos : Nat) : State :=
  { s with ft := [], result0 := 0, result1 := BitVec.ofNat 32 nsym, result3 := BitVec.ofNat 32 pos }.dropTree

/-- FREQ_COUNT (R111). -/
def execFreqCount (s : State) : Host.Outcome State Fault Refusal :=
  if !s.srcInRange then .next ((s.freqFail 0 0).raise .range 0)
  else
    match freqLoop s.params.nsymMax s.a.srcLen.toNat s.srcBytes ⟨[], 0, 0⟩ with
    | .error (e, l) => .next ((s.freqFail l.nsym l.pos).raise e (BitVec.ofNat 32 l.pos))
    | .ok l =>
      .next { s with ft := l.new, result0 := BitVec.ofNat 32 l.new.length, result1 := BitVec.ofNat 32 l.nsym,
                     result3 := BitVec.ofNat 32 l.pos }.dropTree.complete

/-- FT_INSERT (R113), its checks in order: INVALID_SYMBOL(s), BAD_ARG(3), CAPACITY(s). On an error FT is unchanged and
TREE_VALID is 0. -/
def execFtInsert (s : State) : Host.Outcome State Fault Refusal :=
  if !isScalar s.a.arg0.toNat then .next (s.dropTree.raise .invalidSymbol s.a.arg0)
  else if s.a.arg1 = 0 then .next (s.dropTree.raise .badArg 3)
  else
    match ftFind s.ft (s.a.arg0.setWidth 21) with
    | some i =>
      .next { s with ft := s.ft.modify i fun e => { e with cnt := s.a.arg1 }, result1 := 0,
                     result0 := BitVec.ofNat 32 s.ft.length }.dropTree.complete
    | none =>
      if s.ft.length = s.params.nsymMax then .next (s.dropTree.raise .capacity s.a.arg0)
      else
        .next { s with ft := ftInsertSorted s.ft ⟨s.a.arg0.setWidth 21, s.a.arg1⟩, result1 := 1,
                       result0 := BitVec.ofNat 32 (s.ft.length + 1) }.dropTree.complete

end Sys2Proof.Machine
end

