-- ==== Sys2Proof/Machine/Serializer.lean ====
section
/-! DEFINITION. TABLE_SER (43_table_serializer.md). -/

namespace Sys2Proof.Machine

/-- The bits of a serialized entry (R97, R140): the symbol's UTF-8 bytes, the length byte, the code value. -/
def entryBits (e : CtEntry) : List Bool :=
  (utf8Encode e.sym).flatMap byteBits ++ bin 8 e.len.toNat ++ bin e.len.toNat e.value.toNat

/-- TABLE_SER's loop over the entries from index j on (R140). A full destination answers the index of the entry and the
packer as it stood. -/
def serLoop (a : Latched) : List CtEntry → (j : Nat) → Packer → Except (Nat × Packer) Packer
  | [], _, p => .ok p
  | e :: es, j, p =>
    match p.emit a (entryBits e) with
    | .error p' => .error (j, p')
    | .ok p' => serLoop a es (j + 1) p'

/-- TABLE_SER's error effects on CAPACITY(j) (R140). -/
def State.serFail (s : State) (p : Packer) (j : Nat) : State :=
  { s with dmem := p.mem, result0 := BitVec.ofNat 32 p.out, result1 := BitVec.ofNat 32 j,
           result2 := 0 }.raise .capacity (BitVec.ofNat 32 j)

/-- TABLE_SER (R140). -/
def execTableSer (s : State) : Host.Outcome State Fault Refusal :=
  if !s.dstInRange then .next (s.raise .range 1)
  else
    match serLoop s.a s.ct 0 (Packer.init s.dmem) with
    | .error (j, p) => .next (s.serFail p j)
    | .ok p =>
      match p.flush s.a with
      | .error p' => .next (s.serFail p' s.ct.length)
      | .ok p' =>
        .next { s with dmem := p'.mem, result0 := BitVec.ofNat 32 p'.out, result1 := BitVec.ofNat 32 s.ct.length,
                       result2 := BitVec.ofNat 32 (padCount p.nbits) }.complete

end Sys2Proof.Machine
end

