-- ==== Sys2Proof/Machine/Dispatch.lean ====
section
/-! DEFINITION. One arm per instruction (R93, R181). -/

namespace Sys2Proof.Machine

def exec (i : Instr) (s : State) : Host.Outcome State Fault Refusal :=
  match i with
  | .nop => Sys2Proof.Machine.execNop s
  | .ftClear => Sys2Proof.Machine.execFtClear s
  | .freqCount => Sys2Proof.Machine.execFreqCount s
  | .ftInsert => Sys2Proof.Machine.execFtInsert s
  | .treeBuild => Sys2Proof.Machine.execTreeBuild s
  | .codeGen => Sys2Proof.Machine.execCodeGen s
  | .ctClear => Sys2Proof.Machine.execCtClear s
  | .tableSer => Sys2Proof.Machine.execTableSer s
  | .tableDeser => Sys2Proof.Machine.execTableDeser s
  | .textEncode => Sys2Proof.Machine.execTextEncode s
  | .textDecode => Sys2Proof.Machine.execTextDecode s
  | .softReset => Sys2Proof.Machine.execSoftReset s

end Sys2Proof.Machine
end

