-- ==== Sys2Proof/Machine/Bus.lean ====
section
/-! DEFINITION. The two agents' steps: a host transaction (R20 to R33, R64, R70, R76, R90, R99, R100, R181, R182) and the engine's step (R94, R229), and whose turn it is (R195). -/

namespace Sys2Proof.Machine

/-! ## Host transactions -/

/-- A host write to CTRL (R24): with SRST = 1 the soft reset, else IRQ_EN is stored. -/
def writeCtrl (s : State) (v : Word) : Host.Outcome State Fault Refusal :=
  match decode .ctrl v with
  | .ok i => exec i s
  | .error _ => .next { s with irqEn := v.getLsbD 1 }

/-- A host write to CMD (R25): accepted while idle (R90), dropped with OVR set while a command runs (R182). -/
def writeCmd (s : State) (w : Word) : State :=
  if s.busy then { s with ovr := true } else s.start w

/-- A host write of `v` to a CSR: a write to a read-only register is ignored (R49). -/
def writeCsr (s : State) (v : Word) : Csr → Host.Outcome State Fault Refusal
  | .ctrl => writeCtrl s v
  | .cmd => .next (writeCmd s v)
  | .status => .next (s.writeStatus v)
  | .srcAddr => .next { s with srcAddr := v }
  | .srcLen => .next { s with srcLen := v }
  | .dstAddr => .next { s with dstAddr := v }
  | .dstCap => .next { s with dstCap := v }
  | .arg0 => .next { s with arg0 := v }
  | .arg1 => .next { s with arg1 := v }
  | .idx => .next { s with idx := v }
  | .id | .capNsym | .capMem | .errInfo | .result0 | .result1 | .result2 | .result3 => .next s
  | .ftN | .ctN | .nodeN | .root | .maxlen => .next s
  | .ftSymW | .ftCntW | .ctSymW | .ctLenW => .next s
  | .nodeKindW | .nodeAW | .nodeBW | .nodeFreqLoW | .nodeFreqHiW => .next s
  | .ctValW _ => .next s

/-- `csrw` (R99): HOST_BAD_ACCESS where the offset is not aligned (R64), ignored where it is reserved (R49). -/
def hostCsrw (s : State) (off : BitVec 8) (v : Word) : Host.Outcome State Fault Refusal :=
  if alignedOff off then
    match csrAt off with
    | some c => writeCsr s v c
    | none => .next s
  else .fault .hostBadAccess

/-- `csrr` (R99). "A CSR read has no side effect" (R64). -/
def hostCsrr (s : State) (off : BitVec 8) : Host.Outcome State Fault Refusal :=
  if alignedOff off then
    let (v, s') := s.readOff off
    .next (s'.returnRead v)
  else .fault .hostBadAccess

/-- `sb` (R99): HOST_BAD_ACCESS outside DMEM (R70), HOST_RACE inside an active range (R76). -/
def hostSb (s : State) (addr : Word) (b : Byte) : Host.Outcome State Fault Refusal :=
  if s.params.memBytes ≤ addr.toNat then .fault .hostBadAccess
  else if s.activeSrc addr.toNat || s.activeDst addr.toNat then .fault .hostRace
  else .next { s with dmem := Memory.write s.dmem addr.toNat b }

/-- `lb` (R99): HOST_BAD_ACCESS outside DMEM (R70), a free value inside the active destination range (R76), else the
byte. Of a byte that lies in both active ranges, while a command whose regions overlap is busy and before it raises
BAD_ARG(1), R76 says two things (its contents as a source byte, unspecified as a destination byte): the model draws a free
value. DESIGN CHOICE, log entry 20. The value returned is the byte in 32 bits, as 95_test_vectors.md shows it. DESIGN
CHOICE, log entry 8. -/
def hostLb (s : State) (addr : Word) : Host.Outcome State Fault Refusal :=
  if s.params.memBytes ≤ addr.toNat then .fault .hostBadAccess
  else if s.activeDst addr.toNat then
    let (b, s') := s.drawByte
    .next (s'.returnRead (b.setWidth 32))
  else .next (s.returnRead ((Memory.read s.dmem addr.toNat).setWidth 32))

/-- One poll of `wait` (R100): read STATUS, and poll again if bit 0 of the value read is 1.
DESIGN CHOICE, log entry 15. -/
def hostWait (s : State) : Host.Outcome State Fault Refusal :=
  let (v, s') := s.readCsr .status
  if v.getLsbD 0 then .next { s'.returnRead v with host := .wait :: s'.host }
  else .next (s'.returnRead v)

/-- One host transaction. -/
def hostStep (op : HostOp) (s : State) : Host.Outcome State Fault Refusal :=
  match op with
  | .csrw off v => hostCsrw s off v
  | .csrr off => hostCsrr s off
  | .sb addr b => hostSb s addr b
  | .lb addr => hostLb s addr
  | .wait => hostWait s
  | .csrNarrow _ _ => .fault .hostBadAccess
  | .dmemWide _ _ => .refused .wideDmemAccess

/-- A transaction the block defines an effect for, whatever the engine does (R64, R70). -/
def HostOp.wf (p : Params) : HostOp → Bool
  | .csrw off _ => alignedOff off
  | .csrr off => alignedOff off
  | .sb addr _ => addr.toNat < p.memBytes
  | .lb addr => addr.toNat < p.memBytes
  | .wait => true
  | .csrNarrow _ _ => false
  | .dmemWide _ _ => false

/-- The host bus address a transaction goes to (R20, R60, R81). Nothing of the block reads it: DESIGN
CHOICE, log entry 18. -/
def HostOp.busAddr (p : Params) : HostOp → Nat
  | .csrw off _ => p.csrBase + off.toNat
  | .csrr off => p.csrBase + off.toNat
  | .sb addr _ => p.dmemBase + addr.toNat
  | .lb addr => p.dmemBase + addr.toNat
  | .wait => p.csrBase + (csrOffset .status).toNat
  | .csrNarrow off _ => p.csrBase + off.toNat
  | .dmemWide addr _ => p.dmemBase + addr.toNat

/-! ## The engine -/

/-- The engine's step: decode the accepted word and run its command to its completion (R90, R94). R229: "A model may
complete it in one step". Log entry 4. -/
def engineStep (s : State) : Host.Outcome State Fault Refusal :=
  match decode .cmd s.fetchWord with
  | .ok i => exec i s
  | .error _ => .next s.badCommand

/-! ## Whose turn it is -/

/-- Who moves next, on the state with what the move takes taken out of it. -/
inductive Turn where
  | engine (s : State)
  | host (op : HostOp) (s : State)
  | idle
  deriving DecidableEq, Repr

/-- "The model runs host transactions and engine steps one at a time" (R195). While a command runs and a transaction is
pending, the schedule says who moves; the engine moves where it says nothing or no transaction is pending; while no
command runs only the host can move. Log entry 5. -/
def State.turn (s : State) : Turn :=
  if s.busy then
    match s.sched, s.host with
    | .host :: q, op :: ops => .host op { s with sched := q, host := ops }
    | .host :: q, [] => .engine { s with sched := q }
    | .engine :: q, _ => .engine { s with sched := q }
    | [], _ => .engine s
  else
    match s.host with
    | op :: ops => .host op { s with host := ops }
    | [] => .idle

end Sys2Proof.Machine
end

