-- ==== Sys2Proof/Machine/Step.lean ====
section
/-! DEFINITION. One step of the machine, and where a step takes its next instruction from. -/

namespace Sys2Proof.Machine

/-- One step: the agent whose turn it is moves (R8, R195). An idle block with no transaction pending stays as it is
(R205). -/
def step (s : State) : Host.Outcome State Fault Refusal :=
  match s.turn with
  | .engine s' => engineStep s'
  | .host op s' => hostStep op s'
  | .idle => .next s

/-- The state whose next step runs the instruction of table word `w`. HUFCORE fetches no instructions (R9): a command is
the word command start accepted (R90), which the engine's next step decodes and runs; the soft reset is the host's
transaction on CTRL (R181). Log entry 6. -/
def State.withFetchWord (s : State) (nbits w : Nat) : State :=
  match tablePort nbits with
  | .cmd => { s.start (BitVec.ofNat 32 w) with sched := .engine :: s.sched }
  | .ctrl =>
    { s with host := .csrw (csrOffset .ctrl) (BitVec.ofNat 32 w) :: s.host
             sched := if s.busy then .host :: s.sched else s.sched }

end Sys2Proof.Machine
end

