-- ==== Sys2Proof/Machine/HostProgram.lean ====
section
/-! DEFINITION. The host notation: pseudo-instructions and transaction records (R99, R100). -/

namespace Sys2Proof.Machine

/-- The CSR offset an instruction's word is written to (R93). -/
def portOffset : Port → BitVec 8
  | .cmd => csrOffset .cmd
  | .ctrl => csrOffset .ctrl

/-- `cmd MNEMONIC`, and `softreset` for the soft reset (R100): the write of the instruction's word to its register. -/
def hostCmd (i : Instr) : List HostOp :=
  [.csrw (portOffset (encode i).1) (encode i).2]

/-- `run MNEMONIC` (R100). -/
def hostRun (i : Instr) : List HostOp :=
  hostCmd i ++ [.wait]

/-- `csrw NAME, imm32` (R99). -/
def hostWrite (c : Csr) (v : Word) : List HostOp :=
  [.csrw (csrOffset c) v]

/-- `src a, n` (R100). -/
def hostSrc (a n : Word) : List HostOp :=
  hostWrite .srcAddr a ++ hostWrite .srcLen n

/-- `dst a, n` (R100). -/
def hostDst (a n : Word) : List HostOp :=
  hostWrite .dstAddr a ++ hostWrite .dstCap n

/-- `args x, y` (R100). -/
def hostArgs (x y : Word) : List HostOp :=
  hostWrite .arg0 x ++ hostWrite .arg1 y

/-- `load a, b0 b1 ... bk` (R100). -/
def hostLoad : Word → List Byte → List HostOp
  | _, [] => []
  | a, b :: bs => .sb a b :: hostLoad (a + 1) bs

/-- `ack` (R100): clears DONE and OVR. -/
def hostAck : List HostOp :=
  hostWrite .status 0x0000000A

/-- One upper-case hexadecimal digit. -/
def hexDigit (n : Nat) : Char :=
  if n < 10 then Char.ofNat (48 + n) else Char.ofNat (55 + n)

/-- A number in n hexadecimal digits, as the records of R99 write it. -/
def hex : (n v : Nat) → List Char
  | 0, _ => []
  | n + 1, v => hexDigit (v / 16 ^ n % 16) :: hex n v

/-- The transaction record of R99. `wait` polls with `R 014` (R100); an access R99 has no syntax for has no record. -/
def HostOp.record : HostOp → Option (List Char)
  | .csrw off v => some ('W' :: ' ' :: hex 3 off.toNat ++ ' ' :: hex 8 v.toNat)
  | .csrr off => some ('R' :: ' ' :: hex 3 off.toNat)
  | .sb addr b => some ('W' :: 'B' :: ' ' :: hex 8 addr.toNat ++ ' ' :: hex 2 b.toNat)
  | .lb addr => some ('R' :: 'B' :: ' ' :: hex 8 addr.toNat)
  | .wait => some ('R' :: ' ' :: hex 3 (csrOffset .status).toNat)
  | .csrNarrow _ _ => none
  | .dmemWide _ _ => none

end Sys2Proof.Machine
end

