-- ==== Sys2Proof/Safety.lean ====
section
/-! DEFINITION. The terms claims are stated in: the invariants of 10_state.md, texts and codes as sequences, paths in the tree, and the frame of DMEM. -/

namespace Sys2Proof.Machine

/-! ## Invariants of the state -/

/-- FT's invariants (R40): strictly ascending symbols, each a symbol, no zero count, at most NSYM_MAX entries. -/
abbrev FtOk (p : Params) (ft : List FtEntry) : Prop :=
  (ft.map (·.sym)).Pairwise (· < ·) ∧ (∀ e ∈ ft, isScalar e.sym.toNat = true ∧ e.cnt ≠ 0) ∧ ft.length ≤ p.nsymMax

/-- CT's invariants (R44): distinct symbols, each a symbol, value < 2^len, at most NSYM_MAX entries. -/
abbrev CtOk (p : Params) (ct : List CtEntry) : Prop :=
  (ct.map (·.sym)).Pairwise (· ≠ ·) ∧
  (∀ e ∈ ct, isScalar e.sym.toNat = true ∧ e.value.toNat < 2 ^ e.len.toNat) ∧ ct.length ≤ p.nsymMax

/-- DMEM is in canonical form and lists only bytes that exist (R60). -/
abbrev DmemOk (p : Params) (m : Memory) : Prop :=
  Memory.wf m ∧ ∀ c ∈ m, c.1 < p.memBytes

/-- The children of a node (R41). -/
def Node.children : Node → List Nat
  | .leaf _ _ => []
  | .internal l r _ => [l, r]

/-- Node i, if it is internal, has children of lower index and the exact sum of their frequencies (R41, R42). -/
abbrev nodeOk (nodes : List Node) (i : Nat) : Prop :=
  match nodes[i]? with
  | some (.internal l r f) =>
    l < i ∧ r < i ∧ f.toNat = (nodeFreq nodes l).toNat + (nodeFreq nodes r).toNat
  | _ => True

/-- The tree of FT (R41, R42): N leaves in FT order, then N - 1 internal nodes, each node but the root the child of
exactly one of them, and the root last. -/
abbrev TreeOk (ft : List FtEntry) (nodes : List Node) (root : Nat) : Prop :=
  0 < ft.length ∧ nodes.length = 2 * ft.length - 1 ∧ root = 2 * ft.length - 2 ∧
  nodes.take ft.length = leavesOf ft ∧
  (∀ n ∈ nodes.drop ft.length, n.children ≠ []) ∧
  (∀ i < nodes.length, nodeOk nodes i) ∧
  (nodes.flatMap Node.children).Perm (List.range (nodes.length - 1))

/-- The tree registers (R37, R42): a valid tree is the tree of FT, and no tree is left while TREE_VALID is 0. -/
abbrev treeRegsOk (s : State) : Prop :=
  if s.treeValid then TreeOk s.ft s.nodes s.root else s.nodes = [] ∧ s.root = 0

/-- The tables' invariants, and the range of the parameters they are stated over (R10, R40 to R44). -/
abbrev TablesOk (s : State) : Prop :=
  s.params.ok = true ∧ FtOk s.params s.ft ∧ CtOk s.params s.ct ∧ treeRegsOk s

/-- The command registers (R26, R46, R54, R90, R191): a running command has DONE, ERRCODE, ERR_INFO and the results at 0
and its opcode latched; an idle block has nothing latched; ERR_INFO is 0 without an error; the two container codes are
never recorded (R197). -/
abbrev CommandRegsOk (s : State) : Prop :=
  (s.busy = true → s.done = false ∧ s.errcode = .none ∧ s.result0 = 0 ∧ s.result1 = 0 ∧ s.result2 = 0 ∧
    s.result3 = 0 ∧ s.a.op = s.cmd.extractLsb' 0 8) ∧
  (s.busy = false → s.a = Latched.absent) ∧
  (s.errcode = .none → s.errInfo = 0) ∧
  s.errcode ≠ .truncatedText ∧ s.errcode ≠ .unknownFormatVersion

/-! ## Texts and codes -/

/-- A text in memory: its symbols' UTF-8 bytes (R72). -/
def textBytes (text : List Sym) : List Byte :=
  text.flatMap utf8Encode

/-- Every element is a symbol (glossary). -/
abbrev allScalar (text : List Sym) : Prop :=
  ∀ x ∈ text, isScalar x.toNat = true

/-- CT holds every symbol of the text. -/
abbrev covers (ct : List CtEntry) (text : List Sym) : Prop :=
  ∀ x ∈ text, x ∈ ct.map (·.sym)

/-- The code bits of a text (R98): the concatenation of its symbols' codes. -/
def textCode (ct : List CtEntry) (text : List Sym) : List Bool :=
  text.flatMap fun x => match ctLookup ct x with | some e => codeBits e | none => []

/-- The bits of a serialized table (R97, R140). -/
def tableBits (ct : List CtEntry) : List Bool :=
  ct.flatMap entryBits

/-- "No code is a bit-prefix of a longer code" (glossary), nor of an equal one. -/
abbrev PrefixFree (ct : List CtEntry) : Prop :=
  ct.Pairwise fun e f => ¬ codeBits e <+: codeBits f ∧ ¬ codeBits f <+: codeBits e

/-- Entries of CT that TEXT_DECODE reads as whole codes (R171): each code has at least one bit, since "the decoder tests a
code only after consuming at least one bit" (R154), and no shorter such code of CT is a prefix of it, since the decoder
"always takes the shortest matching code" (R170). -/
abbrev shortestMatches (ct es : List CtEntry) : Prop :=
  ∀ e ∈ es, e ∈ ct ∧ 1 ≤ e.len.toNat ∧
    ∀ f ∈ ct, 1 ≤ f.len.toNat → f.len.toNat < e.len.toNat → ¬ codeBits f <+: codeBits e

/-- Bytes that n bits fill, the last one padded (R142). -/
def bytesFor (n : Nat) : Nat :=
  (n + 7) / 8

/-- A mapping insert (R153): the later entry of a symbol replaces the earlier one in place. -/
def mapPut (t : List CtEntry) (e : CtEntry) : List CtEntry :=
  if e.sym ∈ t.map (·.sym) then t.map fun x => if x.sym = e.sym then e else x else t ++ [e]

/-! ## Paths in the tree -/

/-- The node a bit path leads to from node i: 0 to the left, 1 to the right (R123, R130). -/
def follow (nodes : List Node) : Nat → List Bool → Option Nat
  | i, [] => some i
  | i, b :: bs =>
    match nodes[i]? with
    | some (.internal l r _) => follow nodes (if b then r else l) bs
    | _ => none

/-- No path from the root to one of the n leaves is longer than the length field holds (R132). -/
def pathsFit (nodes : List Node) (root n : Nat) : Prop :=
  ∀ bits i, follow nodes root bits = some i → i < n → bits.length ≤ Config.maxCodeLen

/-- Node i comes before node j in the order of R122: by frequency, then by index. -/
abbrev before (nodes : List Node) (i j : Nat) : Prop :=
  (nodeFreq nodes i).toNat < (nodeFreq nodes j).toNat ∨
  ((nodeFreq nodes i).toNat = (nodeFreq nodes j).toNat ∧ i < j)

/-- Node j is in the working set when node k is made: an earlier node that no node before k took (R43, R122). -/
abbrev unmerged (nodes : List Node) (k j : Nat) : Prop :=
  j < k ∧ j ∉ (nodes.take k).flatMap Node.children

/-! ## Frames -/

/-- Every byte of DMEM outside the n bytes from `base` reads as before. -/
def sameOutside (m m' : Memory) (base n : Nat) : Prop :=
  ∀ addr, addr < base ∨ base + n ≤ addr → Memory.read m' addr = Memory.read m addr

/-- The frame of an error in TEXT_ENCODE's loop (R160): `out` bytes written, holding the first bits of `bits`, RESULT0 to
RESULT3 and ERR_INFO as given, everything else as before but for the completion. -/
def encodeStops (s : State) (e : ErrCode) (out nsym pos : Nat) (bits : List Bool) : Prop :=
  ∃ m, exec .textEncode s = .next { s with
      dmem := m, result0 := BitVec.ofNat 32 out, result1 := BitVec.ofNat 32 nsym, result2 := 0,
      result3 := BitVec.ofNat 32 pos, errcode := e, errInfo := BitVec.ofNat 32 pos,
      busy := false, done := true, a := Latched.absent } ∧
    Memory.bits m s.a.dst (8 * out) = bits.take (8 * out) ∧ sameOutside s.dmem m s.a.dst out

/-- The frame of FREQ_COUNT's errors (R111). -/
def freqCountStops (s : State) (e : ErrCode) (nsym pos : Nat) : Prop :=
  exec .freqCount s = .next { s with
    ft := [], treeValid := false, nodes := [], root := 0, result0 := 0, result1 := BitVec.ofNat 32 nsym,
    result3 := BitVec.ofNat 32 pos, errcode := e, errInfo := BitVec.ofNat 32 pos,
    busy := false, done := true, a := Latched.absent }

/-- The frame of TABLE_DESER's errors (R150). -/
def deserStops (s : State) (e : ErrCode) (nread start : Nat) : Prop :=
  exec .tableDeser s = .next { s with
    ct := [], result0 := 0, result1 := BitVec.ofNat 32 nread, result2 := 0, errcode := e,
    errInfo := BitVec.ofNat 32 start, busy := false, done := true, a := Latched.absent }

end Sys2Proof.Machine
end

