-- ==== Sys2Proof/Certificates/Slice0/Obligations.lean ====
section
/-! DEFINITION. The statements for the provers, each about every state of the model (and so, through `State.params`, every implementation).
Two choices of the model stand in most of them: a command completes in one step of the engine (log entry 4), and its completion clears the latched operands, `a := Latched.absent` (log entry 11). -/

open Sys2Proof Sys2Proof.Machine

/-! ## Encoding (30_encoding.md) -/

/-- R93, R91: the encoder and the decoder agree in both directions, and the legal CMD words are exactly those of R94. -/
def Obligations.DecodeEncodeAgree : Prop :=
  (∀ i : Instr, i.wf = true → decode (encode i).1 (encode i).2 = .ok i) ∧
  (∀ (w : Word) (i : Instr), decode .cmd w = .ok i → encode i = (.cmd, w)) ∧
  (∀ (w : Word) (i : Instr), decode .ctrl w = .ok i ↔ (i = .softReset ∧ w.getLsbD 0 = true)) ∧
  (∀ w : Word, (∃ i, decode .cmd w = .ok i) ↔ (w.extractLsb' 8 24 = 0 ∧ (w.extractLsb' 0 8).toNat ≤ 0x0A))

/-- R93: words of the opcode map written out from the spec, and words R94 calls illegal. -/
def Obligations.SpecWordsDecode : Prop :=
  decode .cmd 0x00000000#32 = .ok .nop ∧ decode .cmd 0x00000002#32 = .ok .freqCount ∧
  decode .cmd 0x00000004#32 = .ok .treeBuild ∧ decode .cmd 0x00000005#32 = .ok .codeGen ∧
  decode .cmd 0x00000008#32 = .ok .tableDeser ∧ decode .cmd 0x0000000A#32 = .ok .textDecode ∧
  decode .ctrl 0x00000003#32 = .ok .softReset ∧
  decode .cmd 0x0000000B#32 = .error .noSuchOpcode ∧ decode .cmd 0x00000102#32 = .error .reservedNonzero

/-! ## Command start and the two agents' steps (R90, R92, R94, R195) -/

/-- R90, R92, R25: an idle block accepts a CMD write in one step; a busy one drops it and sets OVR (R182).
Who moves while a command runs is the model's schedule (log entry 5). -/
def Obligations.CmdWriteStartsOrIsDropped : Prop :=
  ∀ (s : State) (w : Word) (ops : List HostOp),
    s.host = .csrw 0x10 w :: ops →
    (s.busy = false →
      step s = .next { s with
        host := ops, cmd := w, busy := true, done := false, errcode := .none, errInfo := 0,
        result0 := 0, result1 := 0, result2 := 0, result3 := 0,
        a := { op := w.extractLsb' 0 8, srcAddr := s.srcAddr, srcLen := s.srcLen, dstAddr := s.dstAddr,
               dstCap := s.dstCap, arg0 := s.arg0, arg1 := s.arg1 } }) ∧
    (∀ q, s.busy = true → s.sched = .host :: q →
      step s = .next { s with host := ops, sched := q, ovr := true })

/-- R94: when it is the engine's turn and the accepted word is an instruction's, the step is `exec` of that instruction;
R24, R181: a host write of SRST = 1 to CTRL is `exec` of the soft reset, whether or not a command runs.
Who moves is the model's schedule (log entry 5); the word decoded is CMD's RSVD over the latched OP (log entry 16). -/
def Obligations.StepRunsDecodedInstruction : Prop :=
  (∀ (s : State) (i : Instr), s.busy = true → decode .cmd s.fetchWord = .ok i →
    (s.sched = [] → step s = exec i s) ∧
    (∀ q, s.sched = .engine :: q → step s = exec i { s with sched := q }) ∧
    (∀ q, s.sched = .host :: q → s.host = [] → step s = exec i { s with sched := q })) ∧
  (∀ (s : State) (v : Word) (ops : List HostOp), s.host = .csrw 0x0C v :: ops → v.getLsbD 0 = true →
    (s.busy = false → step s = exec .softReset { s with host := ops }) ∧
    (∀ q, s.busy = true → s.sched = .host :: q →
      step s = exec .softReset { s with host := ops, sched := q }))

/-- R90, R92, R94: command start with any word, legal or not, makes that word the one the engine decodes, RSVD included, and
so it stays while CMD and the latched OP hold it. The word placed where the next step takes its instruction from is the word
that step runs. Where that is, is the model's choice (log entries 6 and 7), and so is decoding CMD's RSVD over the latched
OP (log entry 16). -/
def Obligations.PlacedWordRunsNext : Prop :=
  (∀ (s : State) (w : Word), (s.start w).fetchWord = w) ∧
  (∀ (s : State) (w : Word), s.cmd = w → s.a.op = w.extractLsb' 0 8 → s.fetchWord = w) ∧
  (∀ (s : State) (i : Instr), (encode i).1 = .cmd →
    step (s.withFetchWord 32 (encode i).2.toNat) = exec i (s.start (encode i).2)) ∧
  (∀ s : State, step (s.withFetchWord 8 1) = exec .softReset s)

/-- R94: a running command whose accepted word w lies outside the opcode map completes with BAD_COMMAND(w) at the engine's
turn, and changes no table and no byte. The accepted word is the one CMD holds and whose OP is latched, as command start
leaves it (R90, R92); that the engine decodes CMD's RSVD over the latched OP is log entry 16, whose turn it is log entry 5. -/
def Obligations.IllegalWordCompletesBadCommand : Prop :=
  ∀ (s : State) (w : Word), s.busy = true → s.cmd = w → s.a.op = w.extractLsb' 0 8 →
    (w.extractLsb' 8 24 ≠ 0 ∨ 0x0B ≤ (w.extractLsb' 0 8).toNat) →
    let bad := fun t : State => { t with
      errcode := .badCommand, errInfo := w, busy := false, done := true, a := Latched.absent }
    (s.sched = [] → step s = .next (bad s)) ∧
    (∀ q, s.sched = .engine :: q → step s = .next (bad { s with sched := q })) ∧
    (∀ q, s.sched = .host :: q → s.host = [] → step s = .next (bad { s with sched := q }))

/-- R92: the running command reads only the latched copies: the argument registers, IDX, IRQ_EN and OVR do not reach
what it does, and it does not write them. -/
def Obligations.CommandReadsOnlyLatchedOperands : Prop :=
  ∀ (i : Instr) (s : State) (sa sl da dc a0 a1 ix : Word) (en ov : Bool), i ≠ .softReset →
    ∃ t, exec i s = .next t ∧
      exec i { s with srcAddr := sa, srcLen := sl, dstAddr := da, dstCap := dc, arg0 := a0, arg1 := a1, idx := ix,
                      irqEn := en, ovr := ov } =
        .next { t with srcAddr := sa, srcLen := sl, dstAddr := da, dstCap := dc, arg0 := a0, arg1 := a1, idx := ix,
                       irqEn := en, ovr := ov }

/-! ## Reset and soft reset (R181, R220, R221) -/

/-- R220, R222: after power-on with any parameters and any DMEM contents every CSR but the three constants reads 0, the
tables are empty, the block is idle and the interrupt is low. -/
def Obligations.PowerOnResetValues : Prop :=
  ∀ (p : Params) (m : Memory),
    (State.powerOn p m).csrValue .id = 0x48554601#32 ∧
    (State.powerOn p m).csrValue .capNsym = BitVec.ofNat 32 p.nsymMax ∧
    (State.powerOn p m).csrValue .capMem = BitVec.ofNat 32 p.memBytes ∧
    (∀ c : Csr, c ≠ .id → c ≠ .capNsym → c ≠ .capMem → (State.powerOn p m).csrValue c = 0) ∧
    (State.powerOn p m).ft = [] ∧ (State.powerOn p m).nodes = [] ∧ (State.powerOn p m).ct = [] ∧
    (State.powerOn p m).busy = false ∧ (State.powerOn p m).irq = false ∧ (State.powerOn p m).dmem = m

/-- R181, R221: the soft reset completes in every state, gives every field R220's value, and changes no byte of DMEM
outside the abandoned command's active destination range; none at all when no command runs. The host's side, which is the model's own, stays (log entry 5);
the active destination range is as log entry 9 says. -/
def Obligations.SoftResetRestoresResetState : Prop :=
  ∀ s : State, ∃ (m : Memory) (n : Nat),
    exec .softReset s = .next { State.powerOn s.params m with
      host := s.host, sched := s.sched, rdata := s.rdata, draws := n } ∧
    (∀ addr, s.activeDst addr = false → Memory.read m addr = Memory.read s.dmem addr) ∧
    (s.busy = false → m = s.dmem)

/-! ## Host accesses to the CSRs (10_state.md, 20_memory.md) -/

/-- R24, R26: a CTRL write with SRST = 0 stores IRQ_EN, a STATUS write clears DONE by bit 1 and OVR by bit 3, and each
changes nothing else; CTRL reads IRQ_EN in bit 1 and 0 elsewhere. R196: in every state the interrupt output is DONE and
IRQ_EN, so a STATUS write with bit 1 set drops it (R184), a CTRL write that clears IRQ_EN masks it and keeps DONE, and
command start drops it. -/
def Obligations.CtrlAndStatusWrites : Prop :=
  ∀ (s : State) (v : Word),
    (v.getLsbD 0 = false → hostStep (.csrw 0x0C v) s = .next { s with irqEn := v.getLsbD 1 }) ∧
    hostStep (.csrw 0x14 v) s = .next { s with done := s.done && !v.getLsbD 1, ovr := s.ovr && !v.getLsbD 3 } ∧
    (∀ k < 32, (s.csrValue .ctrl).getLsbD k = (decide (k = 1) && s.irqEn)) ∧
    (s.irq = true ↔ s.done = true ∧ s.irqEn = true) ∧
    (v.getLsbD 1 = true → ∃ t, hostStep (.csrw 0x14 v) s = .next t ∧ t.done = false ∧ t.irq = false) ∧
    (v.getLsbD 0 = false → v.getLsbD 1 = false →
      ∃ t, hostStep (.csrw 0x0C v) s = .next t ∧ t.done = s.done ∧ t.irq = false) ∧
    (s.start v).irq = false

/-- R26, R191: the fields of STATUS as an idle block's read shows them, and the code of each error kind. -/
def Obligations.StatusFieldsReadAsLaidOut : Prop :=
  (∀ s : State,
    (s.csrValue .status).getLsbD 0 = s.busy ∧ (s.csrValue .status).getLsbD 1 = s.done ∧
    (s.csrValue .status).getLsbD 2 = decide (s.errcode.code ≠ 0) ∧ (s.csrValue .status).getLsbD 3 = s.ovr ∧
    (s.csrValue .status).getLsbD 4 = s.treeValid ∧ (s.csrValue .status).extractLsb' 5 3 = 0 ∧
    (s.csrValue .status).extractLsb' 8 8 = s.errcode.code ∧ (s.csrValue .status).extractLsb' 16 16 = 0 ∧
    (s.errcode.code = 0 ↔ s.errcode = .none) ∧ s.errcode.code.toNat ≤ 0x0E) ∧
  ErrCode.none.code = 0x00#8 ∧ ErrCode.emptyAlphabet.code = 0x01#8 ∧ ErrCode.malformedTree.code = 0x02#8 ∧
  ErrCode.truncatedTable.code = 0x03#8 ∧ ErrCode.truncatedText.code = 0x04#8 ∧
  ErrCode.unrecognizedCode.code = 0x05#8 ∧ ErrCode.unknownFormatVersion.code = 0x06#8 ∧
  ErrCode.invalidSymbol.code = 0x07#8 ∧ ErrCode.duplicateCode.code = 0x08#8 ∧ ErrCode.capacity.code = 0x09#8 ∧
  ErrCode.range.code = 0x0A#8 ∧ ErrCode.badCommand.code = 0x0B#8 ∧ ErrCode.badArg.code = 0x0C#8 ∧
  ErrCode.missingSymbol.code = 0x0D#8 ∧ ErrCode.codeTooLong.code = 0x0E#8

/-- R28 to R33, R39: each argument register and IDX stores all 32 bits of a host write and returns them, while a command
runs as well, and the write changes nothing else. -/
def Obligations.ArgumentRegistersHoldTheWrite : Prop :=
  ∀ (s : State) (v : Word),
    hostStep (.csrw 0x20 v) s = .next { s with srcAddr := v } ∧ hostStep (.csrw 0x24 v) s = .next { s with srcLen := v } ∧
    hostStep (.csrw 0x28 v) s = .next { s with dstAddr := v } ∧ hostStep (.csrw 0x2C v) s = .next { s with dstCap := v } ∧
    hostStep (.csrw 0x30 v) s = .next { s with arg0 := v } ∧ hostStep (.csrw 0x34 v) s = .next { s with arg1 := v } ∧
    hostStep (.csrw 0x70 v) s = .next { s with idx := v } ∧
    hostStep (.csrr 0x20) s = .next (s.returnRead s.srcAddr) ∧ hostStep (.csrr 0x24) s = .next (s.returnRead s.srcLen) ∧
    hostStep (.csrr 0x28) s = .next (s.returnRead s.dstAddr) ∧ hostStep (.csrr 0x2C) s = .next (s.returnRead s.dstCap) ∧
    hostStep (.csrr 0x30) s = .next (s.returnRead s.arg0) ∧ hostStep (.csrr 0x34) s = .next (s.returnRead s.arg1) ∧
    hostStep (.csrr 0x70) s = .next (s.returnRead s.idx)

/-- R49: a reserved offset reads 0, and a write to it or to a read-only register changes nothing. The offsets are those
the rule lists, and those of the read-only rows of R20. -/
def Obligations.ReservedAndReadOnlyIgnoreWrites : Prop :=
  (∀ (s : State) (v : Word) (off : BitVec 8), off.toNat % 4 = 0 →
    (off.toNat = 0x1C ∨ off.toNat = 0x38 ∨ off.toNat = 0x3C ∨ (0x64 ≤ off.toNat ∧ off.toNat ≤ 0x6C) ∨
      off.toNat = 0x98 ∨ off.toNat = 0x9C ∨ 0xC0 ≤ off.toNat) →
    hostStep (.csrr off) s = .next (s.returnRead 0) ∧ hostStep (.csrw off v) s = .next s) ∧
  (∀ (s : State) (v : Word) (off : BitVec 8), off.toNat % 4 = 0 →
    (off.toNat ≤ 0x08 ∨ off.toNat = 0x18 ∨ (0x40 ≤ off.toNat ∧ off.toNat ≤ 0x60) ∨
      (0x74 ≤ off.toNat ∧ off.toNat ≤ 0x94) ∨ (0xA0 ≤ off.toNat ∧ off.toNat ≤ 0xBC)) →
    hostStep (.csrw off v) s = .next s)

/-- R64: a CSR read at an aligned offset changes nothing of the block: it returns one value to the host. While a command
runs it may draw a free value; while none runs it draws none, and at each offset of R20 it returns the register that the
map names (R21 to R38): the window offsets return the windows, whose values are those of WindowsShowSelectedEntry.
The values returned and the count of draws are the model's own fields (log entries 3 and 8). A count goes into its register
cut to 32 bits (log entry 17). -/
def Obligations.CsrReadHasNoSideEffect : Prop :=
  (∀ (s : State) (off : BitVec 8), off.toNat % 4 = 0 →
    ∃ (v : Word) (n : Nat), hostStep (.csrr off) s = .next { s with rdata := v :: s.rdata, draws := n } ∧
      (s.busy = false → n = s.draws ∧ ∀ c, csrAt off = some c → v = s.csrValue c)) ∧
  (∀ s : State, s.busy = false →
    let reads := fun (off : BitVec 8) (v : Word) => hostStep (.csrr off) s = .next (s.returnRead v)
    reads 0x00 0x48554601#32 ∧ reads 0x04 (BitVec.ofNat 32 s.params.nsymMax) ∧
    reads 0x08 (BitVec.ofNat 32 s.params.memBytes) ∧ reads 0x0C (s.csrValue .ctrl) ∧ reads 0x10 s.cmd ∧
    reads 0x14 (s.csrValue .status) ∧ reads 0x18 s.errInfo ∧
    reads 0x40 s.result0 ∧ reads 0x44 s.result1 ∧ reads 0x48 s.result2 ∧ reads 0x4C s.result3 ∧
    reads 0x50 (BitVec.ofNat 32 s.ft.length) ∧ reads 0x54 (BitVec.ofNat 32 s.ct.length) ∧
    (s.treeValid = true → reads 0x58 (BitVec.ofNat 32 s.nodes.length) ∧ reads 0x5C (BitVec.ofNat 32 s.root)) ∧
    (s.treeValid = false → reads 0x58 0 ∧ reads 0x5C 0) ∧
    (∃ v, reads 0x60 v ∧ (∀ e ∈ s.ct, e.len.toNat ≤ v.toNat) ∧ (s.ct = [] → v = 0) ∧
      (s.ct ≠ [] → ∃ e ∈ s.ct, e.len.toNat = v.toNat)) ∧
    reads 0x74 (s.csrValue .ftSymW) ∧ reads 0x78 (s.csrValue .ftCntW) ∧
    reads 0x7C (s.csrValue .ctSymW) ∧ reads 0x80 (s.csrValue .ctLenW) ∧
    reads 0x84 (s.csrValue .nodeKindW) ∧ reads 0x88 (s.csrValue .nodeAW) ∧ reads 0x8C (s.csrValue .nodeBW) ∧
    reads 0x90 (s.csrValue .nodeFreqLoW) ∧ reads 0x94 (s.csrValue .nodeFreqHiW) ∧
    ∀ j : Fin 8, reads (BitVec.ofNat 8 (0xA0 + 4 * j.val)) (s.csrValue (.ctValW j)))

/-- R50: while a command runs, the listed registers and STATUS's BUSY, DONE and OVR read exactly. STATUS's reserved bits
read 0 then too (R26, R49), since of STATUS the model takes only ERR, ERRCODE and TREE_VALID from the free value (log entry
12, DEDUCED). The values returned and the count of draws are the model's own fields (log entries 3 and 8). -/
def Obligations.ExactReadsWhileBusy : Prop :=
  ∀ s : State, s.busy = true →
    (∀ c ∈ [Csr.id, .capNsym, .capMem, .ctrl, .cmd, .srcAddr, .srcLen, .dstAddr, .dstCap, .arg0, .arg1, .idx],
      hostStep (.csrr (csrOffset c)) s = .next (s.returnRead (s.csrValue c))) ∧
    ∃ (v : Word) (n : Nat), hostStep (.csrr 0x14) s = .next { s with rdata := v :: s.rdata, draws := n } ∧
      v.getLsbD 0 = true ∧ v.getLsbD 1 = s.done ∧ v.getLsbD 3 = s.ovr ∧ v.extractLsb' 5 3 = 0 ∧ v.extractLsb' 16 16 = 0

/-- R64, R63: a CSR access that is no aligned 32-bit word is the fault HOST_BAD_ACCESS; a DMEM access wider than a byte
is not admitted: its refusal is the model's form of that (log entry 10). -/
def Obligations.BadHostAccessStops : Prop :=
  ∀ (s : State) (off : BitVec 8) (v addr : Word) (n : Nat),
    (off.toNat % 4 ≠ 0 → hostStep (.csrw off v) s = .fault .hostBadAccess) ∧
    (off.toNat % 4 ≠ 0 → hostStep (.csrr off) s = .fault .hostBadAccess) ∧
    hostStep (.csrNarrow off n) s = .fault .hostBadAccess ∧
    hostStep (.dmemWide addr n) s = .refused .wideDmemAccess

/-- R39, R47, R48: the window registers show the entries IDX selects, and 0 past the end of a table. -/
def Obligations.WindowsShowSelectedEntry : Prop :=
  ∀ s : State,
    (∀ e, s.ft[s.idx.toNat]? = some e →
      s.csrValue .ftSymW = e.sym.setWidth 32 ∧ s.csrValue .ftCntW = e.cnt) ∧
    (s.ft.length ≤ s.idx.toNat → s.csrValue .ftSymW = 0 ∧ s.csrValue .ftCntW = 0) ∧
    (∀ e, s.ct[s.idx.toNat]? = some e →
      s.csrValue .ctSymW = e.sym.setWidth 32 ∧ s.csrValue .ctLenW = e.len.setWidth 32 ∧
      (∀ (j : Fin 8) (k : Nat), k < 32 →
        (s.csrValue (.ctValW j)).getLsbD k = e.value.getLsbD (32 * j.val + k)) ∧
      (s.csrValue (.ctValW 7)).getLsbD 31 = false) ∧
    (s.ct.length ≤ s.idx.toNat →
      s.csrValue .ctSymW = 0 ∧ s.csrValue .ctLenW = 0 ∧ ∀ j, s.csrValue (.ctValW j) = 0) ∧
    (∀ x f, s.treeValid = true → s.nodes[s.idx.toNat]? = some (.leaf x f) →
      s.csrValue .nodeKindW = 1 ∧ s.csrValue .nodeAW = x.setWidth 32 ∧ s.csrValue .nodeBW = 0 ∧
      s.csrValue .nodeFreqHiW ++ s.csrValue .nodeFreqLoW = f) ∧
    (∀ l r f, s.treeValid = true → s.nodes[s.idx.toNat]? = some (.internal l r f) →
      s.csrValue .nodeKindW = 2 ∧ s.csrValue .nodeAW = BitVec.ofNat 32 l ∧ s.csrValue .nodeBW = BitVec.ofNat 32 r ∧
      s.csrValue .nodeFreqHiW ++ s.csrValue .nodeFreqLoW = f) ∧
    ((s.treeValid = false ∨ s.nodes.length ≤ s.idx.toNat) →
      s.csrValue .nodeKindW = 0 ∧ s.csrValue .nodeAW = 0 ∧ s.csrValue .nodeBW = 0 ∧
      s.csrValue .nodeFreqLoW = 0 ∧ s.csrValue .nodeFreqHiW = 0)

/-! ## Host accesses to DMEM (R70, R76) -/

/-- R70: an access at or above MEM_BYTES is HOST_BAD_ACCESS. While no command runs, a byte write changes that byte and no
other, and a byte read returns the byte and changes nothing else. -/
def Obligations.HostByteAccessIsExact : Prop :=
  ∀ (s : State) (addr : Word) (b : Byte),
    (s.params.memBytes ≤ addr.toNat →
      hostStep (.sb addr b) s = .fault .hostBadAccess ∧ hostStep (.lb addr) s = .fault .hostBadAccess) ∧
    (addr.toNat < s.params.memBytes → s.busy = false →
      (∃ m, hostStep (.sb addr b) s = .next { s with dmem := m } ∧ Memory.read m addr.toNat = b ∧
        ∀ k, k ≠ addr.toNat → Memory.read m k = Memory.read s.dmem k) ∧
      hostStep (.lb addr) s = .next (s.returnRead ((Memory.read s.dmem addr.toNat).setWidth 32)))

/-- R76: while a command runs, a host write into its active source or destination range is HOST_RACE; every other write
is exact; a read outside the active destination range is exact; a read inside it changes nothing of the block. Of a byte in
both ranges, for which R76 gives two answers, the value read is left open here as the model leaves it (log entry 20). -/
def Obligations.HostAccessToActiveRanges : Prop :=
  ∀ (s : State) (i : Instr) (addr : Word) (b : Byte), s.busy = true → decode .cmd s.fetchWord = .ok i →
    addr.toNat < s.params.memBytes →
    let inSrc := usesSrc i = true ∧ s.a.srcAddr.toNat ≤ addr.toNat ∧ addr.toNat < s.a.srcAddr.toNat + s.a.srcLen.toNat
    let inDst := usesDst i = true ∧ s.a.dstAddr.toNat ≤ addr.toNat ∧ addr.toNat < s.a.dstAddr.toNat + s.a.dstCap.toNat
    ((inSrc ∨ inDst) → hostStep (.sb addr b) s = .fault .hostRace) ∧
    (¬ inSrc → ¬ inDst → ∃ m, hostStep (.sb addr b) s = .next { s with dmem := m } ∧ Memory.read m addr.toNat = b ∧
      ∀ k, k ≠ addr.toNat → Memory.read m k = Memory.read s.dmem k) ∧
    (¬ inDst → hostStep (.lb addr) s = .next (s.returnRead ((Memory.read s.dmem addr.toNat).setWidth 32))) ∧
    (inDst → ∃ v n, hostStep (.lb addr) s = .next { s with rdata := v :: s.rdata, draws := n })

/-! ## What every command does (R54, R66, R190, R192 to R197, R230) -/

/-- R190, R192, R193, R230: every command completes, in every state: the block is idle with DONE set, and the interrupt
output is IRQ_EN (R196). -/
def Obligations.EveryCommandCompletes : Prop :=
  ∀ (i : Instr) (s : State), i ≠ .softReset →
    ∃ t, exec i s = .next t ∧ t.busy = false ∧ t.done = true ∧ t.irqEn = s.irqEn ∧ t.irq = s.irqEn ∧
      t.a = Latched.absent

/-- The frame of the eleven commands (R26, R34, R51, R54, R66, R194): no command writes a host-writable register, CMD or
OVR, or anything of the host's; DMEM changes only inside the destination range of a command that uses one; FT, the tree
and CT change only in the commands that own them. -/
def Obligations.CommandFrame : Prop :=
  ∀ (i : Instr) (s t : State), i ≠ .softReset → exec i s = .next t →
    (t.params = s.params ∧ t.irqEn = s.irqEn ∧ t.cmd = s.cmd ∧ t.ovr = s.ovr ∧ t.srcAddr = s.srcAddr ∧
      t.srcLen = s.srcLen ∧ t.dstAddr = s.dstAddr ∧ t.dstCap = s.dstCap ∧ t.arg0 = s.arg0 ∧ t.arg1 = s.arg1 ∧
      t.idx = s.idx ∧ t.host = s.host ∧ t.sched = s.sched ∧ t.rdata = s.rdata ∧ t.draws = s.draws) ∧
    (∀ addr, (usesDst i = false ∨ addr < s.a.dstAddr.toNat ∨ s.a.dstAddr.toNat + s.a.dstCap.toNat ≤ addr) →
      Memory.read t.dmem addr = Memory.read s.dmem addr) ∧
    (i ∉ [.ftClear, .freqCount, .ftInsert] → t.ft = s.ft) ∧
    (i ∉ [.codeGen, .ctClear, .tableDeser] → t.ct = s.ct) ∧
    (i ∉ [.ftClear, .freqCount, .ftInsert, .treeBuild, .codeGen] →
      t.treeValid = s.treeValid ∧ t.nodes = s.nodes ∧ t.root = s.root)

/-- R66: the engine never reads DMEM outside the source region: two states whose DMEM agrees there give the same
registers and tables, and every byte of the two results is either written alike or as it was. -/
def Obligations.EngineReadsOnlySourceRegion : Prop :=
  ∀ (i : Instr) (s : State) (m : Memory), i ≠ .softReset →
    (usesSrc i = true → ∀ addr, s.a.srcAddr.toNat ≤ addr → addr < s.a.srcAddr.toNat + s.a.srcLen.toNat →
      Memory.read m addr = Memory.read s.dmem addr) →
    ∃ t t', exec i s = .next t ∧ exec i { s with dmem := m } = .next t' ∧ { t' with dmem := t.dmem } = t ∧
      ∀ addr, Memory.read t'.dmem addr = Memory.read t.dmem addr ∨
        (Memory.read t.dmem addr = Memory.read s.dmem addr ∧ Memory.read t'.dmem addr = Memory.read m addr)

/-- R66, R67, R195: the region checks, in their order, before anything else: RANGE(0), RANGE(1), BAD_ARG(1). Each leaves
DMEM as it was, and a command that writes DMEM leaves everything else as it was too, RESULT0 to RESULT3 among it (R140,
R160, R171, R34). -/
def Obligations.RegionChecksComeFirst : Prop :=
  ∀ (i : Instr) (s : State), i ≠ .softReset →
    let badSrc := usesSrc i = true ∧ s.params.memBytes < s.a.srcAddr.toNat + s.a.srcLen.toNat
    let badDst := usesDst i = true ∧ s.params.memBytes < s.a.dstAddr.toNat + s.a.dstCap.toNat
    let bothOverlap := usesSrc i = true ∧ usesDst i = true ∧ 0 < s.a.srcLen.toNat ∧ 0 < s.a.dstCap.toNat ∧
      s.a.srcAddr.toNat < s.a.dstAddr.toNat + s.a.dstCap.toNat ∧
      s.a.dstAddr.toNat < s.a.srcAddr.toNat + s.a.srcLen.toNat
    let stops := fun (e : ErrCode) (info : Word) =>
      ∃ t, exec i s = .next t ∧ t.errcode = e ∧ t.errInfo = info ∧ t.dmem = s.dmem ∧
        (usesDst i = true → t = { s with
          errcode := e, errInfo := info, busy := false, done := true, a := Latched.absent })
    (badSrc → stops .range 0) ∧ (¬ badSrc → badDst → stops .range 1) ∧
    (¬ badSrc → ¬ badDst → bothOverlap → stops .badArg 1)

/-- R54, R26: who writes the flags. One step sets OVR only where a CMD write was dropped, sets TREE_VALID only where
TREE_BUILD ran, and changes IRQ_EN only where the host wrote CTRL. -/
def Obligations.FlagWriters : Prop :=
  ∀ s s' : State, step s = .next s' →
    (s.ovr = false → s'.ovr = true → s.busy = true ∧ ∃ w ops, s.host = .csrw 0x10 w :: ops) ∧
    (s.treeValid = false → s'.treeValid = true → s.running = some .treeBuild) ∧
    (s'.irqEn ≠ s.irqEn → ∃ v ops, s.host = .csrw 0x0C v :: ops) ∧
    (s.done = false → s'.done = true → s.busy = true ∧ s'.busy = false)

/-! ## Invariants every step keeps -/

/-- Every step keeps DMEM canonical and inside 0 to MEM_BYTES - 1 (R60, R66, R70). The canonical form is the model's (log
entry 2). -/
def Obligations.StepKeepsDmemCanonical : Prop :=
  ∀ s s' : State, DmemOk s.params s.dmem → step s = .next s' → s'.params = s.params ∧ DmemOk s'.params s'.dmem

/-- Every step keeps the invariants of FT, NODES and CT (R40, R41, R42, R44, R37). -/
def Obligations.StepKeepsTables : Prop :=
  ∀ s s' : State, TablesOk s → step s = .next s' → TablesOk s'

/-- Every step keeps the command registers consistent, and never records a container code (R26, R46, R90, R191, R197).
That an idle block's latch is cleared is the model's choice (log entry 11). -/
def Obligations.StepKeepsCommandRegisters : Prop :=
  ∀ s s' : State, CommandRegsOk s → step s = .next s' → CommandRegsOk s'

/-- The three invariants hold after power-on reset with any admissible parameters and any canonical DMEM contents. -/
def Obligations.PowerOnMeetsInvariants : Prop :=
  ∀ (p : Params) (m : Memory), p.ok = true → DmemOk p m →
    DmemOk p (State.powerOn p m).dmem ∧ TablesOk (State.powerOn p m) ∧ CommandRegsOk (State.powerOn p m)

/-! ## NOP, FT_CLEAR, CT_CLEAR -/

/-- R180: NOP only completes; from command start it leaves ERRCODE, ERR_INFO and the results 0. -/
def Obligations.NopOnlyCompletes : Prop :=
  encode .nop = (.cmd, 0x00000000#32) ∧
  (∀ s : State, exec .nop s = .next { s with busy := false, done := true, a := Latched.absent }) ∧
  (∀ s : State, exec .nop (s.start 0x00000000#32) = .next { s with
    cmd := 0, busy := false, done := true, errcode := .none, errInfo := 0,
    result0 := 0, result1 := 0, result2 := 0, result3 := 0, a := Latched.absent })

/-- R110: FT_CLEAR empties FT and drops the tree; CT and the results are untouched. -/
def Obligations.FtClearEmptiesFt : Prop :=
  encode .ftClear = (.cmd, 0x00000001#32) ∧
  ∀ s : State, exec .ftClear s = .next { s with
    ft := [], treeValid := false, nodes := [], root := 0, busy := false, done := true, a := Latched.absent }

/-- R134: CT_CLEAR empties CT, after which CT_N and MAXLEN are 0; TREE_VALID is not touched. -/
def Obligations.CtClearEmptiesCt : Prop :=
  encode .ctClear = (.cmd, 0x00000006#32) ∧
  ∀ s : State, ∃ t, exec .ctClear s = .next t ∧
    t = { s with ct := [], busy := false, done := true, a := Latched.absent } ∧
    t.csrValue .ctN = 0 ∧ t.csrValue .maxlen = 0

/-! ## FREQ_COUNT and FT_INSERT (40_frequency.md) -/

/-- R114, R111: FREQ_COUNT of a valid text with at most NSYM_MAX distinct symbols completes, and FT holds exactly one
entry for each distinct symbol, in ascending order, whose cnt is its number of occurrences. -/
def Obligations.FreqCountCountsEachSymbol : Prop :=
  ∀ (s : State) (text : List Sym), s.srcInRange = true → s.srcBytes = textBytes text → allScalar text →
    text.dedup.length ≤ s.params.nsymMax →
    ∃ ft, exec .freqCount s = .next { s with
        ft := ft, treeValid := false, nodes := [], root := 0, result0 := BitVec.ofNat 32 ft.length,
        result1 := BitVec.ofNat 32 text.length, result3 := s.a.srcLen, busy := false, done := true,
        a := Latched.absent } ∧
      (ft.map (·.sym)).Pairwise (· < ·) ∧ (∀ x, x ∈ ft.map (·.sym) ↔ x ∈ text) ∧
      ∀ e ∈ ft, e.cnt.toNat = text.count e.sym

/-- R114: the result does not depend on the order of the text's symbols, only on their multiset. -/
def Obligations.FreqCountIgnoresOrder : Prop :=
  ∀ (s s' : State) (text text' : List Sym), s.params = s'.params → s.srcInRange = true → s'.srcInRange = true →
    s.srcBytes = textBytes text → s'.srcBytes = textBytes text' → allScalar text → text.Perm text' →
    text.dedup.length ≤ s.params.nsymMax →
    ∃ t t', exec .freqCount s = .next t ∧ exec .freqCount s' = .next t' ∧ t.ft = t'.ft

/-- R111: FREQ_COUNT's errors and their effects: RANGE(0); INVALID_SYMBOL at the first bad sequence; CAPACITY at the
first symbol that would be the (NSYM_MAX + 1)-th distinct one. -/
def Obligations.FreqCountStopsAtFirstError : Prop :=
  ∀ s : State,
    (s.srcInRange = false → ∃ t, exec .freqCount s = .next t ∧ t = { s with
      ft := [], treeValid := false, nodes := [], root := 0, result0 := 0, result1 := 0, result3 := 0,
      errcode := .range, errInfo := 0, busy := false, done := true, a := Latched.absent }) ∧
    (∀ (text : List Sym) (bad : List Byte), s.srcInRange = true → s.srcBytes = textBytes text ++ bad → bad ≠ [] →
      nextSymbol bad = none → allScalar text → text.dedup.length ≤ s.params.nsymMax →
      freqCountStops s .invalidSymbol text.length (textBytes text).length) ∧
    (∀ (text : List Sym) (x : Sym) (rest : List Byte), s.srcInRange = true →
      s.srcBytes = textBytes text ++ utf8Encode x ++ rest → allScalar text → isScalar x.toNat = true → x ∉ text →
      text.dedup.length = s.params.nsymMax →
      freqCountStops s .capacity text.length (textBytes text).length)

/-- R113: FT_INSERT over a sorted FT, its checks in order: it replaces the count of a symbol FT holds, or adds the
symbol at its place in the order. -/
def Obligations.FtInsertSetsOneCount : Prop :=
  encode .ftInsert = (.cmd, 0x00000003#32) ∧
  ∀ s : State, (s.ft.map (·.sym)).Pairwise (· < ·) →
    let x : Sym := s.a.arg0.setWidth 21
    let symOk := s.a.arg0.toNat ≤ 0x10FFFF ∧ ¬ (0xD800 ≤ s.a.arg0.toNat ∧ s.a.arg0.toNat ≤ 0xDFFF)
    let stops := fun (e : ErrCode) (info : Word) => exec .ftInsert s = .next { s with
      treeValid := false, nodes := [], root := 0, errcode := e, errInfo := info, busy := false, done := true,
      a := Latched.absent }
    (¬ symOk → stops .invalidSymbol s.a.arg0) ∧
    (symOk → s.a.arg1 = 0 → stops .badArg 3) ∧
    (symOk → s.a.arg1 ≠ 0 → x ∈ s.ft.map (·.sym) → exec .ftInsert s = .next { s with
      ft := s.ft.map fun e => if e.sym = x then { e with cnt := s.a.arg1 } else e, treeValid := false, nodes := [],
      root := 0, result0 := BitVec.ofNat 32 s.ft.length, result1 := 0, busy := false, done := true,
      a := Latched.absent }) ∧
    (symOk → s.a.arg1 ≠ 0 → x ∉ s.ft.map (·.sym) → s.ft.length = s.params.nsymMax → stops .capacity s.a.arg0) ∧
    (symOk → s.a.arg1 ≠ 0 → x ∉ s.ft.map (·.sym) → s.ft.length ≠ s.params.nsymMax →
      ∃ ft, exec .ftInsert s = .next { s with
          ft := ft, treeValid := false, nodes := [], root := 0, result0 := BitVec.ofNat 32 (s.ft.length + 1),
          result1 := 1, busy := false, done := true, a := Latched.absent } ∧
        ft.Perm (⟨x, s.a.arg1⟩ :: s.ft) ∧ (ft.map (·.sym)).Pairwise (· < ·))

/-! ## TREE_BUILD (41_tree_builder.md) -/

/-- R125, R124, R41, R42: TREE_BUILD of a non-empty FT completes with FT's tree: 2N - 1 nodes, ROOT = 2N - 2, N - 1
merges, every internal node the sum of its two children, every node but the root the child of exactly one. -/
def Obligations.TreeBuildMakesTheTree : Prop :=
  encode .treeBuild = (.cmd, 0x00000004#32) ∧
  ∀ s : State, s.params.ok = true → FtOk s.params s.ft → s.ft ≠ [] →
    ∃ nodes, exec .treeBuild s = .next { s with
        nodes := nodes, root := 2 * s.ft.length - 2, treeValid := true,
        result0 := BitVec.ofNat 32 (2 * s.ft.length - 1), result1 := BitVec.ofNat 32 (2 * s.ft.length - 2),
        result2 := BitVec.ofNat 32 (s.ft.length - 1), busy := false, done := true, a := Latched.absent } ∧
      TreeOk s.ft nodes (2 * s.ft.length - 2)

/-- R122, R123: every merge takes the smallest and the second smallest node of the working set under (freq, node index),
the smaller as the left child. -/
def Obligations.TreeBuildMergesTwoSmallest : Prop :=
  ∀ s : State, s.params.ok = true → FtOk s.params s.ft → s.ft ≠ [] →
    ∃ t, exec .treeBuild s = .next t ∧
      ∀ k, s.ft.length ≤ k → k < t.nodes.length →
        ∃ x y f, t.nodes[k]? = some (.internal x y f) ∧ unmerged t.nodes k x ∧ unmerged t.nodes k y ∧
          before t.nodes x y ∧ ∀ j, unmerged t.nodes k j → j ≠ x → j ≠ y → before t.nodes y j

/-- R121: node frequencies are exact sums below 2^53, the root's is the sum of all counts of FT, and no node has a
frequency less than either child's. -/
def Obligations.RootFrequencyIsTheTotal : Prop :=
  ∀ s : State, s.params.ok = true → FtOk s.params s.ft → s.ft ≠ [] →
    ∃ t, exec .treeBuild s = .next t ∧
      (nodeFreq t.nodes t.root).toNat = (s.ft.map (·.cnt.toNat)).sum ∧
      (∀ i, (nodeFreq t.nodes i).toNat < 2 ^ 53) ∧
      ∀ (i l r : Nat) (f : Freq), t.nodes[i]? = some (.internal l r f) →
        f.toNat = (nodeFreq t.nodes l).toNat + (nodeFreq t.nodes r).toNat ∧
        (nodeFreq t.nodes l).toNat ≤ f.toNat ∧ (nodeFreq t.nodes r).toNat ≤ f.toNat

/-- R120: TREE_BUILD of an empty FT raises EMPTY_ALPHABET(0) and leaves no tree. -/
def Obligations.TreeBuildOfNothing : Prop :=
  ∀ s : State, s.ft = [] → exec .treeBuild s = .next { s with
    treeValid := false, nodes := [], root := 0, errcode := .emptyAlphabet, errInfo := 0, busy := false, done := true,
    a := Latched.absent }

/-! ## CODE_GEN (42_code_table.md) -/

/-- R130, R133: CODE_GEN of a tree of two or more leaves gives CT in leaf order, each entry's code being the path from
the root to its leaf, 0 to the left and 1 to the right; the tree is consumed (R136). -/
def Obligations.CodeGenGivesPathCodes : Prop :=
  ∀ s : State, s.treeValid = true → TreeOk s.ft s.nodes s.root → 2 ≤ s.ft.length →
    pathsFit s.nodes s.root s.ft.length →
    ∃ ct, exec .codeGen s = .next { s with
        ct := ct, treeValid := false, nodes := [], root := 0, result0 := BitVec.ofNat 32 s.ft.length,
        result1 := BitVec.ofNat 32 (maxLen ct), busy := false, done := true, a := Latched.absent } ∧
      ct.map (·.sym) = s.ft.map (·.sym) ∧
      ∀ i e, ct[i]? = some e →
        follow s.nodes s.root (codeBits e) = some i ∧ 1 ≤ e.len.toNat ∧ e.value.toNat < 2 ^ e.len.toNat

/-- R131: the sole symbol of a one-node tree gets the code value 0 with length 1. -/
def Obligations.SoleSymbolGetsCodeZero : Prop :=
  ∀ (s : State) (x : Sym) (c : Count), s.treeValid = true → s.ft = [⟨x, c⟩] → TreeOk s.ft s.nodes s.root →
    exec .codeGen s = .next { s with
      ct := [⟨x, 0, 1⟩], treeValid := false, nodes := [], root := 0, result0 := 1, result1 := 1,
      busy := false, done := true, a := Latched.absent }

/-- R130: CODE_GEN without a valid tree raises MALFORMED_TREE(0) and empties CT. -/
def Obligations.CodeGenWithoutTree : Prop :=
  ∀ s : State, s.treeValid = false → exec .codeGen s = .next { s with
    ct := [], treeValid := false, nodes := [], root := 0, errcode := .malformedTree, errInfo := 0,
    busy := false, done := true, a := Latched.absent }

/-- R132: a leaf deeper than 255 raises CODE_TOO_LONG with the smallest such leaf's index, and is never truncated. -/
def Obligations.CodeGenRefusesLongCodes : Prop :=
  ∀ (s : State) (bits : List Bool) (i : Nat), s.treeValid = true → TreeOk s.ft s.nodes s.root →
    follow s.nodes s.root bits = some i → i < s.ft.length → 255 < bits.length →
    (∀ bits' j, follow s.nodes s.root bits' = some j → j < i → bits'.length ≤ 255) →
    exec .codeGen s = .next { s with
      ct := [], treeValid := false, nodes := [], root := 0, errcode := .codeTooLong,
      errInfo := BitVec.ofNat 32 i, busy := false, done := true, a := Latched.absent }

/-- R135: a generated table is prefix-free, with distinct (value, len) pairs and every code of length 1 or more; for two
or more symbols it is complete: the sum of 2^-len is 1, and every sequence of MAXLEN bits has exactly one prefix that is a
code. For one symbol the sequence "1" has no code. -/
def Obligations.GeneratedCodeIsPrefixFreeAndComplete : Prop :=
  ∀ s : State, s.treeValid = true → TreeOk s.ft s.nodes s.root → pathsFit s.nodes s.root s.ft.length →
    ∃ t, exec .codeGen s = .next t ∧ PrefixFree t.ct ∧
      (∀ e ∈ t.ct, 1 ≤ e.len.toNat ∧ e.value.toNat < 2 ^ e.len.toNat) ∧
      t.ct.Pairwise (fun e f => ¬ (e.value = f.value ∧ e.len = f.len)) ∧
      (2 ≤ s.ft.length →
        (t.ct.map fun e => 2 ^ (255 - e.len.toNat)).sum = 2 ^ 255 ∧
        ∀ bits : List Bool, bits.length = maxLen t.ct → ∃! e, e ∈ t.ct ∧ codeBits e <+: bits) ∧
      (s.ft.length = 1 → ∀ e ∈ t.ct, codeBits e ≠ [true])

/-- R136: after CODE_GEN, with either outcome, TREE_VALID = 0 and NODES is empty, so a CODE_GEN that follows raises
MALFORMED_TREE. -/
def Obligations.CodeGenConsumesTheTree : Prop :=
  ∀ s : State, ∃ t, exec .codeGen s = .next t ∧ t.treeValid = false ∧ t.nodes = [] ∧ t.csrValue .nodeN = 0 ∧
    ∃ u, exec .codeGen (t.start 0x00000005#32) = .next u ∧ u.errcode = .malformedTree ∧ u.ct = []

/-! ## TABLE_SER and TABLE_DESER (43_table_serializer.md, 44_table_deserializer.md) -/

/-- R140, R141, R142: TABLE_SER of a CT that fits writes exactly its entries' bits, one after the other, and the zero
padding, and nothing else. -/
def Obligations.TableSerWritesPaddedEntries : Prop :=
  ∀ s : State, s.dstInRange = true → bytesFor (tableBits s.ct).length ≤ s.a.dstCap.toNat →
    ∃ m, exec .tableSer s = .next { s with
        dmem := m, result0 := BitVec.ofNat 32 (bytesFor (tableBits s.ct).length),
        result1 := BitVec.ofNat 32 s.ct.length, result2 := BitVec.ofNat 32 (padCount (tableBits s.ct).length),
        busy := false, done := true, a := Latched.absent } ∧
      Memory.bits m s.a.dst (8 * bytesFor (tableBits s.ct).length) =
        tableBits s.ct ++ List.replicate (padCount (tableBits s.ct).length) false ∧
      padCount (tableBits s.ct).length ≤ 7 ∧
      sameOutside s.dmem m s.a.dst (bytesFor (tableBits s.ct).length)

/-- R140, R68: TABLE_SER into a region that is too small raises CAPACITY(j), j the entry whose bits complete the first
byte that does not fit, or CT_N where the padding completes it; the bytes before it are written, no byte after. -/
def Obligations.TableSerStopsAtCapacity : Prop :=
  ∀ s : State, s.dstInRange = true → s.a.dstCap.toNat < bytesFor (tableBits s.ct).length →
    ∃ (j : Nat) (m : Memory), exec .tableSer s = .next { s with
        dmem := m, result0 := s.a.dstCap, result1 := BitVec.ofNat 32 j, result2 := 0, errcode := .capacity,
        errInfo := BitVec.ofNat 32 j, busy := false, done := true, a := Latched.absent } ∧
      j ≤ s.ct.length ∧ (tableBits (s.ct.take j)).length ≤ 8 * s.a.dstCap.toNat + 7 ∧
      (j < s.ct.length → 8 * s.a.dstCap.toNat + 7 < (tableBits (s.ct.take (j + 1))).length) ∧
      Memory.bits m s.a.dst (8 * s.a.dstCap.toNat) = (tableBits s.ct).take (8 * s.a.dstCap.toNat) ∧
      sameOutside s.dmem m s.a.dst s.a.dstCap.toNat

/-- R150, R151, R153: TABLE_DESER of well-formed entries followed by fewer than 8 bits, whatever they hold, completes; a
repeated symbol replaces its entry in place, a new one is appended. -/
def Obligations.TableDeserReadsEntries : Prop :=
  ∀ (s : State) (es : List CtEntry) (pad : List Bool), s.srcInRange = true →
    s.srcBits (8 * s.a.srcLen.toNat) = tableBits es ++ pad → pad.length < 8 →
    (∀ e ∈ es, isScalar e.sym.toNat = true ∧ e.value.toNat < 2 ^ e.len.toNat) →
    (es.map (·.sym)).dedup.length ≤ s.params.nsymMax →
    exec .tableDeser s = .next { s with
      ct := es.foldl mapPut [], result0 := BitVec.ofNat 32 (es.foldl mapPut []).length,
      result1 := BitVec.ofNat 32 es.length, result2 := BitVec.ofNat 32 pad.length, busy := false, done := true,
      a := Latched.absent }

/-- R150, R152: TABLE_DESER's errors, at the first entry that fails: RANGE(0); INVALID_SYMBOL; TRUNCATED_TABLE where the
entry is cut inside its symbol, its length byte or its code value; CAPACITY. ERR_INFO is the entry's bit offset, and CT is
emptied. -/
def Obligations.TableDeserStopsAtBadEntry : Prop :=
  ∀ s : State,
    (s.srcInRange = false → deserStops s .range 0 0) ∧
    (∀ (es : List CtEntry) (rest : List Bool), s.srcInRange = true →
      s.srcBits (8 * s.a.srcLen.toNat) = tableBits es ++ rest →
      (∀ e ∈ es, isScalar e.sym.toNat = true ∧ e.value.toNat < 2 ^ e.len.toNat) →
      (es.map (·.sym)).dedup.length ≤ s.params.nsymMax →
      (∀ lead, rest.take 8 = byteBits lead → utf8Len lead = none →
        deserStops s .invalidSymbol es.length (tableBits es).length) ∧
      (∀ (lead : Byte) (n : Nat), rest.take 8 = byteBits lead → utf8Len lead = some n → rest.length < 8 * n →
        deserStops s .truncatedTable es.length (tableBits es).length) ∧
      (∀ (u : List Byte) (tail : List Bool) (n : Nat), rest = u.flatMap byteBits ++ tail → u.length = n →
        (u.head?.bind utf8Len) = some n → utf8Decode u = none →
        deserStops s .invalidSymbol es.length (tableBits es).length) ∧
      (∀ (x : Sym) (tail : List Bool), rest = (utf8Encode x).flatMap byteBits ++ tail → isScalar x.toNat = true →
        tail.length < 8 → deserStops s .truncatedTable es.length (tableBits es).length) ∧
      (∀ (x : Sym) (len : Nat) (tail : List Bool), rest = (utf8Encode x).flatMap byteBits ++ bin 8 len ++ tail →
        isScalar x.toNat = true → len ≤ 255 → tail.length < len →
        deserStops s .truncatedTable es.length (tableBits es).length) ∧
      (∀ (e : CtEntry) (tail : List Bool), rest = entryBits e ++ tail → isScalar e.sym.toNat = true →
        e.sym ∉ es.map (·.sym) → (es.map (·.sym)).dedup.length = s.params.nsymMax →
        deserStops s .capacity es.length (tableBits es).length))

/-- R155: TABLE_SER followed by TABLE_DESER over the bytes it wrote restores the same CT, in the same order, with
RESULT2 = TABLE_SER's RESULT2. -/
def Obligations.TableRoundTrip : Prop :=
  ∀ s t u : State, s.params.ok = true → CtOk s.params s.ct → s.dstInRange = true →
    bytesFor (tableBits s.ct).length ≤ s.a.dstCap.toNat → exec .tableSer s = .next t →
    u.params = s.params → u.dmem = t.dmem → u.a.srcAddr = s.a.dstAddr → u.a.srcLen = t.result0 →
    exec .tableDeser u = .next { u with
      ct := s.ct, result0 := BitVec.ofNat 32 s.ct.length, result1 := BitVec.ofNat 32 s.ct.length,
      result2 := t.result2, busy := false, done := true, a := Latched.absent }

/-- R156: removing the last byte of a region made by TABLE_SER always raises TRUNCATED_TABLE, and CT is emptied. -/
def Obligations.CutTableRegionIsTruncated : Prop :=
  ∀ s t u : State, s.params.ok = true → CtOk s.params s.ct → s.ct ≠ [] → s.dstInRange = true →
    bytesFor (tableBits s.ct).length ≤ s.a.dstCap.toNat → exec .tableSer s = .next t →
    u.params = s.params → u.dmem = t.dmem → u.a.srcAddr = s.a.dstAddr → u.a.srcLen = t.result0 - 1 →
    deserStops u .truncatedTable (s.ct.length - 1) (tableBits s.ct.dropLast).length

/-! ## TEXT_ENCODE (45_bitstream_encoder.md) -/

/-- R160, R165, R161: TEXT_ENCODE of a text CT covers, into a region it fits, writes the concatenation of its symbols'
codes and 0 to 7 zero bits, and nothing else. -/
def Obligations.TextEncodeWritesCodes : Prop :=
  ∀ (s : State) (text : List Sym), s.regionErr = none → s.srcBytes = textBytes text → allScalar text →
    covers s.ct text → bytesFor (textCode s.ct text).length ≤ s.a.dstCap.toNat →
    ∃ m, exec .textEncode s = .next { s with
        dmem := m, result0 := BitVec.ofNat 32 (bytesFor (textCode s.ct text).length),
        result1 := BitVec.ofNat 32 text.length, result2 := BitVec.ofNat 32 (padCount (textCode s.ct text).length),
        result3 := s.a.srcLen, busy := false, done := true, a := Latched.absent } ∧
      Memory.bits m s.a.dst (8 * bytesFor (textCode s.ct text).length) =
        textCode s.ct text ++ List.replicate (padCount (textCode s.ct text).length) false ∧
      sameOutside s.dmem m s.a.dst (bytesFor (textCode s.ct text).length)

/-- R160, R162: TEXT_ENCODE's errors after the checks, at the first symbol that fails: INVALID_SYMBOL, MISSING_SYMBOL,
CAPACITY, and CAPACITY(SRC_LEN) where the padding's byte does not fit. The bytes completed before stay written. -/
def Obligations.TextEncodeStopsAtFirstError : Prop :=
  ∀ (s : State) (text : List Sym) (rest : List Byte), s.regionErr = none → s.srcBytes = textBytes text ++ rest →
    allScalar text → covers s.ct text → (textCode s.ct text).length / 8 ≤ s.a.dstCap.toNat →
    (rest ≠ [] → nextSymbol rest = none →
      encodeStops s .invalidSymbol ((textCode s.ct text).length / 8) text.length (textBytes text).length
        (textCode s.ct text)) ∧
    (∀ x tail, rest = utf8Encode x ++ tail → isScalar x.toNat = true → x ∉ s.ct.map (·.sym) →
      encodeStops s .missingSymbol ((textCode s.ct text).length / 8) text.length (textBytes text).length
        (textCode s.ct text)) ∧
    (∀ x tail, rest = utf8Encode x ++ tail → isScalar x.toNat = true → x ∈ s.ct.map (·.sym) →
      s.a.dstCap.toNat < (textCode s.ct (text ++ [x])).length / 8 →
      encodeStops s .capacity s.a.dstCap.toNat text.length (textBytes text).length
        (textCode s.ct (text ++ [x]))) ∧
    (rest = [] → s.a.dstCap.toNat < bytesFor (textCode s.ct text).length →
      encodeStops s .capacity s.a.dstCap.toNat text.length s.a.srcLen.toNat (textCode s.ct text))

/-! ## TEXT_DECODE (46_bitstream_decoder.md) -/

/-- R170, R171, R195: TEXT_DECODE's checks before it reads any bit, in their order, each with everything but the error
record as it was. -/
def Obligations.TextDecodeChecksInOrder : Prop :=
  ∀ s : State,
    let stops := fun (e : ErrCode) (info : Word) => exec .textDecode s = .next { s with
      errcode := e, errInfo := info, busy := false, done := true, a := Latched.absent }
    let badPad := 7 < s.a.arg0.toNat ∨ (s.a.srcLen = 0 ∧ s.a.arg0 ≠ 0)
    (∀ e, s.regionErr = some e → stops e.kind e.info) ∧
    (s.regionErr = none → badPad → stops .badArg 2) ∧
    (s.regionErr = none → ¬ badPad → s.ct = [] → stops .emptyAlphabet 0) ∧
    (∀ j e, s.regionErr = none → ¬ badPad → s.ct[j]? = some e →
      (∃ f ∈ s.ct.take j, f.value = e.value ∧ f.len = e.len) →
      (s.ct.take j).Pairwise (fun f g => ¬ (f.value = g.value ∧ f.len = g.len)) →
      stops .duplicateCode (BitVec.ofNat 32 j))

/-- R171: TEXT_DECODE of the codes of a text under a prefix-free table writes exactly the text's bytes. Under any table
that passes the checks, prefix-free or not and with entries of len 0 or without, it always takes the shortest matching code
of at least one bit (R170, R154): the codes of entries none of which has a shorter such code as a prefix decode to those
entries' symbols. The case of one entry of len 1 (`singleSym`) is SoleCodeDecodesEveryBit. -/
def Obligations.TextDecodeInvertsCodes : Prop :=
  (∀ (s : State) (text : List Sym), s.decodeErr = none → CtOk s.params s.ct → PrefixFree s.ct →
    (∀ e ∈ s.ct, 1 ≤ e.len.toNat) → singleSym s.ct = none → covers s.ct text →
    s.srcBits s.a.validBits = textCode s.ct text → (textBytes text).length ≤ s.a.dstCap.toNat →
    ∃ m, exec .textDecode s = .next { s with
        dmem := m, result0 := BitVec.ofNat 32 (textBytes text).length, result1 := BitVec.ofNat 32 text.length,
        result2 := BitVec.ofNat 32 s.a.validBits, result3 := 0, busy := false, done := true, a := Latched.absent } ∧
      Memory.bytes m s.a.dst (textBytes text).length = textBytes text ∧
      sameOutside s.dmem m s.a.dst (textBytes text).length) ∧
  (∀ (s : State) (es : List CtEntry), s.decodeErr = none → CtOk s.params s.ct → singleSym s.ct = none →
    shortestMatches s.ct es → s.srcBits s.a.validBits = es.flatMap codeBits →
    (textBytes (es.map (·.sym))).length ≤ s.a.dstCap.toNat →
    ∃ m, exec .textDecode s = .next { s with
        dmem := m, result0 := BitVec.ofNat 32 (textBytes (es.map (·.sym))).length,
        result1 := BitVec.ofNat 32 es.length, result2 := BitVec.ofNat 32 s.a.validBits, result3 := 0,
        busy := false, done := true, a := Latched.absent } ∧
      Memory.bytes m s.a.dst (textBytes (es.map (·.sym))).length = textBytes (es.map (·.sym)) ∧
      sameOutside s.dmem m s.a.dst (textBytes (es.map (·.sym))).length)

/-- R173: under a table of exactly one entry whose len is 1, every valid bit decodes to that entry's symbol, whatever
the bit's value. -/
def Obligations.SoleCodeDecodesEveryBit : Prop :=
  ∀ (s : State) (e : CtEntry), s.decodeErr = none → s.ct = [e] → e.len = 1 →
    s.a.validBits * (utf8Encode e.sym).length ≤ s.a.dstCap.toNat →
    ∃ m, exec .textDecode s = .next { s with
        dmem := m, result0 := BitVec.ofNat 32 (s.a.validBits * (utf8Encode e.sym).length),
        result1 := BitVec.ofNat 32 s.a.validBits, result2 := BitVec.ofNat 32 s.a.validBits, result3 := 0,
        busy := false, done := true, a := Latched.absent } ∧
      Memory.bytes m s.a.dst (s.a.validBits * (utf8Encode e.sym).length) =
        textBytes (List.replicate s.a.validBits e.sym) ∧
      sameOutside s.dmem m s.a.dst (s.a.validBits * (utf8Encode e.sym).length)

/-- R174, R175: bits after the last code, no prefix of which is a code of at least one bit: at most MAXLEN of them end the
command silently, with RESULT3 their number; more are UNRECOGNIZED_CODE at the offset where the run began, found at the bit
that makes the run longer than MAXLEN. The table need not be prefix-free, and may hold an entry of len 0 (R154, R170). -/
def Obligations.UnmatchedRunStopsOrFails : Prop :=
  ∀ (s : State) (es : List CtEntry) (tail : List Bool), s.decodeErr = none → CtOk s.params s.ct →
    singleSym s.ct = none → shortestMatches s.ct es → s.srcBits s.a.validBits = es.flatMap codeBits ++ tail →
    (∀ e ∈ s.ct, 1 ≤ e.len.toNat → ¬ codeBits e <+: tail) →
    (textBytes (es.map (·.sym))).length ≤ s.a.dstCap.toNat →
    (tail.length ≤ maxLen s.ct → ∃ m, exec .textDecode s = .next { s with
        dmem := m, result0 := BitVec.ofNat 32 (textBytes (es.map (·.sym))).length,
        result1 := BitVec.ofNat 32 es.length, result2 := BitVec.ofNat 32 s.a.validBits,
        result3 := BitVec.ofNat 32 tail.length, busy := false, done := true, a := Latched.absent } ∧
      Memory.bytes m s.a.dst (textBytes (es.map (·.sym))).length = textBytes (es.map (·.sym)) ∧
      sameOutside s.dmem m s.a.dst (textBytes (es.map (·.sym))).length) ∧
    (maxLen s.ct < tail.length → ∃ m, exec .textDecode s = .next { s with
        dmem := m, result0 := BitVec.ofNat 32 (textBytes (es.map (·.sym))).length,
        result1 := BitVec.ofNat 32 es.length,
        result2 := BitVec.ofNat 32 ((es.flatMap codeBits).length + maxLen s.ct + 1), result3 := 0,
        errcode := .unrecognizedCode, errInfo := BitVec.ofNat 32 (es.flatMap codeBits).length,
        busy := false, done := true, a := Latched.absent } ∧
      Memory.bytes m s.a.dst (textBytes (es.map (·.sym))).length = textBytes (es.map (·.sym)) ∧
      sameOutside s.dmem m s.a.dst (textBytes (es.map (·.sym))).length)

/-- R171: a symbol whose bytes would not all fit below DST_CAP raises CAPACITY at the bit its code began, and no part of
it is written, under any table that passes the checks. In the single-symbol case (R173) each bit is a code: as many symbols
as fit whole are written, and the next bit raises CAPACITY with its own offset. -/
def Obligations.TextDecodeStopsAtCapacity : Prop :=
  (∀ (s : State) (es : List CtEntry) (e : CtEntry) (tail : List Bool), s.decodeErr = none → CtOk s.params s.ct →
    singleSym s.ct = none → shortestMatches s.ct (es ++ [e]) →
    s.srcBits s.a.validBits = es.flatMap codeBits ++ codeBits e ++ tail →
    (textBytes (es.map (·.sym))).length ≤ s.a.dstCap.toNat →
    s.a.dstCap.toNat < (textBytes (es.map (·.sym))).length + (utf8Encode e.sym).length →
    ∃ m, exec .textDecode s = .next { s with
        dmem := m, result0 := BitVec.ofNat 32 (textBytes (es.map (·.sym))).length,
        result1 := BitVec.ofNat 32 es.length,
        result2 := BitVec.ofNat 32 ((es.flatMap codeBits).length + e.len.toNat), result3 := 0,
        errcode := .capacity, errInfo := BitVec.ofNat 32 (es.flatMap codeBits).length,
        busy := false, done := true, a := Latched.absent } ∧
      Memory.bytes m s.a.dst (textBytes (es.map (·.sym))).length = textBytes (es.map (·.sym)) ∧
      sameOutside s.dmem m s.a.dst (textBytes (es.map (·.sym))).length) ∧
  (∀ (s : State) (e : CtEntry), s.decodeErr = none → s.ct = [e] → e.len = 1 →
    s.a.dstCap.toNat < s.a.validBits * (utf8Encode e.sym).length →
    let whole := s.a.dstCap.toNat / (utf8Encode e.sym).length
    ∃ m, exec .textDecode s = .next { s with
        dmem := m, result0 := BitVec.ofNat 32 (whole * (utf8Encode e.sym).length),
        result1 := BitVec.ofNat 32 whole, result2 := BitVec.ofNat 32 (whole + 1), result3 := 0,
        errcode := .capacity, errInfo := BitVec.ofNat 32 whole, busy := false, done := true, a := Latched.absent } ∧
      Memory.bytes m s.a.dst (whole * (utf8Encode e.sym).length) = textBytes (List.replicate whole e.sym) ∧
      sameOutside s.dmem m s.a.dst (whole * (utf8Encode e.sym).length))

/-- R172: the accumulator satisfies acc < 2^depth, and depth never exceeds MAXLEN + 1 <= 256, so 256 and 9 bits hold
them: in every state the decoder's loop can stand in. -/
def Obligations.AccumulatorFitsItsWidth : Prop :=
  ∀ (ct : List CtEntry) (a : Latched) (bits : List Bool) (m : Memory) (l : DecLoop),
    (decLoop ct a bits ⟨0, 0, 0, 0, 0, 0, m⟩ = .ok l ∨
      ∃ e, decLoop ct a bits ⟨0, 0, 0, 0, 0, 0, m⟩ = .error (e, l)) →
    l.acc < 2 ^ l.depth ∧ l.depth ≤ maxLen ct + 1 ∧ maxLen ct + 1 ≤ 256

/-! ## The whole codec -/

/-- R176: a text counted, its tree built, its code table generated, the text encoded and the result decoded with the
padding count the encoder reported gives exactly the bytes of the text, with RESULT3 = 0. Each command but the last is
assumed to complete normally. -/
def Obligations.EncodeThenDecodeRestoresText : Prop :=
  ∀ (s t1 t2 t3 t4 : State) (text : List Sym) (e f cap cap' : Word),
    s.params.ok = true → (s.start 2).srcInRange = true → text ≠ [] → (s.start 2).srcBytes = textBytes text →
    allScalar text →
    exec .freqCount (s.start 2) = .next t1 → t1.errcode = .none →
    exec .treeBuild (t1.start 4) = .next t2 → t2.errcode = .none →
    exec .codeGen (t2.start 5) = .next t3 → t3.errcode = .none →
    exec .textEncode ({ t3 with dstAddr := e, dstCap := cap }.start 9) = .next t4 → t4.errcode = .none →
    let d : State := { t4 with srcAddr := e, srcLen := t4.result0, dstAddr := f, dstCap := cap', arg0 := t4.result2 }.start 10
    d.regionErr = none → (textBytes text).length ≤ cap'.toNat →
    ∃ t5, exec .textDecode d = .next t5 ∧ t5.errcode = .none ∧ t5.result3 = 0 ∧
      t5.result0 = BitVec.ofNat 32 (textBytes text).length ∧ t5.result1 = BitVec.ofNat 32 text.length ∧
      Memory.bytes t5.dmem f.toNat (textBytes text).length = textBytes text
end

