-- ==== Sys2Proof/Laws/Memory.lean ====
section
/-! SUPPORT. The laws of DMEM: read after write, what a write leaves alone, and the canonical form kept by every operation. -/

namespace Sys2Proof.Machine

/-! ## Reads -/

@[simp] theorem Memory.read_nil (k : Nat) : Memory.read [] k = unlistedByte k := rfl

theorem Memory.read_cons (c : Host.Cell) (m : Memory) (k : Nat) :
    Memory.read (c :: m) k = if c.1 = k then c.2 else Memory.read m k := rfl

theorem Memory.read_erase (m : Memory) (addr k : Nat) :
    Memory.read (Memory.erase m addr) k = if k = addr then unlistedByte k else Memory.read m k := by
  induction m with
  | nil => simp [Memory.erase]
  | cons c m ih =>
    simp only [Memory.erase] at ih ⊢
    by_cases h : c.1 = addr
    · rw [List.filter_cons_of_neg (by simp [h]), ih, Memory.read_cons]
      grind
    · rw [List.filter_cons_of_pos (by simp [h]), Memory.read_cons, ih, Memory.read_cons]
      grind

theorem Memory.read_place (m : Memory) (addr k : Nat) (v : Byte) (h : ∀ c ∈ m, c.1 ≠ addr) :
    Memory.read (Memory.place m addr v) k = if k = addr then v else Memory.read m k := by
  induction m with
  | nil => simp only [Memory.place, Memory.read_cons]; grind
  | cons c m ih =>
    have := ih fun d hd => h d (List.mem_cons_of_mem _ hd)
    have := h c List.mem_cons_self
    obtain ⟨a, b⟩ := c
    simp only [Memory.place]
    split <;> simp only [Memory.read_cons] <;> grind

theorem Memory.erase_ne (m : Memory) (addr : Nat) : ∀ c ∈ Memory.erase m addr, c.1 ≠ addr := by
  intro c hc
  simpa using (List.mem_filter.1 hc).2

/-- A read after a write: the byte written at its address, every other byte as it was. -/
theorem Memory.read_write (m : Memory) (addr k : Nat) (v : Byte) :
    Memory.read (Memory.write m addr v) k = if k = addr then v else Memory.read m k := by
  unfold Memory.write
  split
  · rw [Memory.read_erase]; grind
  · rw [Memory.read_place _ _ _ _ (Memory.erase_ne m addr), Memory.read_erase]; grind

@[simp] theorem Memory.read_write_same (m : Memory) (addr : Nat) (v : Byte) :
    Memory.read (Memory.write m addr v) addr = v := by simp [Memory.read_write]

theorem Memory.read_write_ne (m : Memory) {addr k : Nat} (v : Byte) (h : k ≠ addr) :
    Memory.read (Memory.write m addr v) k = Memory.read m k := by simp [Memory.read_write, h]

/-- A read after a run of byte writes. -/
theorem Memory.read_writeAll (vs : List Byte) (m : Memory) (addr k : Nat) :
    Memory.read (Memory.writeAll m addr vs) k =
      if h : addr ≤ k ∧ k < addr + vs.length then vs[k - addr]'(by omega) else Memory.read m k := by
  induction vs generalizing m addr with
  | nil => simp only [Memory.writeAll, List.length_nil]; split <;> first | omega | rfl
  | cons v vs ih =>
    simp only [Memory.writeAll, ih, Memory.read_write, List.length_cons]
    by_cases h0 : k = addr
    · subst h0; simp
    · by_cases h : addr ≤ k ∧ k < addr + (vs.length + 1)
      · rw [dif_pos (by omega), dif_pos h]
        simp only [show k - addr = (k - (addr + 1)) + 1 by omega, List.getElem_cons_succ]
      · rw [dif_neg (by omega), dif_neg h, if_neg h0]

/-- Free values are given to exactly the bytes of the range (R181). -/
theorem read_scramble (n : Nat) (m : Memory) (base k addr : Nat) :
    Memory.read (scramble n m base k) addr =
      if base ≤ addr ∧ addr < base + n then Config.freeByte (k + (addr - base)) else Memory.read m addr := by
  induction n generalizing m base k with
  | zero => simp only [scramble]; split <;> first | omega | rfl
  | succ n ih =>
    simp only [scramble, ih, Memory.read_write]
    by_cases h0 : addr = base
    · subst h0; simp
    · by_cases h : base ≤ addr ∧ addr < base + (n + 1)
      · rw [if_pos (by omega), if_pos h]; congr 1; omega
      · rw [if_neg (by omega), if_neg h, if_neg h0]

/-! ## The canonical form -/

theorem Memory.mem_place (m : Memory) (addr : Nat) (v : Byte) (c : Host.Cell) :
    c ∈ Memory.place m addr v ↔ c = (addr, v) ∨ c ∈ m := by
  induction m with
  | nil => simp [Memory.place]
  | cons d m ih =>
    obtain ⟨a, b⟩ := d
    simp only [Memory.place]
    split <;> simp [ih]
    tauto

theorem Memory.sorted_place (m : Memory) (addr : Nat) (v : Byte) (hs : (m.map Prod.fst).Pairwise (· < ·))
    (h : ∀ c ∈ m, c.1 ≠ addr) : ((Memory.place m addr v).map Prod.fst).Pairwise (· < ·) := by
  induction m with
  | nil => simp [Memory.place]
  | cons d m ih =>
    obtain ⟨a, b⟩ := d
    simp only [List.map_cons, List.pairwise_cons] at hs
    have hne : a ≠ addr := h (a, b) List.mem_cons_self
    simp only [Memory.place]
    split
    · rename_i hlt
      simp only [List.map_cons, List.pairwise_cons, List.mem_cons]
      refine ⟨?_, hs⟩
      rintro x (rfl | hx)
      · exact hlt
      · exact Nat.lt_trans hlt (hs.1 x hx)
    · rename_i hge
      simp only [List.map_cons, List.pairwise_cons]
      refine ⟨?_, ih hs.2 fun c hc => h c (List.mem_cons_of_mem _ hc)⟩
      intro x hx
      obtain ⟨c, hc, rfl⟩ := List.mem_map.1 hx
      rcases (Memory.mem_place m addr v c).1 hc with rfl | hc
      · simp only; omega
      · exact hs.1 _ (List.mem_map_of_mem hc)

theorem Memory.wf_erase {m : Memory} (h : Memory.wf m) (addr : Nat) : Memory.wf (Memory.erase m addr) :=
  ⟨List.Pairwise.sublist ((List.filter_sublist (l := m)).map Prod.fst) h.1,
    fun c hc => h.2 c (List.mem_filter.1 hc).1⟩

/-- A write keeps the canonical form. -/
theorem Memory.wf_write {m : Memory} (h : Memory.wf m) (addr : Nat) (v : Byte) : Memory.wf (Memory.write m addr v) := by
  unfold Memory.write
  split
  · exact Memory.wf_erase h addr
  · rename_i hv
    refine ⟨Memory.sorted_place _ _ _ (Memory.wf_erase h addr).1 (Memory.erase_ne m addr), fun c hc => ?_⟩
    rcases (Memory.mem_place _ _ _ c).1 hc with rfl | hc
    · exact hv
    · exact (Memory.wf_erase h addr).2 c hc

/-- The cells after a write: the one written, or one that was there. -/
theorem Memory.mem_write {m : Memory} {addr : Nat} {v : Byte} {c : Host.Cell} (hc : c ∈ Memory.write m addr v) :
    c.1 = addr ∨ c ∈ m := by
  unfold Memory.write at hc
  split at hc
  · exact .inr (List.mem_filter.1 hc).1
  · rcases (Memory.mem_place _ _ _ c).1 hc with rfl | hc
    · exact .inl rfl
    · exact .inr (List.mem_filter.1 hc).1

/-- A write to a byte that exists keeps DMEM canonical and inside its bounds. -/
theorem DmemOk.write {p : Params} {m : Memory} (h : DmemOk p m) {addr : Nat} (ha : addr < p.memBytes) (v : Byte) :
    DmemOk p (Memory.write m addr v) :=
  ⟨Memory.wf_write h.1 addr v, fun c hc => (Memory.mem_write hc).elim (· ▸ ha) (h.2 c)⟩

theorem DmemOk.writeAll {p : Params} (vs : List Byte) {m : Memory} (h : DmemOk p m) {addr : Nat}
    (ha : addr + vs.length ≤ p.memBytes) : DmemOk p (Memory.writeAll m addr vs) := by
  induction vs generalizing m addr with
  | nil => exact h
  | cons v vs ih =>
    simp only [List.length_cons] at ha
    exact ih (h.write (by omega) v) (by omega)

theorem DmemOk.scramble {p : Params} (n : Nat) {m : Memory} (h : DmemOk p m) {base : Nat} (k : Nat)
    (ha : base + n ≤ p.memBytes) : DmemOk p (scramble n m base k) := by
  induction n generalizing m base k with
  | zero => exact h
  | succ n ih => exact ih (h.write (by omega) _) (k + 1) (by omega)

/-- Two canonical memories that read alike are equal: the form is canonical. -/
theorem Memory.ext_of_wf {m m' : Memory} (h : Memory.wf m) (h' : Memory.wf m')
    (e : ∀ k, Memory.read m k = Memory.read m' k) : m = m' := by
  have low : ∀ (m : Memory) (k : Nat), (∀ c ∈ m, k < c.1) → Memory.read m k = unlistedByte k := by
    intro m k
    induction m with
    | nil => simp
    | cons c m ih =>
      intro hk
      have := hk c List.mem_cons_self
      rw [Memory.read_cons, if_neg (by omega)]
      exact ih fun d hd => hk d (List.mem_cons_of_mem _ hd)
  induction m generalizing m' with
  | nil =>
    cases m' with
    | nil => rfl
    | cons c m' => exact absurd (by simpa [Memory.read_cons] using (e c.1).symm) (h'.2 c List.mem_cons_self)
  | cons d m ih =>
    have hd := h.2 d List.mem_cons_self
    cases m' with
    | nil => exact absurd (by simpa [Memory.read_cons] using e d.1) hd
    | cons c m' =>
      have hc := h'.2 c List.mem_cons_self
      obtain ⟨hs, hv⟩ := h
      obtain ⟨hs', hv'⟩ := h'
      simp only [List.map_cons, List.pairwise_cons, List.mem_map, forall_exists_index, and_imp,
        forall_apply_eq_imp_iff₂] at hs hs'
      have key : d.1 = c.1 := by
        rcases Nat.lt_trichotomy d.1 c.1 with lt | eq | gt
        · refine absurd ?_ hd
          have := e d.1
          rw [Memory.read_cons, if_pos rfl, Memory.read_cons, if_neg (by omega)] at this
          rw [this]
          exact low m' d.1 fun x hx => Nat.lt_trans lt (hs'.1 x hx)
        · exact eq
        · refine absurd ?_ hc
          have := e c.1
          rw [Memory.read_cons, if_neg (by omega), Memory.read_cons, if_pos rfl] at this
          rw [← this]
          exact low m c.1 fun x hx => Nat.lt_trans gt (hs.1 x hx)
      have val : d.2 = c.2 := by simpa [Memory.read_cons, key] using e d.1
      have tail : m = m' := by
        refine ih ⟨hs.2, fun x hx => hv x (List.mem_cons_of_mem _ hx)⟩
          ⟨hs'.2, fun x hx => hv' x (List.mem_cons_of_mem _ hx)⟩ fun k => ?_
        by_cases hk : k = d.1
        · subst hk
          rw [low m _ hs.1, low m' _ (by intro x hx; exact key ▸ hs'.1 x hx)]
        · have := e k
          rwa [Memory.read_cons, if_neg (Ne.symm hk), Memory.read_cons, if_neg (by omega)] at this
      exact tail ▸ (Prod.ext key val : d = c) ▸ rfl

/-! ## The region and overlap checks (R66, R67) -/

theorem State.srcInRange_iff (s : State) :
    s.srcInRange = true ↔ s.a.srcAddr.toNat + s.a.srcLen.toNat ≤ s.params.memBytes :=
  decide_eq_true_iff

theorem State.dstInRange_iff (s : State) :
    s.dstInRange = true ↔ s.a.dstAddr.toNat + s.a.dstCap.toNat ≤ s.params.memBytes :=
  decide_eq_true_iff

theorem Latched.overlap_iff (a : Latched) :
    a.overlap = true ↔ 0 < a.srcLen.toNat ∧ 0 < a.dstCap.toNat ∧ a.srcAddr.toNat < a.dstAddr.toNat + a.dstCap.toNat ∧
      a.dstAddr.toNat < a.srcAddr.toNat + a.srcLen.toNat := by
  rw [Latched.overlap, Bool.and_eq_true, Bool.and_eq_true, Bool.and_eq_true, decide_eq_true_iff, decide_eq_true_iff,
    decide_eq_true_iff, decide_eq_true_iff, and_assoc, and_assoc]
  rfl

/-- The checks of a two-region command, in their order: each error is the first check that fails. -/
theorem State.regionErr_cases (s : State) :
    (s.srcInRange = false ∧ s.regionErr = some ⟨.range, 0⟩) ∨
    (s.srcInRange = true ∧ s.dstInRange = false ∧ s.regionErr = some ⟨.range, 1⟩) ∨
    (s.srcInRange = true ∧ s.dstInRange = true ∧ s.a.overlap = true ∧ s.regionErr = some ⟨.badArg, 1⟩) ∨
    (s.srcInRange = true ∧ s.dstInRange = true ∧ s.a.overlap = false ∧ s.regionErr = none) := by
  unfold State.regionErr
  cases s.srcInRange <;> cases s.dstInRange <;> cases s.a.overlap <;> simp

end Sys2Proof.Machine
end

