-- ==== Sys2Proof/Laws/Bits.lean ====
section
/-! SUPPORT. The laws of bit sequences (R12, R13, R61): `bin` and `bitsNat` are inverse, and a region's bits are its bytes' bits. -/

namespace Sys2Proof.Machine

@[simp] theorem bin_zero (v : Nat) : bin 0 v = [] := rfl

theorem bin_succ (n v : Nat) : bin (n + 1) v = v.testBit n :: bin n v := rfl

@[simp] theorem length_bin (n v : Nat) : (bin n v).length = n := by
  induction n with
  | zero => rfl
  | succ n ih => simp [bin_succ, ih]

@[simp] theorem bitsNat_nil : bitsNat [] = 0 := rfl

theorem bitsNat_foldl (bs : List Bool) (acc : Nat) :
    bs.foldl (fun acc b => 2 * acc + b.toNat) acc = acc * 2 ^ bs.length + bitsNat bs := by
  induction bs generalizing acc with
  | nil => simp
  | cons b bs ih =>
    simp only [bitsNat, List.foldl_cons, List.length_cons]
    rw [ih, ih (2 * 0 + b.toNat), Nat.pow_succ]
    ring

theorem bitsNat_cons (b : Bool) (bs : List Bool) : bitsNat (b :: bs) = b.toNat * 2 ^ bs.length + bitsNat bs := by
  have := bitsNat_foldl bs b.toNat
  simpa [bitsNat] using this

theorem bitsNat_append (bs cs : List Bool) : bitsNat (bs ++ cs) = bitsNat bs * 2 ^ cs.length + bitsNat cs := by
  rw [bitsNat, List.foldl_append]
  exact bitsNat_foldl cs (bitsNat bs)

theorem bitsNat_snoc (bs : List Bool) (b : Bool) : bitsNat (bs ++ [b]) = 2 * bitsNat bs + b.toNat := by
  rw [bitsNat_append]
  simp [bitsNat]
  ring

theorem bitsNat_lt (bs : List Bool) : bitsNat bs < 2 ^ bs.length := by
  induction bs with
  | nil => simp
  | cons b bs ih =>
    rw [bitsNat_cons, List.length_cons, Nat.pow_succ]
    cases b <;> simp <;> omega

theorem bitsNat_bin (n v : Nat) : bitsNat (bin n v) = v % 2 ^ n := by
  induction n with
  | zero => simp [Nat.mod_one]
  | succ n ih =>
    rw [bin_succ, bitsNat_cons, ih, length_bin, Nat.mod_pow_succ, Nat.testBit_eq_decide_div_mod_eq]
    rcases Nat.mod_two_eq_zero_or_one (v / 2 ^ n) with h | h <;> simp [h]
    ring

/-- The number a sequence writes, written in that many bits, is the sequence. -/
theorem bin_bitsNat (bs : List Bool) : bin bs.length (bitsNat bs) = bs := by
  have key : ∀ (n v w : Nat), v % 2 ^ n = w % 2 ^ n → bin n v = bin n w := by
    intro n
    induction n with
    | zero => intros; rfl
    | succ n ih =>
      intro v w h
      rw [bin_succ, bin_succ]
      congr 1
      · have := congrArg (fun x => Nat.testBit x n) h
        simpa using this
      · apply ih
        have := congrArg (· % 2 ^ n) h
        simpa [Nat.mod_mod_of_dvd, Nat.pow_dvd_pow 2 (Nat.le_succ n)] using this
  induction bs with
  | nil => rfl
  | cons b bs ih =>
    rw [List.length_cons, bin_succ]
    have hlt := bitsNat_lt bs
    congr 1
    · rw [bitsNat_cons, Nat.testBit_eq_decide_div_mod_eq]
      cases b
      · simp [Nat.div_eq_of_lt hlt]
      · have : (1 * 2 ^ bs.length + bitsNat bs) / 2 ^ bs.length = 1 := by
          rw [Nat.add_comm, Nat.add_mul_div_right _ _ (Nat.two_pow_pos _), Nat.div_eq_of_lt hlt]
        simp only [Bool.toNat_true, this]
        rfl
    · rw [key bs.length _ (bitsNat bs) ?_, ih]
      rw [bitsNat_cons, Nat.add_comm, Nat.add_mul_mod_self_right]

@[simp] theorem length_byteBits (b : Byte) : (byteBits b).length = 8 := length_bin 8 _

/-- A byte made of eight bits has those bits. -/
theorem byteBits_ofBits (bs : List Bool) (h : bs.length = 8) : byteBits (BitVec.ofNat 8 (bitsNat bs)) = bs := by
  have hlt := bitsNat_lt bs
  rw [h] at hlt
  rw [byteBits, BitVec.toNat_ofNat, Nat.mod_eq_of_lt hlt]
  have := bin_bitsNat bs
  rwa [h] at this

/-- The byte a byte's bits write is the byte. -/
theorem ofBits_byteBits (b : Byte) : BitVec.ofNat 8 (bitsNat (byteBits b)) = b := by
  apply BitVec.eq_of_toNat_eq
  rw [byteBits, bitsNat_bin, BitVec.toNat_ofNat, Nat.mod_mod, Nat.mod_eq_of_lt b.isLt]

theorem bitsNat_byteBits (b : Byte) : bitsNat (byteBits b) = b.toNat := by
  rw [byteBits, bitsNat_bin, Nat.mod_eq_of_lt b.isLt]

/-! ## Regions -/

@[simp] theorem Memory.length_bytes (m : Memory) (base n : Nat) : (Memory.bytes m base n).length = n := by
  simp [Memory.bytes]

@[simp] theorem Memory.length_bits (m : Memory) (base n : Nat) : (Memory.bits m base n).length = n := by
  simp [Memory.bits]

theorem Memory.bytes_succ (m : Memory) (base n : Nat) :
    Memory.bytes m base (n + 1) = Memory.bytes m base n ++ [Memory.read m (base + n)] := by
  simp [Memory.bytes, List.range_succ]

theorem Memory.bits_add (m : Memory) (base n k : Nat) :
    Memory.bits m base (n + k) = Memory.bits m base n ++ (List.range k).map fun j => Memory.bit m base (n + j) := by
  simp [Memory.bits, List.range_add]

/-- The bits of whole bytes are the bytes' bits in order (R61). -/
theorem Memory.bits_bytes (m : Memory) (base n : Nat) :
    Memory.bits m base (8 * n) = (Memory.bytes m base n).flatMap byteBits := by
  induction n with
  | zero => rfl
  | succ n ih =>
    rw [show 8 * (n + 1) = 8 * n + 8 by ring, Memory.bits_add, ih, Memory.bytes_succ, List.flatMap_append]
    congr 1
    simp only [List.flatMap_cons, List.flatMap_nil, List.append_nil, byteBits, bin_succ, bin_zero]
    rw [show List.range 8 = [0, 1, 2, 3, 4, 5, 6, 7] from rfl]
    simp only [List.map_cons, List.map_nil, Memory.bit]
    simp [show ∀ j, j < 8 → (8 * n + j) / 8 = n ∧ (8 * n + j) % 8 = j by omega, BitVec.getLsbD,
      show (8 * n) / 8 = n by omega]

/-- Memories that read alike in a region have the same bytes there. -/
theorem Memory.bytes_congr {m m' : Memory} {base n : Nat}
    (h : ∀ addr, base ≤ addr → addr < base + n → Memory.read m addr = Memory.read m' addr) :
    Memory.bytes m base n = Memory.bytes m' base n := by
  apply List.map_congr_left
  intro i hi
  exact h _ (by omega) (by have := List.mem_range.1 hi; omega)

/-- Memories that read alike in a region have the same bits there. -/
theorem Memory.bits_congr {m m' : Memory} {base n nb : Nat} (hn : nb ≤ 8 * n)
    (h : ∀ addr, base ≤ addr → addr < base + n → Memory.read m addr = Memory.read m' addr) :
    Memory.bits m base nb = Memory.bits m' base nb := by
  apply List.map_congr_left
  intro i hi
  have := List.mem_range.1 hi
  rw [Memory.bit, Memory.bit, h _ (by omega) (by omega)]

end Sys2Proof.Machine
end

