-- ==== Sys2Proof/Laws/Utf8.lean ====
section
/-! SUPPORT. The laws of UTF-8 (R72 to R74): what `utf8Encode` writes of a symbol, `utf8Len`, `utf8Decode` and `nextSymbol` read back. -/

namespace Sys2Proof.Machine

theorem utf8Encode_length_pos (x : Sym) : 0 < (utf8Encode x).length := by
  unfold utf8Encode
  split_ifs <;> simp

theorem utf8Encode_length_le (x : Sym) : (utf8Encode x).length ≤ 4 := by
  unfold utf8Encode
  split_ifs <;> simp

theorem isScalar_iff (n : Nat) : isScalar n = true ↔ n ≤ 0x10FFFF ∧ ¬ (0xD800 ≤ n ∧ n ≤ 0xDFFF) := by
  simp [isScalar]
  omega

/-- `checkScalar` accepts exactly the scalars at or above the minimum of the length (R73). -/
theorem checkScalar_eq (min : Nat) (v : Sym) :
    checkScalar min v = if min ≤ v.toNat ∧ isScalar v.toNat = true then some v else none := by
  simp [checkScalar]

/-- A decoded symbol is a scalar (R73). -/
theorem isScalar_of_utf8Decode {bs : List Byte} {x : Sym} (h : utf8Decode bs = some x) : isScalar x.toNat = true := by
  have key : ∀ {min : Nat} {v : Sym}, checkScalar min v = some x → isScalar x.toNat = true := by
    intro min v hv
    rw [checkScalar_eq] at hv
    split at hv
    · cases hv; tauto
    · cases hv
  unfold utf8Decode at h
  split at h <;> first | (split at h <;> [exact key h; cases h]) | cases h

theorem bv_concat_parts {n m : Nat} (hi : BitVec n) (lo : BitVec m) : (hi ++ lo).toNat = hi.toNat * 2 ^ m + lo.toNat := by
  rw [BitVec.toNat_append, Nat.shiftLeft_eq, ← Nat.shiftLeft_eq, Nat.shiftLeft_add_eq_or_of_lt lo.isLt]

theorem bv_slice (x : Sym) (k n : Nat) : (x.extractLsb' k n).toNat = x.toNat / 2 ^ k % 2 ^ n := by
  rw [BitVec.extractLsb'_toNat, Nat.shiftRight_eq_div_pow]

theorem byte_slice (x : Byte) (k n : Nat) : (x.extractLsb' k n).toNat = x.toNat / 2 ^ k % 2 ^ n := by
  rw [BitVec.extractLsb'_toNat, Nat.shiftRight_eq_div_pow]

/-- What the lead byte and the decoder read of an encoded symbol. -/
theorem utf8_roundtrip (x : Sym) (h : isScalar x.toNat = true) :
    (∃ b0 bs, utf8Encode x = b0 :: bs ∧ utf8Len b0 = some (utf8Encode x).length) ∧
      utf8Decode (utf8Encode x) = some x := by
  have hs := h
  rw [isScalar_iff] at h
  have hb := x.isLt
  unfold utf8Encode
  split_ifs with h1 h2 h3
  · have l : utf8Len (x.extractLsb' 0 8) = some 1 := by
      simp only [utf8Len, bv_slice]; rw [if_pos (by omega)]
    refine ⟨⟨_, _, rfl, l⟩, ?_⟩
    rw [utf8Decode, if_pos l, checkScalar_eq]
    have e : (0#14 ++ (x.extractLsb' 0 8).extractLsb' 0 7 : Sym) = x := by
      apply BitVec.eq_of_toNat_eq; simp only [bv_concat_parts, bv_slice, byte_slice, BitVec.toNat_ofNat]; omega
    rw [e, if_pos ⟨Nat.zero_le _, hs⟩]
  · have l : utf8Len (0b110#3 ++ x.extractLsb' 6 5) = some 2 := by
      simp only [utf8Len, bv_concat_parts, bv_slice, BitVec.toNat_ofNat]
      rw [if_neg (by omega), if_neg (by omega), if_pos (by omega)]
    refine ⟨⟨_, _, rfl, l⟩, ?_⟩
    have c : ∀ y : BitVec 6, isCont (0b10#2 ++ y) = true := by decide
    rw [utf8Decode, l, c, checkScalar_eq]
    have e : (0#10 ++ (0b110#3 ++ x.extractLsb' 6 5 : Byte).extractLsb' 0 5 ++
        (0b10#2 ++ x.extractLsb' 0 6 : Byte).extractLsb' 0 6 : Sym) = x := by
      apply BitVec.eq_of_toNat_eq; simp only [bv_concat_parts, bv_slice, byte_slice, BitVec.toNat_ofNat]; omega
    rw [e]
    simp [hs]; omega
  · have l : utf8Len (0b1110#4 ++ x.extractLsb' 12 4) = some 3 := by
      simp only [utf8Len, bv_concat_parts, bv_slice, BitVec.toNat_ofNat]
      rw [if_neg (by omega), if_neg (by omega), if_neg (by omega), if_pos (by omega)]
    refine ⟨⟨_, _, rfl, l⟩, ?_⟩
    have c : ∀ y : BitVec 6, isCont (0b10#2 ++ y) = true := by decide
    rw [utf8Decode, l, c, c, checkScalar_eq]
    have e : (0#5 ++ (0b1110#4 ++ x.extractLsb' 12 4 : Byte).extractLsb' 0 4 ++
        (0b10#2 ++ x.extractLsb' 6 6 : Byte).extractLsb' 0 6 ++
        (0b10#2 ++ x.extractLsb' 0 6 : Byte).extractLsb' 0 6 : Sym) = x := by
      apply BitVec.eq_of_toNat_eq; simp only [bv_concat_parts, bv_slice, byte_slice, BitVec.toNat_ofNat]; omega
    rw [e]
    simp [hs]; omega
  · have l : utf8Len (0b11110#5 ++ x.extractLsb' 18 3) = some 4 := by
      simp only [utf8Len, bv_concat_parts, bv_slice, BitVec.toNat_ofNat]
      rw [if_neg (by omega), if_neg (by omega), if_neg (by omega), if_neg (by omega), if_pos (by omega)]
    refine ⟨⟨_, _, rfl, l⟩, ?_⟩
    have c : ∀ y : BitVec 6, isCont (0b10#2 ++ y) = true := by decide
    rw [utf8Decode, l, c, c, c, checkScalar_eq]
    have e : ((0b11110#5 ++ x.extractLsb' 18 3 : Byte).extractLsb' 0 3 ++
        (0b10#2 ++ x.extractLsb' 12 6 : Byte).extractLsb' 0 6 ++
        (0b10#2 ++ x.extractLsb' 6 6 : Byte).extractLsb' 0 6 ++
        (0b10#2 ++ x.extractLsb' 0 6 : Byte).extractLsb' 0 6 : Sym) = x := by
      apply BitVec.eq_of_toNat_eq; simp only [bv_concat_parts, bv_slice, byte_slice, BitVec.toNat_ofNat]; omega
    rw [e]
    simp [hs]; omega

/-- `NextSymbol` at an encoded symbol reads it and its length, whatever follows (R74). -/
theorem nextSymbol_utf8Encode (x : Sym) (h : isScalar x.toNat = true) (rest : List Byte) :
    nextSymbol (utf8Encode x ++ rest) = some (x, (utf8Encode x).length) := by
  obtain ⟨⟨b0, bs, e, l⟩, d⟩ := utf8_roundtrip x h
  rw [e] at l d ⊢
  rw [List.cons_append, nextSymbol, l]
  have : ¬ (b0 :: (bs ++ rest)).length < (b0 :: bs).length := by simp
  simp only [this, if_false]
  rw [← List.cons_append, List.take_left' rfl, d]
  rfl

/-- A symbol `NextSymbol` reads is a scalar, and takes at least one byte of those there are. -/
theorem nextSymbol_some {bs : List Byte} {x : Sym} {n : Nat} (h : nextSymbol bs = some (x, n)) :
    isScalar x.toNat = true ∧ 1 ≤ n ∧ n ≤ bs.length ∧ utf8Decode (bs.take n) = some x := by
  cases bs with
  | nil => cases h
  | cons b0 rest =>
    simp only [nextSymbol] at h
    split at h
    · cases h
    · rename_i k hk
      split at h
      · cases h
      · rename_i hlen
        simp only [Option.map_eq_some_iff, Prod.mk.injEq] at h
        obtain ⟨y, hy, rfl, rfl⟩ := h
        refine ⟨isScalar_of_utf8Decode hy, ?_, by omega, hy⟩
        unfold utf8Len at hk
        split_ifs at hk <;> cases hk <;> omega

/-- A text's bytes, symbol by symbol. -/
theorem textBytes_cons (x : Sym) (text : List Sym) : textBytes (x :: text) = utf8Encode x ++ textBytes text := by
  simp [textBytes]

theorem textBytes_append (s t : List Sym) : textBytes (s ++ t) = textBytes s ++ textBytes t := by
  simp [textBytes]

end Sys2Proof.Machine
end

