-- ==== Sys2Proof/Laws/Packer.lean ====
section
/-! SUPPORT. The packer (R68, R69): what it holds after a bit sequence, said once for `push`, `emit` and `flush`. -/

namespace Sys2Proof.Machine

/-! ## Bytes of a bit sequence -/

@[simp] theorem length_bytesOfBits (n : Nat) (bs : List Bool) : (bytesOfBits n bs).length = n := by
  induction n generalizing bs with
  | zero => rfl
  | succ n ih => simp [bytesOfBits, ih]

theorem bytesOfBits_succ (n : Nat) (bs : List Bool) :
    bytesOfBits (n + 1) bs = bytesOfBits n bs ++ [BitVec.ofNat 8 (bitsNat ((bs.drop (8 * n)).take 8))] := by
  induction n generalizing bs with
  | zero => rfl
  | succ n ih =>
    rw [bytesOfBits, ih, bytesOfBits, List.cons_append, List.drop_drop, show 8 + 8 * n = 8 * (n + 1) by ring]

/-- Only the bits of the bytes matter. -/
theorem bytesOfBits_append (n : Nat) (bs cs : List Bool) (h : 8 * n ≤ bs.length) :
    bytesOfBits n (bs ++ cs) = bytesOfBits n bs := by
  induction n generalizing bs with
  | zero => rfl
  | succ n ih =>
    rw [bytesOfBits, bytesOfBits, List.take_append_of_le_length (by omega), List.drop_append_of_le_length (by omega),
      ih _ (by simp; omega)]

/-- The bits of the bytes are the bits they were made of. -/
theorem flatMap_byteBits_bytesOfBits (n : Nat) (bs : List Bool) (h : 8 * n ≤ bs.length) :
    (bytesOfBits n bs).flatMap byteBits = bs.take (8 * n) := by
  induction n generalizing bs with
  | zero => simp [bytesOfBits]
  | succ n ih =>
    rw [bytesOfBits, List.flatMap_cons, byteBits_ofBits _ (by simp; omega), ih _ (by simp; omega),
      show 8 * (n + 1) = 8 + 8 * n by ring, List.take_add]

/-- The bytes of a sequence of whole bytes are those bytes. -/
theorem bytesOfBits_flatMap (us : List Byte) (tail : List Bool) :
    bytesOfBits us.length (us.flatMap byteBits ++ tail) = us := by
  induction us with
  | nil => rfl
  | cons u us ih =>
    rw [List.length_cons, bytesOfBits, List.flatMap_cons, List.append_assoc,
      List.take_left' (length_byteBits u), List.drop_left' (length_byteBits u), ih, ofBits_byteBits]

theorem Memory.writeAll_snoc (vs : List Byte) (m : Memory) (addr : Nat) (v : Byte) :
    Memory.writeAll m addr (vs ++ [v]) = Memory.write (Memory.writeAll m addr vs) (addr + vs.length) v := by
  induction vs generalizing m addr with
  | nil => rfl
  | cons u vs ih =>
    rw [List.cons_append, Memory.writeAll, ih, Memory.writeAll, List.length_cons]
    congr 1
    omega

/-- The bytes written are read back. -/
theorem Memory.bytes_writeAll (m : Memory) (addr : Nat) (vs : List Byte) :
    Memory.bytes (Memory.writeAll m addr vs) addr vs.length = vs := by
  apply List.ext_getElem (by simp)
  intro i h1 h2
  simp only [Memory.length_bytes] at h1
  simp [Memory.bytes, Memory.read_writeAll, h1]

/-- A run of byte writes leaves every other byte. -/
theorem sameOutside_writeAll (m : Memory) (addr : Nat) (vs : List Byte) :
    sameOutside m (Memory.writeAll m addr vs) addr vs.length := by
  intro k hk
  rw [Memory.read_writeAll, dif_neg (by omega)]

/-! ## The packer -/

/-- The packer that emitted `seq`, DMEM having been `m` before. -/
def packerOf (m : Memory) (a : Latched) (seq : List Bool) : Packer :=
  { nbits := seq.length, out := seq.length / 8, pend := seq.drop (8 * (seq.length / 8)),
    mem := Memory.writeAll m a.dst (bytesOfBits (seq.length / 8) seq) }

theorem packerOf_nil (m : Memory) (a : Latched) : packerOf m a [] = Packer.init m := rfl

@[simp] theorem packerOf_nbits (m : Memory) (a : Latched) (seq : List Bool) : (packerOf m a seq).nbits = seq.length := rfl
@[simp] theorem packerOf_out (m : Memory) (a : Latched) (seq : List Bool) : (packerOf m a seq).out = seq.length / 8 := rfl

/-- One bit (R68): it is refused exactly where it fills a byte at or beyond the capacity. -/
theorem push_packerOf (m : Memory) (a : Latched) (seq : List Bool) (b : Bool) :
    (packerOf m a seq).push a b =
      if seq.length % 8 = 7 ∧ a.dstCap.toNat ≤ seq.length / 8 then .error (packerOf m a seq)
      else .ok (packerOf m a (seq ++ [b])) := by
  have h8 : 8 * (seq.length / 8) ≤ seq.length := by omega
  rw [Packer.push]
  by_cases h7 : seq.length % 8 = 7
  · rw [if_pos (show (packerOf m a seq).nbits % 8 = 7 from h7)]
    by_cases hc : a.dstCap.toNat ≤ seq.length / 8
    · rw [if_pos (show a.dstCap.toNat ≤ (packerOf m a seq).out from hc), if_pos ⟨h7, hc⟩]
    · rw [if_neg (show ¬ a.dstCap.toNat ≤ (packerOf m a seq).out from hc), if_neg fun h => hc h.2]
      have hs : (seq ++ [b]).length / 8 = seq.length / 8 + 1 := by simp; omega
      have hp : (seq ++ [b]).drop (8 * (seq.length / 8 + 1)) = [] := List.drop_eq_nil_of_le (by simp; omega)
      simp only [packerOf, hs, hp]
      rw [bytesOfBits_succ, Memory.writeAll_snoc, length_bytesOfBits, bytesOfBits_append _ _ _ h8,
        List.drop_append_of_le_length h8, List.take_of_length_le (by simp; omega)]
      simp
  · rw [if_neg (show ¬ (packerOf m a seq).nbits % 8 = 7 from h7), if_neg fun h => h7 h.1]
    have hs : (seq ++ [b]).length / 8 = seq.length / 8 := by simp; omega
    simp only [packerOf, hs, List.drop_append_of_le_length h8, bytesOfBits_append _ _ _ h8]
    simp

/-- Everything `emit` can do (R68): it emits all the bits if the bytes they complete fit below the capacity; otherwise it
stops at the bit that would complete the first byte that does not fit. -/
theorem emit_packerOf (m : Memory) (a : Latched) (bs seq : List Bool) (h : seq.length / 8 ≤ a.dstCap.toNat) :
    (packerOf m a seq).emit a bs =
      if (seq ++ bs).length / 8 ≤ a.dstCap.toNat then .ok (packerOf m a (seq ++ bs))
      else .error (packerOf m a ((seq ++ bs).take (8 * a.dstCap.toNat + 7))) := by
  induction bs generalizing seq with
  | nil => simp [Packer.emit, h]
  | cons b bs ih =>
    rw [Packer.emit, push_packerOf]
    by_cases hf : seq.length % 8 = 7 ∧ a.dstCap.toNat ≤ seq.length / 8
    · have hl : seq.length = 8 * a.dstCap.toNat + 7 := by omega
      rw [if_pos hf, if_neg (by simp; omega)]
      simp only [List.take_left' hl]
    · have := ih (seq ++ [b]) (by simp; omega)
      simp only [List.append_assoc, List.singleton_append] at this
      rw [if_neg hf]
      exact this

/-- `Flush()` (R68, R69) on a packer whose bytes all fit: the padding, or CAPACITY where its byte does not fit. -/
theorem flush_packerOf (m : Memory) (a : Latched) (seq : List Bool) (h : seq.length / 8 ≤ a.dstCap.toNat) :
    (packerOf m a seq).flush a =
      if bytesFor seq.length ≤ a.dstCap.toNat then
        .ok (packerOf m a (seq ++ List.replicate (padCount seq.length) false))
      else .error (packerOf m a ((seq ++ List.replicate (padCount seq.length) false).take (8 * a.dstCap.toNat + 7))) := by
  have : (seq ++ List.replicate (padCount seq.length) false).length / 8 = bytesFor seq.length := by
    simp only [List.length_append, List.length_replicate, padCount, bytesFor]; omega
  rw [Packer.flush, packerOf_nbits, emit_packerOf _ _ _ _ h, this]

/-- What the packer wrote: the whole bytes of the sequence, and nothing else. -/
theorem bits_packerOf (m : Memory) (a : Latched) (seq : List Bool) :
    Memory.bits (packerOf m a seq).mem a.dst (8 * (seq.length / 8)) = seq.take (8 * (seq.length / 8)) := by
  rw [Memory.bits_bytes]
  have := Memory.bytes_writeAll m a.dst (bytesOfBits (seq.length / 8) seq)
  rw [length_bytesOfBits] at this
  rw [packerOf, this, flatMap_byteBits_bytesOfBits _ _ (by omega)]

theorem sameOutside_packerOf (m : Memory) (a : Latched) (seq : List Bool) :
    sameOutside m (packerOf m a seq).mem a.dst (seq.length / 8) := by
  have := sameOutside_writeAll m a.dst (bytesOfBits (seq.length / 8) seq)
  rwa [length_bytesOfBits] at this

/-- A packer whose bytes fit a region inside DMEM keeps DMEM canonical. -/
theorem DmemOk.packerOf {p : Params} {m : Memory} (h : DmemOk p m) (a : Latched) (seq : List Bool)
    (hr : a.dst + seq.length / 8 ≤ p.memBytes) : DmemOk p (packerOf m a seq).mem :=
  h.writeAll _ (by simpa using hr)

end Sys2Proof.Machine
end

