-- ==== Sys2Proof/Laws/Tables.lean ====
section
/-! SUPPORT. The operations over FT, NODES and CT: one lemma for each that says what it can do (R112, R120, R150, R153, R160). -/

namespace Sys2Proof.Machine

/-! ## FT -/

theorem ftFind_eq_none {t : List FtEntry} {x : Sym} : ftFind t x = none ↔ x ∉ t.map (·.sym) := by
  simp only [ftFind, List.findIdx?_eq_none_iff, List.mem_map, not_exists, not_and, decide_eq_false_iff_not]

/-- `FtFind` answers the index of an entry of the symbol. -/
theorem ftFind_some {t : List FtEntry} {x : Sym} {i : Nat} (h : ftFind t x = some i) :
    ∃ hi : i < t.length, t[i].sym = x := by
  obtain ⟨hi, he, -⟩ := List.findIdx?_eq_some_iff_getElem.1 h
  exact ⟨hi, by simpa using he⟩

theorem ftInsertSorted_perm (t : List FtEntry) (e : FtEntry) : (ftInsertSorted t e).Perm (e :: t) := by
  induction t with
  | nil => exact .refl _
  | cons y ys ih =>
    rw [ftInsertSorted]
    split
    · exact .refl _
    · exact (ih.cons y).trans (.swap e y ys)

/-- `FtInsertSorted` keeps FT strictly ascending (R112, R40). -/
theorem ftInsertSorted_sorted {t : List FtEntry} {e : FtEntry} (h : (t.map (·.sym)).Pairwise (· < ·))
    (he : e.sym ∉ t.map (·.sym)) : ((ftInsertSorted t e).map (·.sym)).Pairwise (· < ·) := by
  induction t with
  | nil => simp [ftInsertSorted]
  | cons y ys ih =>
    simp only [List.map_cons, List.pairwise_cons, List.mem_cons, not_or] at h he
    rw [ftInsertSorted]
    split
    · rename_i hlt
      simp only [List.map_cons, List.pairwise_cons, List.mem_cons]
      refine ⟨?_, h⟩
      rintro z (rfl | hz)
      · exact hlt
      · exact BitVec.lt_trans hlt (h.1 z hz)
    · rename_i hlt
      simp only [List.map_cons, List.pairwise_cons]
      refine ⟨fun z hz => ?_, ih h.2 he.2⟩
      rw [((ftInsertSorted_perm ys e).map (·.sym)).mem_iff, List.map_cons, List.mem_cons] at hz
      rcases hz with rfl | hz
      · have := he.1
        bv_omega
      · exact h.1 z hz

/-- FREQ_COUNT's count of one symbol (R111) refuses exactly a new symbol of a full table. -/
theorem ftCount_eq_none {n : Nat} {t : List FtEntry} {x : Sym} :
    ftCount n t x = none ↔ x ∉ t.map (·.sym) ∧ t.length = n := by
  unfold ftCount
  split
  · rename_i h
    obtain ⟨hi, he⟩ := ftFind_some h
    simp only [reduceCtorEq, false_iff, not_and]
    exact fun hx => absurd (he ▸ List.mem_map_of_mem (List.getElem_mem hi)) hx
  · rename_i h
    simp [ftFind_eq_none.1 h]

/-! ## The working set -/

theorem insertByFreq_perm (nodes : List Node) (i : Nat) (ws : List Nat) :
    (insertByFreq nodes i ws).Perm (i :: ws) := by
  induction ws with
  | nil => exact .refl _
  | cons j js ih =>
    rw [insertByFreq]
    split
    · exact .refl _
    · exact (ih.cons j).trans (.swap i j js)

theorem stableSort_perm (nodes : List Node) (ws : List Nat) : (stableSort nodes ws).Perm ws := by
  induction ws with
  | nil => exact .refl _
  | cons i is ih => exact (insertByFreq_perm nodes i _).trans (ih.cons i)

theorem insertByFreq_sorted {nodes : List Node} {i : Nat} {ws : List Nat} (h : ws.Pairwise (before nodes))
    (hi : ∀ j ∈ ws, nodeFreq nodes i = nodeFreq nodes j → i < j) : (insertByFreq nodes i ws).Pairwise (before nodes) := by
  induction ws with
  | nil => simp [insertByFreq]
  | cons j js ih =>
    rw [List.pairwise_cons] at h
    rw [insertByFreq]
    split
    · rename_i hle
      rw [BitVec.le_def] at hle
      have hij := hi j List.mem_cons_self
      rw [← BitVec.toNat_inj] at hij
      refine List.pairwise_cons.2 ⟨fun k hk => ?_, List.pairwise_cons.2 h⟩
      rcases List.mem_cons.1 hk with rfl | hk'
      · unfold before; omega
      · have := h.1 k hk'
        have hik := hi k hk
        rw [← BitVec.toNat_inj] at hik
        unfold before at *
        omega
    · rename_i hle
      rw [BitVec.le_def] at hle
      refine List.pairwise_cons.2 ⟨fun k hk => ?_, ih h.2 fun k hk => hi k (List.mem_cons_of_mem _ hk)⟩
      rcases List.mem_cons.1 ((insertByFreq_perm nodes i js).mem_iff.1 hk) with rfl | hk'
      · unfold before; omega
      · exact h.1 k hk'

/-- The stable sort puts a working set whose equal keys stand in index order into the order of R122: by frequency, then
by index. -/
theorem stableSort_sorted (nodes : List Node) {ws : List Nat}
    (h : ws.Pairwise fun i j => nodeFreq nodes i = nodeFreq nodes j → i < j) :
    (stableSort nodes ws).Pairwise (before nodes) := by
  induction ws with
  | nil => simp [stableSort]
  | cons i is ih =>
    rw [List.pairwise_cons] at h
    exact insertByFreq_sorted (ih h.2) fun j hj => h.1 j ((stableSort_perm nodes is).mem_iff.1 hj)

/-- A new node at the end leaves the frequencies of the others. -/
theorem nodeFreq_append {nodes : List Node} {i : Nat} (h : i < nodes.length) (more : List Node) :
    nodeFreq (nodes ++ more) i = nodeFreq nodes i := by
  simp [nodeFreq, List.getElem?_append_left h]

/-- A path goes down in index: it is no longer than the distance from its start to the node it ends at (R41). -/
theorem follow_length {nodes : List Node} (h : ∀ i < nodes.length, nodeOk nodes i) {bits : List Bool} {i j : Nat}
    (hf : follow nodes i bits = some j) : bits.length + j ≤ i := by
  induction bits generalizing i with
  | nil => cases hf; simp
  | cons b bits ih =>
    rw [follow] at hf
    split at hf
    · rename_i l r f hn
      have hi : i < nodes.length := (List.getElem?_eq_some_iff.1 hn).1
      have ho := h i hi
      rw [nodeOk, hn] at ho
      have := ih hf
      simp only [List.length_cons]
      cases b <;> simp at this <;> omega
    · cases hf

/-- A tree with at most 256 nodes has no leaf too deep for the length field (R132). -/
theorem pathsFit_of_root {nodes : List Node} (h : ∀ i < nodes.length, nodeOk nodes i) {root : Nat}
    (hr : root ≤ Config.maxCodeLen) (n : Nat) : pathsFit nodes root n := by
  intro bits i hf _
  have := follow_length h hf
  omega

/-! ## CT -/

theorem ctLookup_eq_none {ct : List CtEntry} {x : Sym} : ctLookup ct x = none ↔ x ∉ ct.map (·.sym) := by
  simp only [ctLookup, List.find?_eq_none, List.mem_map, not_exists, not_and, decide_eq_true_eq]

theorem ctLookup_some {ct : List CtEntry} {x : Sym} {e : CtEntry} (h : ctLookup ct x = some e) : e ∈ ct ∧ e.sym = x :=
  ⟨List.mem_of_find?_eq_some h, by simpa using List.find?_some h⟩

/-- Distinct symbols (R44): the entry of a symbol is the one the lookup answers. -/
theorem ctLookup_of_mem {ct : List CtEntry} (h : (ct.map (·.sym)).Pairwise (· ≠ ·)) {e : CtEntry} (he : e ∈ ct) :
    ctLookup ct e.sym = some e := by
  induction ct with
  | nil => simp at he
  | cons f ct ih =>
    simp only [List.map_cons, List.pairwise_cons] at h
    rcases List.mem_cons.1 he with rfl | he'
    · simp [ctLookup]
    · have hf : ¬ f.sym = e.sym := h.1 _ (List.mem_map_of_mem he')
      rw [ctLookup, List.find?_cons_of_neg (by simpa using hf)]
      exact ih h.2 he'

theorem mapPut_length_le (t : List CtEntry) (e : CtEntry) : (mapPut t e).length ≤ t.length + 1 := by
  unfold mapPut; split <;> simp

/-- The symbols after a mapping insert (R153): those there were, and the entry's. -/
theorem mem_mapPut_syms (t : List CtEntry) (e : CtEntry) (x : Sym) :
    x ∈ (mapPut t e).map (·.sym) ↔ x = e.sym ∨ x ∈ t.map (·.sym) := by
  unfold mapPut
  split
  · rename_i h
    have : (t.map fun y => if y.sym = e.sym then e else y).map (·.sym) = t.map (·.sym) := by
      rw [List.map_map]
      apply List.map_congr_left
      intro y _
      simp only [Function.comp_apply]
      split <;> simp_all
    rw [this]
    constructor
    · exact .inr
    · rintro (rfl | hx)
      · exact h
      · exact hx
  · simp [or_comm]

/-- The deserializer's insert is a mapping insert, refused exactly for a new symbol of a full table (R150, R153). -/
theorem ctPut_eq (n : Nat) {t : List CtEntry} (h : (t.map (·.sym)).Pairwise (· ≠ ·)) (e : CtEntry) :
    ctPut n t e = if e.sym ∉ t.map (·.sym) ∧ t.length = n then none else some (mapPut t e) := by
  unfold ctPut
  split
  · rename_i i hi
    obtain ⟨hl, he, -⟩ := List.findIdx?_eq_some_iff_getElem.1 hi
    have he : t[i].sym = e.sym := by simpa using he
    have hm : e.sym ∈ t.map (·.sym) := he ▸ List.mem_map_of_mem (List.getElem_mem hl)
    rw [if_neg fun hh => hh.1 hm, mapPut, if_pos hm]
    congr 1
    apply List.ext_getElem (by simp)
    intro k h1 h2
    rw [List.getElem_set, List.getElem_map]
    simp only [List.length_set] at h1
    by_cases hk : i = k
    · subst hk; simp [he]
    · rw [if_neg hk, if_neg fun hs => ?_]
      have := List.pairwise_iff_getElem.1 h
      simp only [List.length_map, List.getElem_map] at this
      rcases Nat.lt_or_gt_of_ne hk with lt | lt
      · exact this i k hl h1 lt (he.trans hs.symm)
      · exact this k i h1 hl lt (hs.trans he.symm)
  · rename_i hi
    have hm : e.sym ∉ t.map (·.sym) := by
      simpa only [List.findIdx?_eq_none_iff, List.mem_map, not_exists, not_and, decide_eq_false_iff_not] using hi
    simp only [hm, not_false_eq_true, true_and, mapPut, if_false]

theorem maxLen_foldl (ct : List CtEntry) (k : Nat) :
    ct.foldl (fun m e => max m e.len.toNat) k = max k (maxLen ct) := by
  unfold maxLen
  induction ct generalizing k with
  | nil => simp
  | cons e ct ih => rw [List.foldl_cons, ih, List.foldl_cons, ih (max 0 _)]; omega

@[simp] theorem maxLen_nil : maxLen [] = 0 := rfl

theorem maxLen_cons (e : CtEntry) (ct : List CtEntry) : maxLen (e :: ct) = max e.len.toNat (maxLen ct) := by
  rw [maxLen, List.foldl_cons, maxLen_foldl]; omega

theorem len_le_maxLen {ct : List CtEntry} {e : CtEntry} (h : e ∈ ct) : e.len.toNat ≤ maxLen ct := by
  induction ct with
  | nil => simp at h
  | cons f ct ih =>
    rw [maxLen_cons]
    rcases List.mem_cons.1 h with rfl | h
    · omega
    · have := ih h; omega

theorem maxLen_le (ct : List CtEntry) : maxLen ct ≤ Config.maxCodeLen := by
  induction ct with
  | nil => simp
  | cons f ct ih => rw [maxLen_cons]; have := f.len.isLt; simp only [Config.maxCodeLen] at *; omega

@[simp] theorem length_codeBits (e : CtEntry) : (codeBits e).length = e.len.toNat := length_bin _ _

/-- A code's bits write its value (R12, R62). -/
theorem bitsNat_codeBits {e : CtEntry} (h : e.value.toNat < 2 ^ e.len.toNat) : bitsNat (codeBits e) = e.value.toNat := by
  rw [codeBits, bitsNat_bin, Nat.mod_eq_of_lt h]

/-- Two codes with the same bits are the same (value, len) pair. -/
theorem codeBits_inj {e f : CtEntry} (he : e.value.toNat < 2 ^ e.len.toNat) (hf : f.value.toNat < 2 ^ f.len.toNat)
    (h : codeBits e = codeBits f) : e.value = f.value ∧ e.len = f.len := by
  have hl := congrArg List.length h
  have hv := congrArg bitsNat h
  rw [length_codeBits, length_codeBits] at hl
  rw [bitsNat_codeBits he, bitsNat_codeBits hf] at hv
  exact ⟨BitVec.eq_of_toNat_eq hv, BitVec.eq_of_toNat_eq hl⟩

/-! ## Serialized entries -/

@[simp] theorem length_flatMap_byteBits (us : List Byte) : (us.flatMap byteBits).length = 8 * us.length := by
  induction us with
  | nil => rfl
  | cons u us ih => simp [ih]; ring

@[simp] theorem length_entryBits (e : CtEntry) :
    (entryBits e).length = 8 * (utf8Encode e.sym).length + 8 + e.len.toNat := by
  simp [entryBits]; ring

theorem tableBits_cons (e : CtEntry) (es : List CtEntry) : tableBits (e :: es) = entryBits e ++ tableBits es := rfl

theorem tableBits_append (es fs : List CtEntry) : tableBits (es ++ fs) = tableBits es ++ tableBits fs :=
  List.flatMap_append

/-- Reading a serialized entry (R97, R150) gives the entry and takes its bits. -/
theorem readEntry_entryBits (e : CtEntry) (rest : List Bool) (hs : isScalar e.sym.toNat = true)
    (hv : e.value.toNat < 2 ^ e.len.toNat) :
    readEntry (entryBits e ++ rest) = .entry e (entryBits e).length := by
  obtain ⟨⟨u, us, hu, hl⟩, hd⟩ := utf8_roundtrip e.sym hs
  have hb : entryBits e ++ rest =
      (utf8Encode e.sym).flatMap byteBits ++ (bin 8 e.len.toNat ++ (bin e.len.toNat e.value.toNat ++ rest)) := by
    simp [entryBits]
  have hlead : BitVec.ofNat 8 (bitsNat ((entryBits e ++ rest).take 8)) = u := by
    rw [hb, hu, List.flatMap_cons, List.append_assoc, List.take_left' (length_byteBits u), ofBits_byteBits]
  have hlen : e.len.toNat < 2 ^ 8 := e.len.isLt
  have hdrop : (entryBits e ++ rest).drop (8 * (utf8Encode e.sym).length) =
      bin 8 e.len.toNat ++ (bin e.len.toNat e.value.toNat ++ rest) := by
    rw [hb, List.drop_left' (length_flatMap_byteBits _)]
  have hbytes : bytesOfBits (utf8Encode e.sym).length (entryBits e ++ rest) = utf8Encode e.sym := by
    rw [hb, bytesOfBits_flatMap]
  have h1 : ¬ (entryBits e ++ rest).length < 8 * (utf8Encode e.sym).length := by simp; omega
  have h2 : ¬ (bin 8 e.len.toNat ++ (bin e.len.toNat e.value.toNat ++ rest)).length < 8 := by simp
  have h3 : ¬ (bin e.len.toNat e.value.toNat ++ rest).length < e.len.toNat := by simp
  simp only [readEntry, hlead, hl, h1, if_false, hbytes, hd, hdrop, h2, List.take_left' (length_bin 8 _),
    List.drop_left' (length_bin 8 _), bitsNat_bin, Nat.mod_eq_of_lt hlen, h3, List.take_left' (length_bin e.len.toNat _),
    Nat.mod_eq_of_lt hv, BitVec.ofNat_toNat, BitVec.setWidth_eq, length_entryBits]

end Sys2Proof.Machine
end

