-- ==== Sys2Proof/Laws/Loops.lean ====
section
/-! SUPPORT. The commands' loops (R111, R140, R150, R160, R171): what each does over the well-formed part of its input. -/

namespace Sys2Proof.Machine

theorem textCode_cons (ct : List CtEntry) (x : Sym) (text : List Sym) :
    textCode ct (x :: text) = (match ctLookup ct x with | some e => codeBits e | none => []) ++ textCode ct text := rfl

theorem textCode_append (ct : List CtEntry) (s t : List Sym) : textCode ct (s ++ t) = textCode ct s ++ textCode ct t :=
  List.flatMap_append

/-! ## FREQ_COUNT -/

/-- One turn of FREQ_COUNT's loop at an encoded symbol (R111). -/
theorem freqLoop_symbol (n fuel : Nat) (x : Sym) (rest : List Byte) (l : FreqLoop) (hx : isScalar x.toNat = true) :
    freqLoop n (fuel + 1) (utf8Encode x ++ rest) l =
      match ftCount n l.new x with
      | none => .error (.capacity, l)
      | some t => freqLoop n fuel rest ⟨t, l.pos + (utf8Encode x).length, l.nsym + 1⟩ := by
  have hn := nextSymbol_utf8Encode x hx rest
  have hd : (utf8Encode x ++ rest).drop (utf8Encode x).length = rest := List.drop_left
  obtain ⟨b, bs, e⟩ : ∃ b bs, utf8Encode x ++ rest = b :: bs :=
    List.exists_cons_of_length_pos (by simp; exact .inl (utf8Encode_length_pos x))
  rw [e] at hn hd ⊢
  simp only [freqLoop, hn, hd] <;> rfl

/-- FREQ_COUNT's table after one symbol is counted (R111): sorted still, with the same symbols and the one counted. -/
theorem ftCount_some {n : Nat} {t t' : List FtEntry} {x : Sym} (h : ftCount n t x = some t')
    (hs : (t.map (·.sym)).Pairwise (· < ·)) :
    (t'.map (·.sym)).Pairwise (· < ·) ∧ (∀ y, y ∈ t'.map (·.sym) ↔ y = x ∨ y ∈ t.map (·.sym)) := by
  unfold ftCount at h
  split at h
  · rename_i i hi
    obtain ⟨hl, he⟩ := ftFind_some hi
    cases h
    have hm : (t.modify i fun e => { e with cnt := e.cnt + 1 }).map (·.sym) = t.map (·.sym) := by
      apply List.ext_getElem (by simp)
      intro k _ _
      simp only [List.getElem_map, List.getElem_modify]
      split <;> rfl
    rw [hm]
    refine ⟨hs, fun y => ⟨.inr, ?_⟩⟩
    rintro (rfl | hy)
    · exact he ▸ List.mem_map_of_mem (List.getElem_mem hl)
    · exact hy
  · rename_i hi
    have hx := ftFind_eq_none.1 hi
    split at h
    · cases h
    · cases h
      refine ⟨ftInsertSorted_sorted hs hx, fun y => ?_⟩
      rw [((ftInsertSorted_perm t ⟨x, 1⟩).map (·.sym)).mem_iff, List.map_cons, List.mem_cons]

/-! ## TABLE_SER and TABLE_DESER -/

/-- TABLE_SER's loop over entries that fit (R140): it has emitted their bits. -/
theorem serLoop_fits (m : Memory) (a : Latched) (es : List CtEntry) (j : Nat) (seq : List Bool)
    (h : (seq ++ tableBits es).length / 8 ≤ a.dstCap.toNat) :
    serLoop a es j (packerOf m a seq) = .ok (packerOf m a (seq ++ tableBits es)) := by
  induction es generalizing j seq with
  | nil => simp [serLoop, tableBits]
  | cons e es ih =>
    rw [tableBits_cons, ← List.append_assoc] at h ⊢
    have : (seq ++ entryBits e).length / 8 ≤ a.dstCap.toNat := by simp at h ⊢; omega
    rw [serLoop, emit_packerOf _ _ _ _ (by simp at this ⊢; omega), if_pos this]
    exact ih (j + 1) (seq ++ entryBits e) h

/-- TABLE_SER's loop at the entry that does not fit (R140): the error names its index, and the packer has emitted every
bit before the one that completes the first byte that does not fit. -/
theorem serLoop_full (m : Memory) (a : Latched) (es : List CtEntry) (e : CtEntry) (fs : List CtEntry) (j : Nat)
    (seq : List Bool) (h : (seq ++ tableBits es).length / 8 ≤ a.dstCap.toNat)
    (hf : a.dstCap.toNat < (seq ++ tableBits es ++ entryBits e).length / 8) :
    serLoop a (es ++ e :: fs) j (packerOf m a seq) =
      .error (j + es.length,
        packerOf m a ((seq ++ tableBits es ++ entryBits e).take (8 * a.dstCap.toNat + 7))) := by
  induction es generalizing j seq with
  | nil =>
    simp only [tableBits, List.flatMap_nil, List.append_nil] at h hf ⊢
    rw [List.nil_append, serLoop, emit_packerOf _ _ _ _ h, if_neg (by omega)]
    rfl
  | cons d es ih =>
    rw [tableBits_cons, ← List.append_assoc] at h hf ⊢
    have : (seq ++ entryBits d).length / 8 ≤ a.dstCap.toNat := by simp at h ⊢; omega
    rw [List.cons_append, serLoop, emit_packerOf _ _ _ _ (by simp at this ⊢; omega), if_pos this]
    have := ih (j + 1) (seq ++ entryBits d) h hf
    simp only [this, List.length_cons]
    rw [Nat.add_assoc, Nat.add_comm 1]

/-- One turn of TABLE_DESER's loop at a serialized entry (R150). -/
theorem deserLoop_entry (n fuel : Nat) (e : CtEntry) (rest : List Bool) (pos nread : Nat) (t : List CtEntry)
    (hs : isScalar e.sym.toNat = true) (hv : e.value.toNat < 2 ^ e.len.toNat) :
    deserLoop n (fuel + 1) ⟨entryBits e ++ rest, pos, t, nread⟩ =
      match ctPut n t e with
      | none => .error (.capacity, ⟨entryBits e ++ rest, pos, t, nread⟩)
      | some t' => deserLoop n fuel ⟨rest, pos + (entryBits e).length, t', nread + 1⟩ := by
  rw [deserLoop, if_neg (by simp; omega)]
  simp only [readEntry_entryBits e rest hs hv, List.drop_left] <;> rfl

/-! ## TEXT_ENCODE -/

/-- One turn of TEXT_ENCODE's loop at an encoded symbol (R160). -/
theorem encLoop_symbol (ct : List CtEntry) (a : Latched) (fuel : Nat) (x : Sym) (rest : List Byte) (l : EncLoop)
    (hx : isScalar x.toNat = true) :
    encLoop ct a (fuel + 1) (utf8Encode x ++ rest) l =
      match ctLookup ct x with
      | none => .error (.missingSymbol, l)
      | some e =>
        match l.pk.emit a (codeBits e) with
        | .error p => .error (.capacity, { l with pk := p })
        | .ok p => encLoop ct a fuel rest ⟨p, l.pos + (utf8Encode x).length, l.nsym + 1⟩ := by
  have hn := nextSymbol_utf8Encode x hx rest
  have hd : (utf8Encode x ++ rest).drop (utf8Encode x).length = rest := List.drop_left
  obtain ⟨b, bs, e⟩ : ∃ b bs, utf8Encode x ++ rest = b :: bs :=
    List.exists_cons_of_length_pos (by simp; exact .inl (utf8Encode_length_pos x))
  rw [e] at hn hd ⊢
  simp only [encLoop, hn, hd] <;> rfl

/-- TEXT_ENCODE's loop over a text CT covers and whose codes fit (R160): it has emitted them, one turn a symbol. -/
theorem encLoop_text (ct : List CtEntry) (a : Latched) (m : Memory) (text : List Sym) (rest : List Byte) (fuel : Nat)
    (seq : List Bool) (pos nsym : Nat) (hs : allScalar text) (hc : covers ct text)
    (h : (seq ++ textCode ct text).length / 8 ≤ a.dstCap.toNat) :
    encLoop ct a (text.length + fuel) (textBytes text ++ rest) ⟨packerOf m a seq, pos, nsym⟩ =
      encLoop ct a fuel rest
        ⟨packerOf m a (seq ++ textCode ct text), pos + (textBytes text).length, nsym + text.length⟩ := by
  induction text generalizing seq pos nsym with
  | nil => simp [textCode, textBytes]
  | cons x text ih =>
    obtain ⟨e, he⟩ : ∃ e, ctLookup ct x = some e := by
      cases hl : ctLookup ct x with
      | none => exact absurd (hc x List.mem_cons_self) (ctLookup_eq_none.1 hl)
      | some e => exact ⟨e, rfl⟩
    rw [textCode_cons, he, ← List.append_assoc] at h
    have hfit : (seq ++ codeBits e).length / 8 ≤ a.dstCap.toNat := by simp at h ⊢; omega
    rw [textBytes_cons, List.append_assoc, List.length_cons, Nat.add_right_comm,
      encLoop_symbol _ _ _ _ _ _ (hs x List.mem_cons_self), he]
    simp only [emit_packerOf _ _ _ _ (show seq.length / 8 ≤ a.dstCap.toNat by simp at hfit; omega), if_pos hfit]
    rw [ih _ _ _ (fun y hy => hs y (List.mem_cons_of_mem _ hy)) (fun y hy => hc y (List.mem_cons_of_mem _ hy)) h,
      textCode_cons, he]
    congr 2
    · simp
    · simp; omega
    · omega

/-! ## TEXT_DECODE -/

theorem textLength_le (text : List Sym) : text.length ≤ (textBytes text).length := by
  induction text with
  | nil => simp
  | cons x text ih => have := utf8Encode_length_pos x; simp [textBytes_cons]; omega

/-- The loop over a concatenation runs its first part, then its second. -/
theorem decLoop_append (ct : List CtEntry) (a : Latched) (bs cs : List Bool) (l : DecLoop) :
    decLoop ct a (bs ++ cs) l =
      match decLoop ct a bs l with
      | .error e => .error e
      | .ok l' => decLoop ct a cs l' := by
  induction bs generalizing l with
  | nil => rfl
  | cons b bs ih =>
    rw [List.cons_append, decLoop, decLoop]
    cases decTurn ct a l b with
    | error e => rfl
    | ok l' => exact ih l'

/-- A prefix-free table repeats no (value, len) pair. -/
theorem distinct_of_prefixFree {ct : List CtEntry} (h : PrefixFree ct) :
    ct.Pairwise fun e f => ¬ (e.value = f.value ∧ e.len = f.len) :=
  h.imp fun hef he => hef.1 (by rw [codeBits, codeBits, he.1, he.2])

/-- A table that passes the check of R170 repeats no (value, len) pair. -/
theorem distinct_of_firstDuplicate {ct : List CtEntry} (h : firstDuplicate ct = none) :
    ct.Pairwise fun e f => ¬ (e.value = f.value ∧ e.len = f.len) := by
  rw [List.pairwise_iff_getElem]
  intro i j hi hj hij hp
  have hr := List.find?_eq_none.1 h j (List.mem_range.2 hj)
  rw [repeatsPair, List.getElem?_eq_getElem hj] at hr
  exact hr (List.any_eq_true.2 ⟨ct[i], List.mem_take_iff_getElem.2 ⟨i, by omega, rfl⟩, by simp [hp.1, hp.2]⟩)

/-- `INV` (R45) under distinct pairs answers the symbol of the entry with those code bits. -/
theorem invLookup_eq {ct : List CtEntry} (hp : ct.Pairwise fun e f => ¬ (e.value = f.value ∧ e.len = f.len))
    (hv : ∀ e ∈ ct, e.value.toNat < 2 ^ e.len.toNat) {e : CtEntry} (he : e ∈ ct) :
    invLookup ct (bitsNat (codeBits e)) (codeBits e).length = some e.sym := by
  rw [bitsNat_codeBits (hv e he), length_codeBits]
  induction ct with
  | nil => simp at he
  | cons f ct ih =>
    have hp := List.pairwise_cons.1 hp
    rcases List.mem_cons.1 he with rfl | he'
    · simp [invLookup]
    · have hne : ¬ (f.value.toNat = e.value.toNat ∧ f.len.toNat = e.len.toNat) := fun h =>
        hp.1 e he' ⟨BitVec.eq_of_toNat_eq h.1, BitVec.eq_of_toNat_eq h.2⟩
      rw [invLookup, List.find?_cons_of_neg (by simpa using hne)]
      exact ih hp.2 (fun x hx => hv x (List.mem_cons_of_mem _ hx)) he'

/-- `INV` answers only for the bits of a code. -/
theorem invLookup_some {ct : List CtEntry} {bs : List Bool} {x : Sym}
    (h : invLookup ct (bitsNat bs) bs.length = some x) : ∃ e ∈ ct, e.sym = x ∧ codeBits e = bs := by
  simp only [invLookup, Option.map_eq_some_iff] at h
  obtain ⟨e, he, hx⟩ := h
  have h2 := List.find?_some he
  simp only [Bool.and_eq_true, decide_eq_true_eq] at h2
  exact ⟨e, List.mem_of_find?_eq_some he, hx, by rw [codeBits, h2.1, h2.2, bin_bitsNat]⟩

theorem bitsNat_concat (bs : List Bool) (b : Bool) : bitsNat (bs ++ [b]) = 2 * bitsNat bs + b.toNat := by
  simp [bitsNat]

/-- TEXT_DECODE's loop over bits that complete no code, in a run that began with `pre` (R171, R174): it consumes them. -/
theorem decLoop_unmatched {ct : List CtEntry} (a : Latched) (h1 : singleSym ct = none) (bs pre : List Bool) (l : DecLoop)
    (ha : l.acc = bitsNat pre) (hd : l.depth = pre.length)
    (hn : ∀ e ∈ ct, 1 ≤ e.len.toNat → ¬ codeBits e <+: pre ++ bs) (hm : (pre ++ bs).length ≤ maxLen ct) :
    decLoop ct a bs l =
      .ok { l with acc := bitsNat (pre ++ bs), depth := (pre ++ bs).length, k := l.k + bs.length } := by
  induction bs generalizing pre l with
  | nil => cases l; simp_all [decLoop]
  | cons b bs ih =>
    have hnone : invLookup ct (bitsNat (pre ++ [b])) (pre ++ [b]).length = none := by
      by_contra hc
      obtain ⟨x, hx⟩ := Option.ne_none_iff_exists'.1 hc
      obtain ⟨e, he, -, hb⟩ := invLookup_some hx
      have hl := congrArg List.length hb
      rw [length_codeBits, List.length_append, List.length_singleton] at hl
      exact hn e he (by omega) ⟨bs, by simp [hb]⟩
    rw [List.append_cons] at hn hm ⊢
    have hlen : ¬ maxLen ct < (pre ++ [b]).length := by simp at hm ⊢; omega
    rw [decLoop, decTurn, h1]
    simp only [decBit, ha, hd, ← bitsNat_concat]
    rw [List.length_append, List.length_singleton] at hnone hlen
    simp only [hnone, if_neg hlen]
    rw [ih (pre ++ [b]) _ rfl (by simp) hn hm]
    simp [Nat.add_assoc, Nat.add_comm 1]

/-- TEXT_DECODE's loop over the code of an entry that is its own shortest match, at the start of a run (R170, R171): it emits
the entry's symbol at the code's last bit. -/
theorem decLoop_code {ct : List CtEntry} (a : Latched) (h1 : singleSym ct = none)
    (hp : ct.Pairwise fun e f => ¬ (e.value = f.value ∧ e.len = f.len)) (hv : ∀ e ∈ ct, e.value.toNat < 2 ^ e.len.toNat)
    {e : CtEntry} (hs : shortestMatches ct [e]) (l : DecLoop) (ha : l.acc = 0) (hd : l.depth = 0) :
    decLoop ct a (codeBits e) l =
      matchSym a { l with acc := e.value.toNat, depth := e.len.toNat, k := l.k + e.len.toNat } e.sym := by
  obtain ⟨he, h1e, hf⟩ := hs e List.mem_cons_self
  obtain ⟨bs, b, hb⟩ : ∃ bs b, codeBits e = bs ++ [b] := by
    rcases List.eq_nil_or_concat (codeBits e) with h | ⟨bs, b, h⟩
    · have := length_codeBits e; rw [h] at this; simp at this; omega
    · exact ⟨bs, b, by simpa using h⟩
  have hl : bs.length + 1 = e.len.toNat := by rw [← length_codeBits, hb]; simp
  have hi := invLookup_eq hp hv he
  have hval := bitsNat_codeBits (hv e he)
  rw [hb, bitsNat_concat] at hval
  rw [hb, bitsNat_concat, hval, List.length_append, List.length_singleton, hl] at hi
  have hm := len_le_maxLen he
  rw [hb, decLoop_append, decLoop_unmatched a h1 bs [] l ha hd ?_ (by simp; omega)]
  · simp only [List.nil_append, decLoop, decTurn, h1, decBit, hi, hval, hl, Nat.add_assoc]
    cases matchSym a _ e.sym <;> rfl
  · intro f hfc h1f hpre
    have hlf := hpre.length_le
    rw [length_codeBits, List.nil_append] at hlf
    exact hf f hfc h1f (by omega) (hpre.trans (hb ▸ List.prefix_append _ _))

end Sys2Proof.Machine
end

