-- ==== Sys2Proof/Laws/PerInstr.lean ====
section
/-! SUPPORT. The statements made of every instruction as syntax, one lemma per constructor: its word is that of its row of the opcode map (R91, R93, R95). -/

namespace Sys2Proof.Laws.EncodingInTable

/-- Instruction i's word lies in exactly one row of the opcode map, which is i's, and at the CMD port it is a well-formed
command word. -/
def Statement (i : Instr) : Prop :=
  i.wf = true ∧ (opcodeRows.filter fun r => r.matches (encode i).1 (encode i).2).map (·.instr) = [i] ∧
  ((encode i).1 = .cmd → cmdWordWf (encode i).2 = true)

theorem nop : Statement .nop := by unfold Statement; decide
theorem ftClear : Statement .ftClear := by unfold Statement; decide
theorem freqCount : Statement .freqCount := by unfold Statement; decide
theorem ftInsert : Statement .ftInsert := by unfold Statement; decide
theorem treeBuild : Statement .treeBuild := by unfold Statement; decide
theorem codeGen : Statement .codeGen := by unfold Statement; decide
theorem ctClear : Statement .ctClear := by unfold Statement; decide
theorem tableSer : Statement .tableSer := by unfold Statement; decide
theorem tableDeser : Statement .tableDeser := by unfold Statement; decide
theorem textEncode : Statement .textEncode := by unfold Statement; decide
theorem textDecode : Statement .textDecode := by unfold Statement; decide
theorem softReset : Statement .softReset := by unfold Statement; decide

end Sys2Proof.Laws.EncodingInTable
end

