-- ==== Sys2Proof/Laws/State.lean ====
section
/-! SUPPORT. One lemma per field per named update of the state, so that no proof unfolds an update; each is true by rfl. -/

namespace Sys2Proof.Machine

variable (s : State)

/-! ## complete -/

@[simp] theorem State.complete_params : (s.complete).params = s.params := rfl
@[simp] theorem State.complete_irqEn : (s.complete).irqEn = s.irqEn := rfl
@[simp] theorem State.complete_cmd : (s.complete).cmd = s.cmd := rfl
@[simp] theorem State.complete_busy : (s.complete).busy = false := rfl
@[simp] theorem State.complete_done : (s.complete).done = true := rfl
@[simp] theorem State.complete_ovr : (s.complete).ovr = s.ovr := rfl
@[simp] theorem State.complete_treeValid : (s.complete).treeValid = s.treeValid := rfl
@[simp] theorem State.complete_errcode : (s.complete).errcode = s.errcode := rfl
@[simp] theorem State.complete_errInfo : (s.complete).errInfo = s.errInfo := rfl
@[simp] theorem State.complete_srcAddr : (s.complete).srcAddr = s.srcAddr := rfl
@[simp] theorem State.complete_srcLen : (s.complete).srcLen = s.srcLen := rfl
@[simp] theorem State.complete_dstAddr : (s.complete).dstAddr = s.dstAddr := rfl
@[simp] theorem State.complete_dstCap : (s.complete).dstCap = s.dstCap := rfl
@[simp] theorem State.complete_arg0 : (s.complete).arg0 = s.arg0 := rfl
@[simp] theorem State.complete_arg1 : (s.complete).arg1 = s.arg1 := rfl
@[simp] theorem State.complete_result0 : (s.complete).result0 = s.result0 := rfl
@[simp] theorem State.complete_result1 : (s.complete).result1 = s.result1 := rfl
@[simp] theorem State.complete_result2 : (s.complete).result2 = s.result2 := rfl
@[simp] theorem State.complete_result3 : (s.complete).result3 = s.result3 := rfl
@[simp] theorem State.complete_idx : (s.complete).idx = s.idx := rfl
@[simp] theorem State.complete_ft : (s.complete).ft = s.ft := rfl
@[simp] theorem State.complete_nodes : (s.complete).nodes = s.nodes := rfl
@[simp] theorem State.complete_root : (s.complete).root = s.root := rfl
@[simp] theorem State.complete_ct : (s.complete).ct = s.ct := rfl
@[simp] theorem State.complete_a : (s.complete).a = Latched.absent := rfl
@[simp] theorem State.complete_dmem : (s.complete).dmem = s.dmem := rfl
@[simp] theorem State.complete_host : (s.complete).host = s.host := rfl
@[simp] theorem State.complete_sched : (s.complete).sched = s.sched := rfl
@[simp] theorem State.complete_rdata : (s.complete).rdata = s.rdata := rfl
@[simp] theorem State.complete_draws : (s.complete).draws = s.draws := rfl

/-! ## raise -/

@[simp] theorem State.raise_params (e : ErrCode) (i : Word) : (s.raise e i).params = s.params := rfl
@[simp] theorem State.raise_irqEn (e : ErrCode) (i : Word) : (s.raise e i).irqEn = s.irqEn := rfl
@[simp] theorem State.raise_cmd (e : ErrCode) (i : Word) : (s.raise e i).cmd = s.cmd := rfl
@[simp] theorem State.raise_busy (e : ErrCode) (i : Word) : (s.raise e i).busy = false := rfl
@[simp] theorem State.raise_done (e : ErrCode) (i : Word) : (s.raise e i).done = true := rfl
@[simp] theorem State.raise_ovr (e : ErrCode) (i : Word) : (s.raise e i).ovr = s.ovr := rfl
@[simp] theorem State.raise_treeValid (e : ErrCode) (i : Word) : (s.raise e i).treeValid = s.treeValid := rfl
@[simp] theorem State.raise_errcode (e : ErrCode) (i : Word) : (s.raise e i).errcode = e := rfl
@[simp] theorem State.raise_errInfo (e : ErrCode) (i : Word) : (s.raise e i).errInfo = i := rfl
@[simp] theorem State.raise_srcAddr (e : ErrCode) (i : Word) : (s.raise e i).srcAddr = s.srcAddr := rfl
@[simp] theorem State.raise_srcLen (e : ErrCode) (i : Word) : (s.raise e i).srcLen = s.srcLen := rfl
@[simp] theorem State.raise_dstAddr (e : ErrCode) (i : Word) : (s.raise e i).dstAddr = s.dstAddr := rfl
@[simp] theorem State.raise_dstCap (e : ErrCode) (i : Word) : (s.raise e i).dstCap = s.dstCap := rfl
@[simp] theorem State.raise_arg0 (e : ErrCode) (i : Word) : (s.raise e i).arg0 = s.arg0 := rfl
@[simp] theorem State.raise_arg1 (e : ErrCode) (i : Word) : (s.raise e i).arg1 = s.arg1 := rfl
@[simp] theorem State.raise_result0 (e : ErrCode) (i : Word) : (s.raise e i).result0 = s.result0 := rfl
@[simp] theorem State.raise_result1 (e : ErrCode) (i : Word) : (s.raise e i).result1 = s.result1 := rfl
@[simp] theorem State.raise_result2 (e : ErrCode) (i : Word) : (s.raise e i).result2 = s.result2 := rfl
@[simp] theorem State.raise_result3 (e : ErrCode) (i : Word) : (s.raise e i).result3 = s.result3 := rfl
@[simp] theorem State.raise_idx (e : ErrCode) (i : Word) : (s.raise e i).idx = s.idx := rfl
@[simp] theorem State.raise_ft (e : ErrCode) (i : Word) : (s.raise e i).ft = s.ft := rfl
@[simp] theorem State.raise_nodes (e : ErrCode) (i : Word) : (s.raise e i).nodes = s.nodes := rfl
@[simp] theorem State.raise_root (e : ErrCode) (i : Word) : (s.raise e i).root = s.root := rfl
@[simp] theorem State.raise_ct (e : ErrCode) (i : Word) : (s.raise e i).ct = s.ct := rfl
@[simp] theorem State.raise_a (e : ErrCode) (i : Word) : (s.raise e i).a = Latched.absent := rfl
@[simp] theorem State.raise_dmem (e : ErrCode) (i : Word) : (s.raise e i).dmem = s.dmem := rfl
@[simp] theorem State.raise_host (e : ErrCode) (i : Word) : (s.raise e i).host = s.host := rfl
@[simp] theorem State.raise_sched (e : ErrCode) (i : Word) : (s.raise e i).sched = s.sched := rfl
@[simp] theorem State.raise_rdata (e : ErrCode) (i : Word) : (s.raise e i).rdata = s.rdata := rfl
@[simp] theorem State.raise_draws (e : ErrCode) (i : Word) : (s.raise e i).draws = s.draws := rfl

/-! ## start -/

@[simp] theorem State.start_params (w : Word) : (s.start w).params = s.params := rfl
@[simp] theorem State.start_irqEn (w : Word) : (s.start w).irqEn = s.irqEn := rfl
@[simp] theorem State.start_cmd (w : Word) : (s.start w).cmd = w := rfl
@[simp] theorem State.start_busy (w : Word) : (s.start w).busy = true := rfl
@[simp] theorem State.start_done (w : Word) : (s.start w).done = false := rfl
@[simp] theorem State.start_ovr (w : Word) : (s.start w).ovr = s.ovr := rfl
@[simp] theorem State.start_treeValid (w : Word) : (s.start w).treeValid = s.treeValid := rfl
@[simp] theorem State.start_errcode (w : Word) : (s.start w).errcode = .none := rfl
@[simp] theorem State.start_errInfo (w : Word) : (s.start w).errInfo = 0 := rfl
@[simp] theorem State.start_srcAddr (w : Word) : (s.start w).srcAddr = s.srcAddr := rfl
@[simp] theorem State.start_srcLen (w : Word) : (s.start w).srcLen = s.srcLen := rfl
@[simp] theorem State.start_dstAddr (w : Word) : (s.start w).dstAddr = s.dstAddr := rfl
@[simp] theorem State.start_dstCap (w : Word) : (s.start w).dstCap = s.dstCap := rfl
@[simp] theorem State.start_arg0 (w : Word) : (s.start w).arg0 = s.arg0 := rfl
@[simp] theorem State.start_arg1 (w : Word) : (s.start w).arg1 = s.arg1 := rfl
@[simp] theorem State.start_result0 (w : Word) : (s.start w).result0 = 0 := rfl
@[simp] theorem State.start_result1 (w : Word) : (s.start w).result1 = 0 := rfl
@[simp] theorem State.start_result2 (w : Word) : (s.start w).result2 = 0 := rfl
@[simp] theorem State.start_result3 (w : Word) : (s.start w).result3 = 0 := rfl
@[simp] theorem State.start_idx (w : Word) : (s.start w).idx = s.idx := rfl
@[simp] theorem State.start_ft (w : Word) : (s.start w).ft = s.ft := rfl
@[simp] theorem State.start_nodes (w : Word) : (s.start w).nodes = s.nodes := rfl
@[simp] theorem State.start_root (w : Word) : (s.start w).root = s.root := rfl
@[simp] theorem State.start_ct (w : Word) : (s.start w).ct = s.ct := rfl
@[simp] theorem State.start_a (w : Word) : (s.start w).a = s.latch w := rfl
@[simp] theorem State.start_dmem (w : Word) : (s.start w).dmem = s.dmem := rfl
@[simp] theorem State.start_host (w : Word) : (s.start w).host = s.host := rfl
@[simp] theorem State.start_sched (w : Word) : (s.start w).sched = s.sched := rfl
@[simp] theorem State.start_rdata (w : Word) : (s.start w).rdata = s.rdata := rfl
@[simp] theorem State.start_draws (w : Word) : (s.start w).draws = s.draws := rfl

/-! ## dropTree -/

@[simp] theorem State.dropTree_params : (s.dropTree).params = s.params := rfl
@[simp] theorem State.dropTree_irqEn : (s.dropTree).irqEn = s.irqEn := rfl
@[simp] theorem State.dropTree_cmd : (s.dropTree).cmd = s.cmd := rfl
@[simp] theorem State.dropTree_busy : (s.dropTree).busy = s.busy := rfl
@[simp] theorem State.dropTree_done : (s.dropTree).done = s.done := rfl
@[simp] theorem State.dropTree_ovr : (s.dropTree).ovr = s.ovr := rfl
@[simp] theorem State.dropTree_treeValid : (s.dropTree).treeValid = false := rfl
@[simp] theorem State.dropTree_errcode : (s.dropTree).errcode = s.errcode := rfl
@[simp] theorem State.dropTree_errInfo : (s.dropTree).errInfo = s.errInfo := rfl
@[simp] theorem State.dropTree_srcAddr : (s.dropTree).srcAddr = s.srcAddr := rfl
@[simp] theorem State.dropTree_srcLen : (s.dropTree).srcLen = s.srcLen := rfl
@[simp] theorem State.dropTree_dstAddr : (s.dropTree).dstAddr = s.dstAddr := rfl
@[simp] theorem State.dropTree_dstCap : (s.dropTree).dstCap = s.dstCap := rfl
@[simp] theorem State.dropTree_arg0 : (s.dropTree).arg0 = s.arg0 := rfl
@[simp] theorem State.dropTree_arg1 : (s.dropTree).arg1 = s.arg1 := rfl
@[simp] theorem State.dropTree_result0 : (s.dropTree).result0 = s.result0 := rfl
@[simp] theorem State.dropTree_result1 : (s.dropTree).result1 = s.result1 := rfl
@[simp] theorem State.dropTree_result2 : (s.dropTree).result2 = s.result2 := rfl
@[simp] theorem State.dropTree_result3 : (s.dropTree).result3 = s.result3 := rfl
@[simp] theorem State.dropTree_idx : (s.dropTree).idx = s.idx := rfl
@[simp] theorem State.dropTree_ft : (s.dropTree).ft = s.ft := rfl
@[simp] theorem State.dropTree_nodes : (s.dropTree).nodes = [] := rfl
@[simp] theorem State.dropTree_root : (s.dropTree).root = 0 := rfl
@[simp] theorem State.dropTree_ct : (s.dropTree).ct = s.ct := rfl
@[simp] theorem State.dropTree_a : (s.dropTree).a = s.a := rfl
@[simp] theorem State.dropTree_dmem : (s.dropTree).dmem = s.dmem := rfl
@[simp] theorem State.dropTree_host : (s.dropTree).host = s.host := rfl
@[simp] theorem State.dropTree_sched : (s.dropTree).sched = s.sched := rfl
@[simp] theorem State.dropTree_rdata : (s.dropTree).rdata = s.rdata := rfl
@[simp] theorem State.dropTree_draws : (s.dropTree).draws = s.draws := rfl

/-! ## returnRead -/

@[simp] theorem State.returnRead_params (v : Word) : (s.returnRead v).params = s.params := rfl
@[simp] theorem State.returnRead_irqEn (v : Word) : (s.returnRead v).irqEn = s.irqEn := rfl
@[simp] theorem State.returnRead_cmd (v : Word) : (s.returnRead v).cmd = s.cmd := rfl
@[simp] theorem State.returnRead_busy (v : Word) : (s.returnRead v).busy = s.busy := rfl
@[simp] theorem State.returnRead_done (v : Word) : (s.returnRead v).done = s.done := rfl
@[simp] theorem State.returnRead_ovr (v : Word) : (s.returnRead v).ovr = s.ovr := rfl
@[simp] theorem State.returnRead_treeValid (v : Word) : (s.returnRead v).treeValid = s.treeValid := rfl
@[simp] theorem State.returnRead_errcode (v : Word) : (s.returnRead v).errcode = s.errcode := rfl
@[simp] theorem State.returnRead_errInfo (v : Word) : (s.returnRead v).errInfo = s.errInfo := rfl
@[simp] theorem State.returnRead_srcAddr (v : Word) : (s.returnRead v).srcAddr = s.srcAddr := rfl
@[simp] theorem State.returnRead_srcLen (v : Word) : (s.returnRead v).srcLen = s.srcLen := rfl
@[simp] theorem State.returnRead_dstAddr (v : Word) : (s.returnRead v).dstAddr = s.dstAddr := rfl
@[simp] theorem State.returnRead_dstCap (v : Word) : (s.returnRead v).dstCap = s.dstCap := rfl
@[simp] theorem State.returnRead_arg0 (v : Word) : (s.returnRead v).arg0 = s.arg0 := rfl
@[simp] theorem State.returnRead_arg1 (v : Word) : (s.returnRead v).arg1 = s.arg1 := rfl
@[simp] theorem State.returnRead_result0 (v : Word) : (s.returnRead v).result0 = s.result0 := rfl
@[simp] theorem State.returnRead_result1 (v : Word) : (s.returnRead v).result1 = s.result1 := rfl
@[simp] theorem State.returnRead_result2 (v : Word) : (s.returnRead v).result2 = s.result2 := rfl
@[simp] theorem State.returnRead_result3 (v : Word) : (s.returnRead v).result3 = s.result3 := rfl
@[simp] theorem State.returnRead_idx (v : Word) : (s.returnRead v).idx = s.idx := rfl
@[simp] theorem State.returnRead_ft (v : Word) : (s.returnRead v).ft = s.ft := rfl
@[simp] theorem State.returnRead_nodes (v : Word) : (s.returnRead v).nodes = s.nodes := rfl
@[simp] theorem State.returnRead_root (v : Word) : (s.returnRead v).root = s.root := rfl
@[simp] theorem State.returnRead_ct (v : Word) : (s.returnRead v).ct = s.ct := rfl
@[simp] theorem State.returnRead_a (v : Word) : (s.returnRead v).a = s.a := rfl
@[simp] theorem State.returnRead_dmem (v : Word) : (s.returnRead v).dmem = s.dmem := rfl
@[simp] theorem State.returnRead_host (v : Word) : (s.returnRead v).host = s.host := rfl
@[simp] theorem State.returnRead_sched (v : Word) : (s.returnRead v).sched = s.sched := rfl
@[simp] theorem State.returnRead_rdata (v : Word) : (s.returnRead v).rdata = v :: s.rdata := rfl
@[simp] theorem State.returnRead_draws (v : Word) : (s.returnRead v).draws = s.draws := rfl

/-! ## writeStatus -/

@[simp] theorem State.writeStatus_params (v : Word) : (s.writeStatus v).params = s.params := rfl
@[simp] theorem State.writeStatus_irqEn (v : Word) : (s.writeStatus v).irqEn = s.irqEn := rfl
@[simp] theorem State.writeStatus_cmd (v : Word) : (s.writeStatus v).cmd = s.cmd := rfl
@[simp] theorem State.writeStatus_busy (v : Word) : (s.writeStatus v).busy = s.busy := rfl
@[simp] theorem State.writeStatus_done (v : Word) : (s.writeStatus v).done = (s.done && !v.getLsbD 1) := rfl
@[simp] theorem State.writeStatus_ovr (v : Word) : (s.writeStatus v).ovr = (s.ovr && !v.getLsbD 3) := rfl
@[simp] theorem State.writeStatus_treeValid (v : Word) : (s.writeStatus v).treeValid = s.treeValid := rfl
@[simp] theorem State.writeStatus_errcode (v : Word) : (s.writeStatus v).errcode = s.errcode := rfl
@[simp] theorem State.writeStatus_errInfo (v : Word) : (s.writeStatus v).errInfo = s.errInfo := rfl
@[simp] theorem State.writeStatus_srcAddr (v : Word) : (s.writeStatus v).srcAddr = s.srcAddr := rfl
@[simp] theorem State.writeStatus_srcLen (v : Word) : (s.writeStatus v).srcLen = s.srcLen := rfl
@[simp] theorem State.writeStatus_dstAddr (v : Word) : (s.writeStatus v).dstAddr = s.dstAddr := rfl
@[simp] theorem State.writeStatus_dstCap (v : Word) : (s.writeStatus v).dstCap = s.dstCap := rfl
@[simp] theorem State.writeStatus_arg0 (v : Word) : (s.writeStatus v).arg0 = s.arg0 := rfl
@[simp] theorem State.writeStatus_arg1 (v : Word) : (s.writeStatus v).arg1 = s.arg1 := rfl
@[simp] theorem State.writeStatus_result0 (v : Word) : (s.writeStatus v).result0 = s.result0 := rfl
@[simp] theorem State.writeStatus_result1 (v : Word) : (s.writeStatus v).result1 = s.result1 := rfl
@[simp] theorem State.writeStatus_result2 (v : Word) : (s.writeStatus v).result2 = s.result2 := rfl
@[simp] theorem State.writeStatus_result3 (v : Word) : (s.writeStatus v).result3 = s.result3 := rfl
@[simp] theorem State.writeStatus_idx (v : Word) : (s.writeStatus v).idx = s.idx := rfl
@[simp] theorem State.writeStatus_ft (v : Word) : (s.writeStatus v).ft = s.ft := rfl
@[simp] theorem State.writeStatus_nodes (v : Word) : (s.writeStatus v).nodes = s.nodes := rfl
@[simp] theorem State.writeStatus_root (v : Word) : (s.writeStatus v).root = s.root := rfl
@[simp] theorem State.writeStatus_ct (v : Word) : (s.writeStatus v).ct = s.ct := rfl
@[simp] theorem State.writeStatus_a (v : Word) : (s.writeStatus v).a = s.a := rfl
@[simp] theorem State.writeStatus_dmem (v : Word) : (s.writeStatus v).dmem = s.dmem := rfl
@[simp] theorem State.writeStatus_host (v : Word) : (s.writeStatus v).host = s.host := rfl
@[simp] theorem State.writeStatus_sched (v : Word) : (s.writeStatus v).sched = s.sched := rfl
@[simp] theorem State.writeStatus_rdata (v : Word) : (s.writeStatus v).rdata = s.rdata := rfl
@[simp] theorem State.writeStatus_draws (v : Word) : (s.writeStatus v).draws = s.draws := rfl

end Sys2Proof.Machine
end

