-- ==== Sys2Proof/Laws/Step.lean ====
section
/-! SUPPORT. What a step, a host transaction and the engine can do, said once (R8, R90, R94, R195). -/

namespace Sys2Proof.Machine

/-- A CTRL word is the soft reset exactly where SRST is 1 (R24). -/
theorem decode_ctrl (v : Word) :
    decode .ctrl v = if v.getLsbD 0 then .ok .softReset else .error .noSoftReset := by
  have hm : ((v &&& 0x00000001#32) == 0x00000001#32) = v.getLsbD 0 := by
    rw [Bool.eq_iff_iff, beq_iff_eq]
    constructor
    · intro h
      have := congrArg (fun x : Word => x.getLsbD 0) h
      simpa using this
    · intro h
      apply BitVec.eq_of_getLsbD_eq
      intro i hi
      by_cases h0 : i = 0
      · subst h0; simp [h]
      · simp [BitVec.getLsbD_one, h0]
  cases h : v.getLsbD 0 <;> rw [h] at hm <;> simp [decode, opcodeRows, Row.matches, hm, rejectReason]

/-- Every meaning answers a next state: no instruction faults or is refused (R230). -/
theorem exec_next (i : Instr) (s : State) : ∃ t, exec i s = .next t := by
  cases i with
  | nop => exact ⟨_, rfl⟩
  | ftClear => exact ⟨_, rfl⟩
  | ctClear => exact ⟨_, rfl⟩
  | softReset => exact ⟨_, rfl⟩
  | freqCount =>
    simp only [exec, execFreqCount]
    split
    · exact ⟨_, rfl⟩
    · split <;> exact ⟨_, rfl⟩
  | ftInsert =>
    simp only [exec, execFtInsert]
    split
    · exact ⟨_, rfl⟩
    · split
      · exact ⟨_, rfl⟩
      · split
        · exact ⟨_, rfl⟩
        · split <;> exact ⟨_, rfl⟩
  | treeBuild =>
    simp only [exec, execTreeBuild]
    split <;> exact ⟨_, rfl⟩
  | codeGen =>
    simp only [exec, execCodeGen]
    split
    · exact ⟨_, rfl⟩
    · split <;> exact ⟨_, rfl⟩
  | tableSer =>
    simp only [exec, execTableSer]
    split
    · exact ⟨_, rfl⟩
    · split
      · exact ⟨_, rfl⟩
      · split <;> exact ⟨_, rfl⟩
  | tableDeser =>
    simp only [exec, execTableDeser]
    split
    · exact ⟨_, rfl⟩
    · split <;> exact ⟨_, rfl⟩
  | textEncode =>
    simp only [exec, execTextEncode]
    split
    · exact ⟨_, rfl⟩
    · split
      · exact ⟨_, rfl⟩
      · split <;> exact ⟨_, rfl⟩
  | textDecode =>
    simp only [exec, execTextDecode]
    split
    · exact ⟨_, rfl⟩
    · split <;> exact ⟨_, rfl⟩

/-- Everything a step can do: the engine runs the accepted word, the host moves, or the block is idle with no transaction
pending. `q` is what is left of the schedule. -/
theorem step_cases {s s' : State} (h : step s = .next s') :
    (∃ q, s.busy = true ∧ engineStep { s with sched := q } = .next s') ∨
    (∃ op ops q, s.host = op :: ops ∧ (s.busy = false → q = s.sched) ∧ (s.busy = true → s.sched = .host :: q) ∧
      hostStep op { s with sched := q, host := ops } = .next s') ∨
    (s.busy = false ∧ s.host = [] ∧ s' = s) := by
  unfold step State.turn at h
  by_cases hb : s.busy = true
  · rw [if_pos hb] at h
    match hs : s.sched, hh : s.host with
    | .host :: q, op :: ops =>
      simp only [hs, hh] at h
      exact .inr (.inl ⟨op, ops, q, rfl, by simp [hb], fun _ => rfl, h⟩)
    | .host :: q, [] =>
      simp only [hs, hh] at h
      exact .inl ⟨q, hb, by simpa [hh] using h⟩
    | .engine :: q, ops =>
      simp only [hs, hh] at h
      exact .inl ⟨q, hb, by simpa [hh] using h⟩
    | [], ops =>
      simp only [hs, hh] at h
      exact .inl ⟨s.sched, hb, by subst hh; exact h⟩
  · rw [if_neg hb] at h
    match hh : s.host with
    | op :: ops =>
      simp only [hh] at h
      exact .inr (.inl ⟨op, ops, s.sched, rfl, fun _ => rfl, fun hc => absurd hc hb, by simpa using h⟩)
    | [] =>
      simp only [hh] at h
      cases h
      exact .inr (.inr ⟨by simpa using hb, rfl, rfl⟩)

/-- Everything the engine can do: run the instruction it decodes, or complete with BAD_COMMAND (R94). -/
theorem engineStep_cases {s s' : State} (h : engineStep s = .next s') :
    (∃ i, decode .cmd s.fetchWord = .ok i ∧ exec i s = .next s') ∨
    (∃ r, decode .cmd s.fetchWord = .error r ∧ s' = s.badCommand) := by
  unfold engineStep at h
  split at h
  · rename_i i hi; exact .inl ⟨i, hi, h⟩
  · rename_i r hr; cases h; exact .inr ⟨r, hr, rfl⟩

/-- A read of a CSR changes nothing but the count of free draws (R64). -/
theorem readCsr_state (s : State) (c : Csr) : ∃ n, (s.readCsr c).2 = { s with draws := n } := by
  unfold State.readCsr
  split
  · simp only [State.drawWord]; split <;> exact ⟨_, rfl⟩
  · exact ⟨s.draws, rfl⟩

theorem readOff_state (s : State) (off : BitVec 8) : ∃ n, (s.readOff off).2 = { s with draws := n } := by
  unfold State.readOff
  split
  · exact readCsr_state s _
  · exact ⟨s.draws, rfl⟩

/-- The offset a CSR stands at, from the map (R20). -/
theorem csrAt_some {off : BitVec 8} {c : Csr} (h : csrAt off = some c) : off = csrOffset c := by
  revert c
  revert off
  decide

/-- Everything a host transaction can do when it does not stop. -/
theorem hostStep_cases {op : HostOp} {s s' : State} (h : hostStep op s = .next s') :
    (∃ v, op = .csrw 0x0C v ∧ v.getLsbD 0 = true ∧ exec .softReset s = .next s') ∨
    (∃ v, op = .csrw 0x0C v ∧ v.getLsbD 0 = false ∧ s' = { s with irqEn := v.getLsbD 1 }) ∨
    (∃ w, op = .csrw 0x10 w ∧ s.busy = false ∧ s' = s.start w) ∨
    (∃ w, op = .csrw 0x10 w ∧ s.busy = true ∧ s' = { s with ovr := true }) ∨
    (∃ v, op = .csrw 0x14 v ∧ s' = s.writeStatus v) ∨
    (∃ sa sl da dc a0 a1 ix, s' = { s with
      srcAddr := sa, srcLen := sl, dstAddr := da, dstCap := dc, arg0 := a0, arg1 := a1, idx := ix }) ∨
    (∃ v n ops, (ops = s.host ∨ ops = .wait :: s.host) ∧
      s' = { s with rdata := v :: s.rdata, draws := n, host := ops }) ∨
    (∃ addr b, op = .sb addr b ∧ addr.toNat < s.params.memBytes ∧ s.activeSrc addr.toNat = false ∧
      s.activeDst addr.toNat = false ∧ s' = { s with dmem := Memory.write s.dmem addr.toNat b }) := by
  cases op with
  | csrw off v =>
    simp only [hostStep, hostCsrw] at h
    split at h
    · split at h
      · rename_i c hc
        have ho := csrAt_some hc
        cases c <;> simp only [writeCsr] at h <;> subst ho
        case ctrl =>
          rw [writeCtrl, decode_ctrl] at h
          cases hv : v.getLsbD 0 <;> simp only [hv, if_true, if_false, Bool.false_eq_true] at h
          · cases h; exact .inr (.inl ⟨v, rfl, hv, rfl⟩)
          · exact .inl ⟨v, rfl, hv, h⟩
        case cmd =>
          cases h
          cases hb : s.busy
          · exact .inr (.inr (.inl ⟨v, rfl, rfl, by simp [writeCmd, hb]⟩))
          · exact .inr (.inr (.inr (.inl ⟨v, rfl, rfl, by simp [writeCmd, hb]⟩)))
        case status =>
          cases h
          exact .inr (.inr (.inr (.inr (.inl ⟨v, rfl, rfl⟩))))
        all_goals
          cases h
          exact .inr (.inr (.inr (.inr (.inr (.inl ⟨_, _, _, _, _, _, _, rfl⟩)))))
      · cases h
        exact .inr (.inr (.inr (.inr (.inr (.inl ⟨_, _, _, _, _, _, _, rfl⟩)))))
    · cases h
  | csrr off =>
    simp only [hostStep, hostCsrr] at h
    split at h
    · cases h
      obtain ⟨n, hn⟩ := readOff_state s off
      exact .inr (.inr (.inr (.inr (.inr (.inr (.inl ⟨(s.readOff off).1, n, s.host, .inl rfl, by rw [hn]; rfl⟩))))))
    · cases h
  | sb addr b =>
    simp only [hostStep, hostSb] at h
    split at h
    · cases h
    · rename_i hm
      split at h
      · cases h
      · rename_i ha
        simp only [Bool.or_eq_true, not_or, Bool.not_eq_true] at ha
        cases h
        exact .inr (.inr (.inr (.inr (.inr (.inr (.inr ⟨addr, b, rfl, by omega, ha.1, ha.2, rfl⟩))))))
  | lb addr =>
    simp only [hostStep, hostLb, State.drawByte] at h
    split at h
    · cases h
    · split at h <;> cases h
      · exact .inr (.inr (.inr (.inr (.inr (.inr (.inl ⟨_, _, s.host, .inl rfl, rfl⟩))))))
      · exact .inr (.inr (.inr (.inr (.inr (.inr (.inl ⟨_, s.draws, s.host, .inl rfl, rfl⟩))))))
  | wait =>
    simp only [hostStep, hostWait] at h
    obtain ⟨n, hn⟩ := readCsr_state s .status
    rw [hn] at h
    split at h <;> cases h
    · exact .inr (.inr (.inr (.inr (.inr (.inr (.inl ⟨_, n, .wait :: s.host, .inr rfl, rfl⟩))))))
    · exact .inr (.inr (.inr (.inr (.inr (.inr (.inl ⟨_, n, s.host, .inl rfl, rfl⟩))))))
  | csrNarrow off n => cases h
  | dmemWide addr n => cases h

end Sys2Proof.Machine
end

