-- ==== Sys2Proof/Tests/Slice0.lean ====
section
/-! SUPPORT. The model's own tests: words and vectors written out from the spec, ill-formed terms, and a witness for the hypotheses of every statement that has some. -/

open Sys2Proof Sys2Proof.Machine

namespace Sys2Proof.Tests

/-! ## Small states -/

/-- DMEM with the bytes given from an address on. -/
def mem (base : Nat) (bs : List Byte) : Memory := Memory.writeAll [] base bs

/-- The reset state with an accepted command word, the operands of a source and a destination region, and the two
arguments. -/
def begun (w sa sl da dc a0 a1 : Word) (s : State) : State :=
  { s with srcAddr := sa, srcLen := sl, dstAddr := da, dstCap := dc, arg0 := a0, arg1 := a1 }.start w

/-- The next state of an outcome. -/
def next? (o : Host.Outcome State Fault Refusal) : Option State :=
  match o with
  | .next s => some s
  | .fault _ => none
  | .refused _ => none

theorem eq_next_of_next? {o : Host.Outcome State Fault Refusal} {t : State} (h : next? o = some t) : o = .next t := by
  cases o with
  | next s => cases h; rfl
  | fault r => cases h
  | refused r => cases h

/-- What a test looks at: STATUS, ERR_INFO and RESULT0 to RESULT3. -/
def record (o : Host.Outcome State Fault Refusal) : Option (List Word) :=
  (next? o).map fun t => [t.statusWord, t.errInfo, t.result0, t.result1, t.result2, t.result3]

/-- CT of 95_test_vectors.md S1: (a, 0), (b, 10), (c, 11). -/
def abcaCt : List CtEntry := [⟨0x61, 0, 1⟩, ⟨0x62, 2, 2⟩, ⟨0x63, 3, 2⟩]

/-- FT of 95_test_vectors.md S1. -/
def abcaFt : List FtEntry := [⟨0x61, 2⟩, ⟨0x62, 1⟩, ⟨0x63, 1⟩]

/-- The tree of 95_test_vectors.md V26. -/
def abcaNodes : List Node :=
  [.leaf 0x61 2, .leaf 0x62 1, .leaf 0x63 1, .internal 1 2 2, .internal 0 3 4]

/-! ## Decoding: the words of R93, bit by bit (30_encoding.md R91, R93, R94; R24, R181) -/

theorem test_decode_nop : decode .cmd 0b00000000000000000000000000000000#32 = .ok .nop := by decide
theorem test_decode_ftClear : decode .cmd 0b00000000000000000000000000000001#32 = .ok .ftClear := by decide
theorem test_decode_freqCount : decode .cmd 0b00000000000000000000000000000010#32 = .ok .freqCount := by decide
theorem test_decode_ftInsert : decode .cmd 0b00000000000000000000000000000011#32 = .ok .ftInsert := by decide
theorem test_decode_treeBuild : decode .cmd 0b00000000000000000000000000000100#32 = .ok .treeBuild := by decide
theorem test_decode_codeGen : decode .cmd 0b00000000000000000000000000000101#32 = .ok .codeGen := by decide
theorem test_decode_ctClear : decode .cmd 0b00000000000000000000000000000110#32 = .ok .ctClear := by decide
theorem test_decode_tableSer : decode .cmd 0b00000000000000000000000000000111#32 = .ok .tableSer := by decide
theorem test_decode_tableDeser : decode .cmd 0b00000000000000000000000000001000#32 = .ok .tableDeser := by decide
theorem test_decode_textEncode : decode .cmd 0b00000000000000000000000000001001#32 = .ok .textEncode := by decide
theorem test_decode_textDecode : decode .cmd 0b00000000000000000000000000001010#32 = .ok .textDecode := by decide
theorem test_decode_softReset : decode .ctrl 0b00000000000000000000000000000011#32 = .ok .softReset := by decide

theorem test_decode_rejects_opcode_0B : decode .cmd 0x0000000B#32 = .error .noSuchOpcode := by decide
theorem test_decode_rejects_opcode_FF : decode .cmd 0x000000FF#32 = .error .noSuchOpcode := by decide
theorem test_decode_rejects_rsvd : decode .cmd 0x80000001#32 = .error .reservedNonzero := by decide
theorem test_decode_rejects_no_srst : decode .ctrl 0x00000002#32 = .error .noSoftReset := by decide

theorem test_table_word_cmd_and_ctrl :
    decodeTableWord 32 1 = some .ftClear ∧ decodeTableWord 8 1 = some .softReset ∧ decodeTableWord 32 11 = none := by
  decide

/-- No two rows of the opcode map read one word. -/
theorem test_rows_do_not_overlap :
    opcodeRows.Pairwise fun r q => r.port ≠ q.port ∨ (r.mask &&& q.mask &&& (r.bits ^^^ q.bits)) ≠ 0 := by
  decide

/-! ## WellFormed: ill-formed terms are refused -/

theorem test_wf_refuses_rsvd : cmdWordWf 0x00000100#32 = false := by decide
theorem test_wf_refuses_opcode : cmdWordWf 0x0000000B#32 = false := by decide
theorem test_wf_refuses_small_nsym : { Config.params with nsymMax := 1 }.ok = false := by decide
theorem test_wf_refuses_large_nsym : { Config.params with nsymMax := 1112065 }.ok = false := by decide
theorem test_wf_refuses_small_mem : { Config.params with memBytes := 15 }.ok = false := by decide
theorem test_wf_refuses_large_mem : { Config.params with memBytes := 268435457 }.ok = false := by decide
theorem test_wf_accepts_bounds :
    { Config.params with nsymMax := 2, memBytes := 16 }.ok = true ∧
      { Config.params with nsymMax := 1112064, memBytes := 268435456 }.ok = true := by decide
theorem test_wf_refuses_unaligned : HostOp.wf Config.params (.csrr 0x0D) = false := by decide
theorem test_wf_refuses_beyond_dmem : HostOp.wf Config.params (.sb 256 0) = false := by decide
theorem test_wf_refuses_narrow_and_wide :
    HostOp.wf Config.params (.csrNarrow 0x0C 8) = false ∧ HostOp.wf Config.params (.dmemWide 0 4) = false := by decide

/-! ## One step of each instruction, from the vectors of 95_test_vectors.md -/

/-- V1. -/
theorem test_freqCount_abca :
    (next? (exec .freqCount (begun 2 0 4 0 0 0 0 (State.powerOn Config.params (mem 0 [0x61, 0x62, 0x63, 0x61]))))).map
      (·.ft) = some abcaFt := by decide +kernel

/-- V5: a sequence cut by the region's end. -/
theorem test_freqCount_cut :
    record (exec .freqCount (begun 2 0 3 0 0 0 0 (State.powerOn Config.params (mem 0 [0x61, 0xE2, 0x82])))) =
      some [0x706, 1, 0, 1, 0, 1] := by decide +kernel

/-- V15. -/
theorem test_ftInsert_adds :
    (next? (exec .ftInsert (begun 3 0 0 0 0 0x62 5 { State.reset with ft := [⟨0x61, 2⟩] }))).map (·.ft) =
      some [⟨0x61, 2⟩, ⟨0x62, 5⟩] := by decide +kernel

/-- V17. -/
theorem test_ftInsert_surrogate :
    record (exec .ftInsert (begun 3 0 0 0 0 0xD800 1 { State.reset with ft := [⟨0x61, 2⟩] })) =
      some [0x706, 0xD800, 0, 0, 0, 0] := by decide +kernel

/-- V23. -/
theorem test_ftClear_drops_tree :
    record (exec .ftClear (begun 1 0 0 0 0 0 0 { State.reset with ft := [⟨0x61, 2⟩], treeValid := true })) =
      some [2, 0, 0, 0, 0, 0] := by decide +kernel

/-- V26, on S1's table. -/
theorem test_treeBuild_abca :
    (next? (exec .treeBuild (begun 4 0 0 0 0 0 0 { State.reset with ft := abcaFt }))).map
      (fun t => (t.nodes, t.root)) = some (abcaNodes, 4) := by decide +kernel

/-- V29: of two equal frequencies the older node is taken first. -/
theorem test_treeBuild_tie :
    (next? (exec .treeBuild (begun 4 0 0 0 0 0 0
      { State.reset with ft := [⟨0x61, 1⟩, ⟨0x62, 1⟩, ⟨0x63, 2⟩, ⟨0x64, 3⟩, ⟨0x65, 5⟩] }))).map (·.nodes.drop 5) =
      some [.internal 0 1 2, .internal 2 5 4, .internal 3 6 7, .internal 4 7 12] := by decide +kernel

/-- V33. -/
theorem test_codeGen_abca :
    (next? (exec .codeGen (begun 5 0 0 0 0 0 0
      { State.reset with ft := abcaFt, treeValid := true, nodes := abcaNodes, root := 4 }))).map (·.ct) =
      some abcaCt := by decide +kernel

/-- V39: a second CODE_GEN finds no tree. -/
theorem test_codeGen_twice :
    record (exec .codeGen (begun 5 0 0 0 0 0 0 { State.reset with ct := abcaCt })) = some [0x206, 0, 0, 0, 0, 0] := by
  decide +kernel

/-- S1: CT_CLEAR leaves FT and the tree. -/
theorem test_ctClear_keeps_tree :
    (next? (exec .ctClear (begun 6 0 0 0 0 0 0 { State.reset with ct := abcaCt, ft := abcaFt, treeValid := true }))).map
      (fun t => (t.ct, t.ft, t.treeValid)) = some ([], abcaFt, true) := by decide +kernel

/-- V42: `61 01 31 01 4C 60 58`. -/
theorem test_tableSer_abca :
    (next? (exec .tableSer (begun 7 0 0 0x40 16 0 0 { State.reset with ct := abcaCt }))).map (·.dmem) =
      some (mem 0x40 [0x61, 0x01, 0x31, 0x01, 0x4C, 0x60, 0x58]) := by decide +kernel

/-- V53: entry 1's bits complete the first byte that does not fit. -/
theorem test_tableSer_full :
    record (exec .tableSer (begun 7 0 0 0x40 2 0 0 { State.reset with ct := abcaCt })) =
      some [0x906, 1, 2, 1, 0, 0] := by decide +kernel

/-- V58. -/
theorem test_tableDeser_abca :
    (next? (exec .tableDeser (begun 8 0 7 0 0 0 0
      (State.powerOn Config.params (mem 0 [0x61, 0x01, 0x31, 0x01, 0x4C, 0x60, 0x58]))))).map (·.ct) =
      some abcaCt := by decide +kernel

/-- V60. -/
theorem test_tableDeser_truncated :
    record (exec .tableDeser (begun 8 0 6 0 0 0 0
      (State.powerOn Config.params (mem 0 [0x61, 0x01, 0x31, 0x01, 0x4C, 0x60])))) =
      some [0x306, 0x23, 0, 2, 0, 0] := by decide +kernel

/-- V76: one byte `58`. -/
theorem test_textEncode_abca :
    (next? (exec .textEncode (begun 9 0 4 0x80 64 0 0
      { State.powerOn Config.params (mem 0 [0x61, 0x62, 0x63, 0x61]) with ct := abcaCt }))).map
        (fun t => Memory.bytes t.dmem 0x80 2) = some [0x58, 0] := by decide +kernel

/-- V85: "abxa". -/
theorem test_textEncode_missing :
    record (exec .textEncode (begun 9 0 4 0x80 64 0 0
      { State.powerOn Config.params (mem 0 [0x61, 0x62, 0x78, 0x61]) with ct := abcaCt })) =
      some [0xD06, 2, 0, 2, 0, 2] := by decide +kernel

/-- V96. -/
theorem test_textDecode_abca :
    (next? (exec .textDecode (begun 10 0x40 1 0x80 64 2 0
      { State.powerOn Config.params (mem 0x40 [0x58]) with ct := abcaCt }))).map
        (fun t => Memory.bytes t.dmem 0x80 5) = some [0x61, 0x62, 0x63, 0x61, 0] := by decide +kernel

/-- V125: the third bit makes the run longer than MAXLEN. -/
theorem test_textDecode_unrecognized :
    record (exec .textDecode (begun 10 0x40 1 0x80 64 0 0
      { State.powerOn Config.params (mem 0x40 [0xC0]) with ct := [⟨0x61, 0, 1⟩, ⟨0x62, 2, 2⟩] })) =
      some [0x506, 0, 0, 0, 3, 0] := by decide +kernel

/-- V129: NOP from reset. -/
theorem test_nop : record (exec .nop (begun 0 0 0 0 0 0 0 State.reset)) = some [2, 0, 0, 0, 0, 0] := by decide +kernel

/-- V149 and V139: the soft reset with IRQ_EN written 1 beside it. -/
theorem test_softReset :
    next? (step { State.reset with
      ft := abcaFt, ct := abcaCt, cmd := 5, done := true, irqEn := true, host := [.csrw 0x0C 3] }) =
      some State.reset := by decide +kernel

/-! ## The two agents -/

/-- V137: a CMD write while a command runs is dropped and sets OVR; CMD keeps the running command's word. -/
theorem test_dropped_cmd_write :
    (next? (step { (State.reset.start 4) with host := [.csrw 0x10 5], sched := [.host] })).map
      (fun t => (t.cmd, t.ovr, t.busy)) = some (4, true, true) := by decide +kernel

/-- V132: the whole word is ERR_INFO. -/
theorem test_bad_command : record (step (State.reset.start 0x102)) = some [0xB06, 0x102, 0, 0, 0, 0] := by
  decide +kernel

/-- The reset word of every row is run by the first step after reset. -/
theorem test_placed_words_run :
    (next? (step (State.reset.withFetchWord 32 4))).map (·.errcode) = some .emptyAlphabet ∧
      (next? (step (State.reset.withFetchWord 8 1))) = some State.reset := by decide +kernel

/-- R100's `wait` ends where BUSY reads 0. -/
theorem test_wait_ends : (next? (step { State.reset with host := [.wait] })).map (·.host) = some [] := by decide +kernel

/-! ## Witnesses: states and operands that meet the hypotheses of the statements -/

/-- TEXT_ENCODE of "abca" accepted and not yet run: source 0x00 to 0x03, destination 0x80 to 0xBF. -/
def encoding : State :=
  begun 9 0 4 0x80 0x40 0 0 { State.powerOn Config.params (mem 0 [0x61, 0x62, 0x63, 0x61]) with ct := abcaCt }

/-- TEXT_DECODE of a byte at 0x40 accepted and not yet run: capacity `cap`, padding count `pad`. -/
def decoding (b : Byte) (cap pad : Word) (ct : List CtEntry) : State :=
  begun 10 0x40 1 0x80 cap pad 0 { State.powerOn Config.params (mem 0x40 [b]) with ct := ct }

/-- A command with a source region at 0 accepted and not yet run. -/
def reading (w : Word) (bs : List Byte) : State :=
  begun w 0 (BitVec.ofNat 32 bs.length) 0 0 0 0 (State.powerOn Config.params (mem 0 bs))

/-- The abca tree, valid. -/
def treed : State := { State.reset with ft := abcaFt, treeValid := true, nodes := abcaNodes, root := 4 }

/-- The one-leaf tree, valid. -/
def soleTreed : State := { State.reset with ft := [⟨0x61, 4⟩], treeValid := true, nodes := [.leaf 0x61 4], root := 0 }

/-- `allScalar` and `covers` as Booleans, which the kernel evaluates on a text. -/
theorem allScalar_of_all {text : List Sym} (h : text.all (fun x => isScalar x.toNat) = true) : allScalar text :=
  List.all_eq_true.1 h

theorem covers_of_all {ct : List CtEntry} {text : List Sym} (h : text.all (fun x => (ct.map (·.sym)).contains x) = true) :
    covers ct text := fun x hx => List.contains_iff_mem.1 (List.all_eq_true.1 h x hx)

def nodeOkB (nodes : List Node) (i : Nat) : Bool :=
  match nodes[i]? with
  | some (.internal l r f) => l < i && r < i && f.toNat = (nodeFreq nodes l).toNat + (nodeFreq nodes r).toNat
  | _ => true

theorem nodeOk_of_nodeOkB {nodes : List Node} {i : Nat} (h : nodeOkB nodes i = true) : nodeOk nodes i := by
  unfold nodeOkB at h
  unfold nodeOk
  split <;> simp_all

def treeOkB (ft : List FtEntry) (nodes : List Node) (root : Nat) : Bool :=
  decide (0 < ft.length) && decide (nodes.length = 2 * ft.length - 1) && decide (root = 2 * ft.length - 2) &&
  decide (nodes.take ft.length = leavesOf ft) && (nodes.drop ft.length).all (fun n => n.children ≠ []) &&
  (List.range nodes.length).all (nodeOkB nodes) &&
  (nodes.flatMap Node.children).isPerm (List.range (nodes.length - 1))

theorem treeOk_of_treeOkB {ft : List FtEntry} {nodes : List Node} {root : Nat} (h : treeOkB ft nodes root = true) :
    TreeOk ft nodes root := by
  simp only [treeOkB, Bool.and_eq_true, decide_eq_true_eq, List.all_eq_true, List.mem_range, List.isPerm_iff] at h
  obtain ⟨⟨⟨⟨⟨⟨h1, h2⟩, h3⟩, h4⟩, h5⟩, h6⟩, h7⟩ := h
  exact ⟨h1, h2, h3, h4, h5, fun i hi => nodeOk_of_nodeOkB (h6 i hi), h7⟩

theorem treed_ok : TreeOk treed.ft treed.nodes treed.root := treeOk_of_treeOkB (by decide +kernel)
theorem soleTreed_ok : TreeOk soleTreed.ft soleTreed.nodes soleTreed.root := treeOk_of_treeOkB (by decide +kernel)

theorem witness_DecodeEncodeAgree :
    Instr.textDecode.wf = true ∧ decode .cmd 0x0000000A#32 = .ok .textDecode ∧
      decode .ctrl 0xFFFFFFFF#32 = .ok .softReset := by decide

theorem witness_CmdWriteStartsOrIsDropped :
    (∃ s : State, s.host = [.csrw 0x10 0xFFFFFFFF] ∧ s.busy = false) ∧
    (∃ s : State, s.host = [.csrw 0x10 5] ∧ s.busy = true ∧ s.sched = [.host]) :=
  ⟨⟨{ State.reset with host := [.csrw 0x10 0xFFFFFFFF] }, rfl, rfl⟩,
    { encoding with host := [.csrw 0x10 5], sched := [.host] }, rfl, rfl, rfl⟩

theorem witness_StepRunsDecodedInstruction :
    (encoding.busy = true ∧ decode .cmd encoding.fetchWord = .ok .textEncode ∧ encoding.sched = []) ∧
    (∃ s : State, s.busy = true ∧ decode .cmd s.fetchWord = .ok .textEncode ∧ s.sched = [.engine]) ∧
    (∃ s : State, s.busy = true ∧ decode .cmd s.fetchWord = .ok .textEncode ∧ s.sched = [.host] ∧ s.host = []) ∧
    (∃ s : State, s.host = [.csrw 0x0C 1] ∧ (1#32).getLsbD 0 = true ∧ s.busy = false) ∧
    (∃ s : State, s.host = [.csrw 0x0C 3] ∧ (3#32).getLsbD 0 = true ∧ s.busy = true ∧ s.sched = [.host]) :=
  ⟨by decide +kernel, ⟨{ encoding with sched := [.engine] }, by decide +kernel⟩,
    ⟨{ encoding with sched := [.host] }, by decide +kernel⟩,
    ⟨{ State.reset with host := [.csrw 0x0C 1] }, by decide +kernel⟩,
    { encoding with host := [.csrw 0x0C 3], sched := [.host] }, by decide +kernel⟩

/-- A legal word, and one whose RSVD is not 0. -/
theorem witness_PlacedWordRunsNext :
    (encode .nop).1 = .cmd ∧ (encode .textDecode).1 = .cmd ∧
    (State.reset.start 0xFFFFFF02).cmd = 0xFFFFFF02 ∧
    (State.reset.start 0xFFFFFF02).a.op = (0xFFFFFF02#32).extractLsb' 0 8 := by decide +kernel

/-- The least word with RSVD not 0, the least and the greatest illegal opcode, at each of the engine's turns. -/
theorem witness_IllegalWordCompletesBadCommand :
    (let s := State.reset.start 0x100
     s.busy = true ∧ s.cmd = 0x100 ∧ s.a.op = (0x100#32).extractLsb' 0 8 ∧ (0x100#32).extractLsb' 8 24 ≠ 0 ∧
       s.sched = []) ∧
    (let s := { State.reset.start 0x0B with sched := [.engine] }
     s.busy = true ∧ s.cmd = 0x0B ∧ s.a.op = (0x0B#32).extractLsb' 0 8 ∧ 0x0B ≤ ((0x0B#32).extractLsb' 0 8).toNat) ∧
    (let s := { State.reset.start 0xFF with sched := [.host] }
     s.busy = true ∧ s.cmd = 0xFF ∧ s.a.op = (0xFF#32).extractLsb' 0 8 ∧ 0x0B ≤ ((0xFF#32).extractLsb' 0 8).toNat ∧
       s.host = []) := by decide +kernel

theorem witness_CommandReadsOnlyLatchedOperands : Instr.textDecode ≠ .softReset := by decide

theorem witness_PowerOnResetValues : Csr.status ≠ .id ∧ Csr.status ≠ .capNsym ∧ Csr.status ≠ .capMem := by decide

theorem witness_SoftResetRestoresResetState :
    encoding.activeDst 0x7F = false ∧ encoding.activeDst 0x80 = true ∧ encoding.activeDst 0xBF = true ∧
      encoding.activeDst 0xC0 = false ∧ State.reset.busy = false := by decide +kernel

theorem witness_CtrlAndStatusWrites :
    (0xFFFFFFFE#32).getLsbD 0 = false ∧ (0x0000000A#32).getLsbD 1 = true ∧
    (0xFFFFFFFC#32).getLsbD 0 = false ∧ (0xFFFFFFFC#32).getLsbD 1 = false := by decide

/-- The reserved offsets of R49 and the read-only ones of R20, at the ends of each range. -/
theorem witness_ReservedAndReadOnlyIgnoreWrites :
    (∀ off ∈ [0x1C, 0x38, 0x3C, 0x64, 0x6C, 0x98, 0x9C, 0xC0, 0xFC], csrAt off = none ∧ off.toNat % 4 = 0) ∧
    (∀ off ∈ [0x00, 0x08, 0x18, 0x40, 0x60, 0x74, 0x94, 0xA0, 0xBC], (csrAt off).isSome ∧ off.toNat % 4 = 0) := by
  decide

/-- An idle block with and without a tree, and with a code table and without. -/
theorem witness_CsrReadHasNoSideEffect :
    (0x14#8).toNat % 4 = 0 ∧ csrAt 0x14 = some .status ∧ State.reset.busy = false ∧ State.reset.treeValid = false ∧
      State.reset.ct = [] ∧ treed.busy = false ∧ treed.treeValid = true ∧ abcaCt ≠ [] := by
  decide

theorem witness_ExactReadsWhileBusy : encoding.busy = true := by decide +kernel

theorem witness_BadHostAccessStops : (0x01#8).toNat % 4 ≠ 0 ∧ (0xFF#8).toNat % 4 ≠ 0 := by decide

/-- FT and CT of three entries and five nodes, read at the last entry, past the end, and with no tree. -/
theorem witness_WindowsShowSelectedEntry :
    abcaFt[2]? = some ⟨0x63, 1⟩ ∧ abcaFt.length ≤ 3 ∧ abcaCt[2]? = some ⟨0x63, 3, 2⟩ ∧ abcaCt.length ≤ 3 ∧
    treed.treeValid = true ∧ treed.nodes[0]? = some (.leaf 0x61 2) ∧ treed.nodes[4]? = some (.internal 0 3 4) ∧
    treed.nodes.length ≤ 5 ∧ State.reset.treeValid = false := by decide

theorem witness_HostByteAccessIsExact :
    State.reset.params.memBytes ≤ (0x100#32).toNat ∧ (0xFF#32).toNat < State.reset.params.memBytes ∧
      State.reset.busy = false := by decide

/-- The first and last byte of each active range of TEXT_ENCODE, and the bytes beside them. -/
theorem witness_HostAccessToActiveRanges :
    encoding.busy = true ∧ decode .cmd encoding.fetchWord = .ok .textEncode ∧ encoding.params.memBytes = 0x100 ∧
    usesSrc .textEncode = true ∧ usesDst .textEncode = true ∧
    encoding.a.srcAddr.toNat ≤ 0 ∧ 3 < encoding.a.srcAddr.toNat + encoding.a.srcLen.toNat ∧
    ¬ 4 < encoding.a.srcAddr.toNat + encoding.a.srcLen.toNat ∧
    ¬ encoding.a.dstAddr.toNat ≤ 0x7F ∧ encoding.a.dstAddr.toNat ≤ 0x80 ∧
    0xBF < encoding.a.dstAddr.toNat + encoding.a.dstCap.toNat ∧
    ¬ 0xC0 < encoding.a.dstAddr.toNat + encoding.a.dstCap.toNat := by decide +kernel

theorem witness_EveryCommandCompletes : Instr.textEncode ≠ .softReset := by decide

theorem witness_CommandFrame :
    (∃ t, exec .textEncode encoding = .next t) ∧ usesDst .textEncode = true ∧ 0x7F < encoding.a.dstAddr.toNat ∧
    encoding.a.dstAddr.toNat + encoding.a.dstCap.toNat ≤ 0xC0 ∧ usesDst .freqCount = false ∧
    Instr.textEncode ∉ [Instr.ftClear, .freqCount, .ftInsert, .treeBuild, .codeGen] :=
  ⟨exec_next _ _, by decide +kernel⟩

/-- Two memories that differ outside the source region only. -/
theorem witness_EngineReadsOnlySourceRegion :
    usesSrc .textEncode = true ∧
    (∀ addr, encoding.a.srcAddr.toNat ≤ addr → addr < encoding.a.srcAddr.toNat + encoding.a.srcLen.toNat →
      Memory.read (Memory.write encoding.dmem 4 0xEE) addr = Memory.read encoding.dmem addr) ∧
    Memory.write encoding.dmem 4 0xEE ≠ encoding.dmem := by
  refine ⟨rfl, fun addr _ h => ?_, by decide +kernel⟩
  have : addr < 4 := by simpa [encoding, begun, State.start, State.latch] using h
  rw [Memory.read_write, if_neg (by omega)]

theorem witness_RegionChecksComeFirst :
    (usesSrc .freqCount = true ∧ State.reset.params.memBytes < (0xFFFFFFFF#32).toNat + (2#32).toNat) ∧
    (usesDst .tableSer = true ∧ usesSrc .tableSer = false ∧ State.reset.params.memBytes < (0x100#32).toNat + (1#32).toNat) ∧
    (usesSrc .textDecode = true ∧ usesDst .textDecode = true ∧ (3#32).toNat < (0#32).toNat + (4#32).toNat ∧
      (0#32).toNat < (3#32).toNat + (1#32).toNat ∧ ¬ State.reset.params.memBytes < (3#32).toNat + (1#32).toNat) ∧
    Instr.textDecode ≠ .softReset := by
  decide

theorem witness_FlagWriters :
    (∃ s s' : State, step s = .next s' ∧ s.ovr = false ∧ s'.ovr = true) ∧
    (∃ s s' : State, step s = .next s' ∧ s.treeValid = false ∧ s'.treeValid = true ∧ s.done = false ∧ s'.done = true) ∧
    (∃ s s' : State, step s = .next s' ∧ s'.irqEn ≠ s.irqEn) := by
  refine ⟨⟨{ encoding with host := [.csrw 0x10 5], sched := [.host] }, { encoding with ovr := true },
      eq_next_of_next? (by decide +kernel), by decide +kernel⟩,
    ⟨State.start { State.reset with ft := [⟨0x61, 4⟩] } 4, { soleTreed with cmd := 4, done := true, result0 := 1 },
      eq_next_of_next? (by decide +kernel), by decide +kernel⟩,
    ⟨{ State.reset with host := [.csrw 0x0C 2] }, { State.reset with irqEn := true },
      eq_next_of_next? (by decide +kernel), by decide +kernel⟩⟩

theorem step_encoding : ∃ t, step encoding = .next t := exec_next .textEncode encoding

theorem witness_StepKeepsDmemCanonical :
    DmemOk encoding.params encoding.dmem ∧ ∃ t, step encoding = .next t :=
  ⟨by decide +kernel, step_encoding⟩

/-- A state that holds FT, a valid tree and CT, and runs a command. -/
def holding : State := { treed with ct := abcaCt }.start 5

theorem witness_StepKeepsTables :
    TablesOk holding ∧ holding.treeValid = true ∧ holding.ct = abcaCt ∧ ∃ t, step holding = .next t :=
  ⟨⟨by decide +kernel, by decide +kernel, by decide +kernel, treed_ok⟩, rfl, rfl, exec_next .codeGen holding⟩

theorem witness_StepKeepsCommandRegisters : CommandRegsOk encoding ∧ ∃ t, step encoding = .next t :=
  ⟨by decide +kernel, step_encoding⟩

theorem witness_PowerOnMeetsInvariants :
    Config.params.ok = true ∧ DmemOk Config.params (mem 0xFF [0xEE]) := by decide +kernel

theorem witness_FtClearEmptiesFt : exec .ftClear treed = .next { State.reset with done := true } :=
  eq_next_of_next? (by decide +kernel)

/-- "éaé", two distinct symbols. -/
theorem witness_FreqCountCountsEachSymbol :
    let s := reading 2 [0xC3, 0xA9, 0x61, 0xC3, 0xA9]
    let text : List Sym := [0xE9, 0x61, 0xE9]
    allScalar text ∧ s.srcInRange = true ∧ s.srcBytes = textBytes text ∧ text.dedup.length ≤ s.params.nsymMax :=
  ⟨allScalar_of_all (by decide +kernel), by decide +kernel⟩

theorem witness_FreqCountIgnoresOrder :
    let s := reading 2 [0x61, 0x62, 0x63, 0x61]
    let s' := reading 2 [0x63, 0x61, 0x61, 0x62]
    let text : List Sym := [0x61, 0x62, 0x63, 0x61]
    let text' : List Sym := [0x63, 0x61, 0x61, 0x62]
    allScalar text ∧ s.params = s'.params ∧ s.srcInRange = true ∧ s'.srcInRange = true ∧ s.srcBytes = textBytes text ∧
      s'.srcBytes = textBytes text' ∧ text.Perm text' ∧ text.dedup.length ≤ s.params.nsymMax :=
  ⟨allScalar_of_all (by decide +kernel), by decide +kernel⟩

theorem witness_FreqCountStopsAtFirstError :
    allScalar [0x61] ∧ allScalar [0x61, 0x62] ∧
    (begun 2 250 7 0 0 0 0 State.reset).srcInRange = false ∧
    (let s := reading 2 [0x61, 0xE2, 0x82]
     s.srcInRange = true ∧ s.srcBytes = textBytes [0x61] ++ [0xE2, 0x82] ∧ nextSymbol [0xE2, 0x82] = none ∧
       [(0x61 : Sym)].dedup.length ≤ s.params.nsymMax) ∧
    (let s := { reading 2 [0x61, 0x62, 0x63, 0x61] with params := { Config.params with nsymMax := 2 } }
     s.srcInRange = true ∧ s.srcBytes = textBytes [0x61, 0x62] ++ utf8Encode 0x63 ++ [0x61] ∧
       isScalar (0x63 : Sym).toNat = true ∧ (0x63 : Sym) ∉ [(0x61 : Sym), 0x62] ∧
       [(0x61 : Sym), 0x62].dedup.length = s.params.nsymMax) :=
  ⟨allScalar_of_all (by decide +kernel), allScalar_of_all (by decide +kernel), by decide +kernel⟩

/-- FT_INSERT's five outcomes: the symbols beside the surrogates and above the last one, a zero count, a symbol held, a
full table, a free place. -/
theorem witness_FtInsertSetsOneCount :
    (abcaFt.map (·.sym)).Pairwise (· < ·) ∧
    ¬ (0x110000#32).toNat ≤ 0x10FFFF ∧ (0x10FFFF#32).toNat ≤ 0x10FFFF ∧
    (0xD800 ≤ (0xD800#32).toNat ∧ (0xD800#32).toNat ≤ 0xDFFF) ∧ (0xD800 ≤ (0xDFFF#32).toNat ∧ (0xDFFF#32).toNat ≤ 0xDFFF) ∧
    ¬ 0xD800 ≤ (0xD7FF#32).toNat ∧ ¬ (0xE000#32).toNat ≤ 0xDFFF ∧
    (0x62#32).setWidth 21 ∈ abcaFt.map (·.sym) ∧ (0x10FFFF#32).setWidth 21 ∉ abcaFt.map (·.sym) ∧
    abcaFt.length ≠ Config.params.nsymMax ∧ abcaFt.length = { Config.params with nsymMax := 3 }.nsymMax := by
  decide +kernel

theorem witness_TreeBuildMakesTheTree :
    Config.params.ok = true ∧ FtOk Config.params abcaFt ∧ abcaFt ≠ [] ∧ FtOk Config.params [⟨0x61, 0xFFFFFFFF⟩] := by
  decide +kernel

/-- The hypotheses hold, and the tree has a node with a merge behind it. -/
theorem witness_TreeBuildMergesTwoSmallest :
    Config.params.ok = true ∧ FtOk Config.params abcaFt ∧ abcaFt ≠ [] ∧
    (next? (exec .treeBuild { State.reset with ft := abcaFt })).map (fun t => (t.nodes.length, t.nodes[4]?)) =
      some (5, some (.internal 0 3 4)) := by decide +kernel

/-- V30: three counts at CNT_W's maximum. -/
theorem witness_RootFrequencyIsTheTotal :
    let ft : List FtEntry := [⟨0x61, 0xFFFFFFFF⟩, ⟨0x62, 0xFFFFFFFF⟩, ⟨0x63, 0xFFFFFFFF⟩]
    Config.params.ok = true ∧ FtOk Config.params ft ∧ ft ≠ [] ∧
    (next? (exec .treeBuild { State.reset with ft := ft })).map (fun t => nodeFreq t.nodes t.root) =
      some 0x2FFFFFFFD := by decide +kernel

theorem witness_TreeBuildOfNothing : State.reset.ft = [] := rfl

theorem witness_CodeGenGivesPathCodes :
    treed.treeValid = true ∧ TreeOk treed.ft treed.nodes treed.root ∧ 2 ≤ treed.ft.length ∧
      pathsFit treed.nodes treed.root treed.ft.length :=
  ⟨rfl, treed_ok, by decide, pathsFit_of_root treed_ok.2.2.2.2.2.1 (by decide) _⟩

theorem witness_SoleSymbolGetsCodeZero :
    soleTreed.treeValid = true ∧ soleTreed.ft = [⟨0x61, 4⟩] ∧ TreeOk soleTreed.ft soleTreed.nodes soleTreed.root :=
  ⟨rfl, rfl, soleTreed_ok⟩

theorem witness_CodeGenWithoutTree : State.reset.treeValid = false := rfl

/-! A chain of 257 leaves, whose deepest leaf has depth 256. -/

def chainFt : List FtEntry := (List.range 257).map fun i => ⟨BitVec.ofNat 21 i, 1⟩

def chainNodes : List Node :=
  leavesOf chainFt ++ (List.range 256).map fun k =>
    .internal (if k = 0 then 0 else 256 + k) (k + 1) (BitVec.ofNat 64 (k + 2))

/-- The leaf i and the internal node 257 + k of the chain. -/
theorem chain_leaf {i : Nat} (h : i < 257) : chainNodes[i]? = some (.leaf (BitVec.ofNat 21 i) 1) := by
  have hl : i < (leavesOf chainFt).length := by simpa [leavesOf, chainFt] using h
  rw [chainNodes, List.getElem?_append_left hl]
  simp [leavesOf, chainFt, List.getElem?_range h]

theorem chain_internal {k : Nat} (h : k < 256) : chainNodes[257 + k]? =
    some (.internal (if k = 0 then 0 else 256 + k) (k + 1) (BitVec.ofNat 64 (k + 2))) := by
  have hl : (leavesOf chainFt).length = 257 := by simp [leavesOf, chainFt]
  rw [chainNodes, List.getElem?_append_right (by omega), hl, Nat.add_sub_cancel_left]
  simp [List.getElem?_range h]

theorem chain_children (m : Nat) :
    ((List.range (m + 1)).flatMap fun k => [if k = 0 then 0 else 256 + k, k + 1]).Perm
      (List.range (m + 2) ++ (List.range m).map (257 + ·)) := by
  induction m with
  | zero => decide
  | succ m ih =>
    rw [List.range_succ (n := m + 1), List.flatMap_append, List.range_succ (n := m + 2), List.range_succ (n := m),
      List.map_append]
    rw [← List.range_succ (n := m)]
    refine (ih.append_right _).trans ?_
    simp only [List.flatMap_cons, List.flatMap_nil, List.append_nil, List.map_cons, List.map_nil]
    rw [if_neg (by omega), List.append_assoc, List.append_assoc]
    refine List.Perm.append_left _ ?_
    have : (List.map (fun x => 257 + x) (List.range m) ++ [256 + (m + 1), m + 1 + 1]).Perm
        ([m + 1 + 1] ++ (List.map (fun x => 257 + x) (List.range m) ++ [256 + (m + 1)])) := by
      rw [show [256 + (m + 1), m + 1 + 1] = [256 + (m + 1)] ++ [m + 1 + 1] from rfl, ← List.append_assoc]
      exact List.perm_append_comm
    rw [show 257 + m = 256 + (m + 1) by omega]
    exact this

theorem chain_nodeOk (i : Nat) (hi : i < 513) : nodeOk chainNodes i := by
  unfold nodeOk
  by_cases h : i < 257
  · rw [chain_leaf h]; trivial
  · obtain ⟨k, rfl⟩ : ∃ k, i = 257 + k := ⟨i - 257, by omega⟩
    have hk : k < 256 := by omega
    rw [chain_internal hk]
    have hr : nodeFreq chainNodes (k + 1) = 1 := by rw [nodeFreq, chain_leaf (by omega)]; rfl
    show _ < _ ∧ _ < _ ∧ _ = _
    rw [hr]
    rcases k with _ | k
    · rw [if_pos rfl, nodeFreq, chain_leaf (by omega)]; decide
    · have hl : nodeFreq chainNodes (256 + (k + 1)) = BitVec.ofNat 64 (k + 2) := by
        rw [nodeFreq, show 256 + (k + 1) = 257 + k by omega, chain_internal (by omega)]; rfl
      rw [if_neg (by omega), hl]
      refine ⟨by omega, by omega, ?_⟩
      rw [BitVec.toNat_ofNat, BitVec.toNat_ofNat, show BitVec.toNat (1 : Freq) = 1 from rfl]
      omega

theorem chain_ok : TreeOk chainFt chainNodes 512 := by
  have h1 : chainFt.length = 257 := by simp [chainFt]
  have h2 : (leavesOf chainFt).length = 257 := by simp [leavesOf, chainFt]
  have h3 : chainNodes.length = 513 := by rw [chainNodes, List.length_append, h2]; simp
  refine ⟨by omega, by omega, by omega, ?_, ?_, fun i hi => chain_nodeOk i (by omega), ?_⟩
  · rw [h1, chainNodes, List.take_left' h2]
  · rw [h1, chainNodes, List.drop_left' h2]
    simp [Node.children]
  · rw [h3, chainNodes, List.flatMap_append]
    have : (leavesOf chainFt).flatMap Node.children = [] := by simp [leavesOf, Node.children]
    rw [this, List.nil_append, List.flatMap_map]
    have hc := chain_children 255
    rwa [← List.range_add] at hc

/-- All the way to the left the chain leads to leaf 0. -/
theorem chain_follow (k : Nat) (hk : k < 256) : follow chainNodes (257 + k) (List.replicate (k + 1) false) = some 0 := by
  induction k with
  | zero => rw [List.replicate_one, follow, chain_internal hk]; rfl
  | succ k ih =>
    rw [List.replicate_succ, follow, chain_internal hk]
    simp only [Bool.false_eq_true, if_false, Nat.add_eq_zero_iff, one_ne_zero, and_false]
    rw [show 256 + (k + 1) = 257 + k by omega]
    exact ih (by omega)

theorem witness_CodeGenRefusesLongCodes :
    TreeOk chainFt chainNodes 512 ∧ follow chainNodes 512 (List.replicate 256 false) = some 0 ∧ 0 < chainFt.length ∧
      255 < (List.replicate 256 false).length ∧
      (∀ bits' j, follow chainNodes 512 bits' = some j → j < 0 → bits'.length ≤ 255) :=
  ⟨chain_ok, chain_follow 255 (by omega), chain_ok.1, by rw [List.length_replicate]; omega, fun _ _ _ h => by omega⟩

theorem witness_GeneratedCodeIsPrefixFreeAndComplete :
    (TreeOk treed.ft treed.nodes treed.root ∧ pathsFit treed.nodes treed.root treed.ft.length ∧ 2 ≤ treed.ft.length) ∧
    (TreeOk soleTreed.ft soleTreed.nodes soleTreed.root ∧
      pathsFit soleTreed.nodes soleTreed.root soleTreed.ft.length ∧ soleTreed.ft.length = 1) :=
  ⟨⟨treed_ok, pathsFit_of_root treed_ok.2.2.2.2.2.1 (by decide) _, by decide⟩,
    soleTreed_ok, pathsFit_of_root soleTreed_ok.2.2.2.2.2.1 (by decide) _, by decide⟩

/-- The 53 bits of V42 in exactly 7 bytes. -/
theorem witness_TableSerWritesPaddedEntries :
    let s := begun 7 0 0 0x40 7 0 0 { State.reset with ct := abcaCt }
    s.dstInRange = true ∧ bytesFor (tableBits s.ct).length ≤ s.a.dstCap.toNat := by decide +kernel

/-- V42's table in 6 bytes (the padding's byte does not fit), and in none. -/
theorem witness_TableSerStopsAtCapacity :
    (let s := begun 7 0 0 0x40 6 0 0 { State.reset with ct := abcaCt }
     s.dstInRange = true ∧ s.a.dstCap.toNat < bytesFor (tableBits s.ct).length) ∧
    (let s := begun 7 0 0 0x40 0 0 0 { State.reset with ct := abcaCt }
     s.dstInRange = true ∧ s.a.dstCap.toNat < bytesFor (tableBits s.ct).length) := by decide +kernel

/-- V70: a symbol twice, 6 bits of padding. -/
theorem witness_TableDeserReadsEntries :
    let s := reading 8 [0x61, 0x01, 0x30, 0x80, 0xC0]
    let es : List CtEntry := [⟨0x61, 0, 1⟩, ⟨0x61, 1, 1⟩]
    s.srcInRange = true ∧ s.srcBits (8 * s.a.srcLen.toNat) = tableBits es ++ List.replicate 6 false ∧
      (∀ e ∈ es, isScalar e.sym.toNat = true ∧ e.value.toNat < 2 ^ e.len.toNat) ∧
      (es.map (·.sym)).dedup.length ≤ s.params.nsymMax := by decide +kernel

/-- A region for each of TABLE_DESER's errors. -/
theorem witness_TableDeserStopsAtBadEntry :
    (begun 8 250 7 0 0 0 0 State.reset).srcInRange = false ∧
    (let s := reading 8 [0xFF, 0]
     s.srcBits (8 * s.a.srcLen.toNat) = tableBits [] ++ (byteBits 0xFF ++ byteBits 0) ∧ utf8Len 0xFF = none) ∧
    (let s := reading 8 [0xE2, 0x82]
     s.srcBits (8 * s.a.srcLen.toNat) = tableBits [] ++ (byteBits 0xE2 ++ byteBits 0x82) ∧ utf8Len 0xE2 = some 3 ∧
       (byteBits 0xE2 ++ byteBits 0x82).length < 8 * 3) ∧
    (let s := reading 8 [0xC0, 0x80, 1, 0]
     s.srcBits (8 * s.a.srcLen.toNat) =
       tableBits [] ++ ([(0xC0 : Byte), 0x80].flatMap byteBits ++ (byteBits 1 ++ byteBits 0)) ∧
       ([(0xC0 : Byte), 0x80].head?.bind utf8Len) = some 2 ∧ utf8Decode [0xC0, 0x80] = none) ∧
    (let s := reading 8 [0x61]
     s.srcBits (8 * s.a.srcLen.toNat) = tableBits [] ++ ((utf8Encode 0x61).flatMap byteBits ++ [])) ∧
    (let s := reading 8 [0x61, 1]
     s.srcBits (8 * s.a.srcLen.toNat) = tableBits [] ++ ((utf8Encode 0x61).flatMap byteBits ++ bin 8 1 ++ [])) ∧
    (let s := { reading 8 [0x61, 1, 0x31, 1, 0x4C, 0x60, 0x58] with params := { Config.params with nsymMax := 2 } }
     s.srcBits (8 * s.a.srcLen.toNat) =
       tableBits [⟨0x61, 0, 1⟩, ⟨0x62, 2, 2⟩] ++ (entryBits ⟨0x63, 3, 2⟩ ++ List.replicate 3 false) ∧
       (0x63 : Sym) ∉ [(0x61 : Sym), 0x62] ∧ [(0x61 : Sym), 0x62].dedup.length = s.params.nsymMax) := by
  decide +kernel

/-- TABLE_SER of the abca table, and the state that reads its bytes back. -/
def serState : State := begun 7 0 0 0x40 16 0 0 { State.reset with ct := abcaCt }
def serDone : State := (next? (exec .tableSer serState)).getD State.reset
def deserState (n : Word) : State := begun 8 0x40 n 0 0 0 0 serDone

theorem witness_TableRoundTrip :
    serState.params.ok = true ∧ CtOk serState.params serState.ct ∧ serState.dstInRange = true ∧
    bytesFor (tableBits serState.ct).length ≤ serState.a.dstCap.toNat ∧ exec .tableSer serState = .next serDone ∧
    (deserState 7).params = serState.params ∧ (deserState 7).dmem = serDone.dmem ∧
    (deserState 7).a.srcAddr = serState.a.dstAddr ∧ (deserState 7).a.srcLen = serDone.result0 :=
  ⟨by decide +kernel, by decide +kernel, by decide +kernel, by decide +kernel, eq_next_of_next? (by decide +kernel),
    by decide +kernel⟩

theorem witness_CutTableRegionIsTruncated :
    serState.params.ok = true ∧ CtOk serState.params serState.ct ∧ serState.ct ≠ [] ∧ serState.dstInRange = true ∧
    bytesFor (tableBits serState.ct).length ≤ serState.a.dstCap.toNat ∧ next? (exec .tableSer serState) = some serDone ∧ (deserState 6).params = serState.params ∧ (deserState 6).dmem = serDone.dmem ∧
    (deserState 6).a.srcAddr = serState.a.dstAddr ∧ (deserState 6).a.srcLen = serDone.result0 - 1 := by decide +kernel

theorem witness_TextEncodeWritesCodes :
    let text : List Sym := [0x61, 0x62, 0x63, 0x61]
    allScalar text ∧ covers encoding.ct text ∧ encoding.regionErr = none ∧ encoding.srcBytes = textBytes text ∧
      bytesFor (textCode encoding.ct text).length ≤ encoding.a.dstCap.toNat :=
  ⟨allScalar_of_all (by decide +kernel), covers_of_all (by decide +kernel), by decide +kernel⟩

/-- A text for each of TEXT_ENCODE's errors: "ab" and a bad byte, "ab" and a symbol CT lacks, "aaaaaaa" and "b" into no
bytes, "abca" into no bytes. -/
theorem witness_TextEncodeStopsAtFirstError :
    (allScalar [0x61, 0x62] ∧ covers abcaCt [0x61, 0x62]) ∧
    (allScalar (List.replicate 7 0x61) ∧ covers abcaCt (List.replicate 7 0x61)) ∧
    (allScalar [0x61, 0x62, 0x63, 0x61] ∧ covers abcaCt [0x61, 0x62, 0x63, 0x61]) ∧
    let st := fun (cap : Word) (bs : List Byte) =>
      begun 9 0 (BitVec.ofNat 32 bs.length) 0x80 cap 0 0 { State.powerOn Config.params (mem 0 bs) with ct := abcaCt }
    (let s := st 4 [0x61, 0x62, 0xFF]
     s.regionErr = none ∧ s.srcBytes = textBytes [0x61, 0x62] ++ [0xFF] ∧
       (textCode s.ct [0x61, 0x62]).length / 8 ≤ s.a.dstCap.toNat ∧ nextSymbol [0xFF] = none) ∧
    (let s := st 4 [0x61, 0x62, 0x78]
     s.regionErr = none ∧ s.srcBytes = textBytes [0x61, 0x62] ++ (utf8Encode 0x78 ++ []) ∧
       (0x78 : Sym) ∉ s.ct.map (·.sym)) ∧
    (let s := st 0 [0x61, 0x61, 0x61, 0x61, 0x61, 0x61, 0x61, 0x62]
     s.regionErr = none ∧ s.srcBytes = textBytes (List.replicate 7 0x61) ++ (utf8Encode 0x62 ++ []) ∧
       (textCode s.ct (List.replicate 7 0x61)).length / 8 ≤ s.a.dstCap.toNat ∧
       s.a.dstCap.toNat < (textCode s.ct (List.replicate 7 0x61 ++ [0x62])).length / 8) ∧
    (let s := st 0 [0x61, 0x62, 0x63, 0x61]
     s.regionErr = none ∧ s.srcBytes = textBytes [0x61, 0x62, 0x63, 0x61] ++ [] ∧
       (textCode s.ct [0x61, 0x62, 0x63, 0x61]).length / 8 ≤ s.a.dstCap.toNat ∧
       s.a.dstCap.toNat < bytesFor (textCode s.ct [0x61, 0x62, 0x63, 0x61]).length) :=
  ⟨⟨allScalar_of_all (by decide +kernel), covers_of_all (by decide +kernel)⟩,
    ⟨allScalar_of_all (by decide +kernel), covers_of_all (by decide +kernel)⟩,
    ⟨allScalar_of_all (by decide +kernel), covers_of_all (by decide +kernel)⟩, by decide +kernel⟩

/-- V142, V145 (ARG0 = 8), V102 (no source byte), V116 (no entry), V114 (a repeated pair at entry 1). -/
theorem witness_TextDecodeChecksInOrder :
    (∃ e, (begun 10 0xF0 0x20 0 0 9 0 State.reset).regionErr = some e) ∧
    ((decoding 0x58 64 8 abcaCt).regionErr = none ∧ 7 < (decoding 0x58 64 8 abcaCt).a.arg0.toNat) ∧
    ((begun 10 0 0 0 0 1 0 State.reset).regionErr = none ∧ (begun 10 0 0 0 0 1 0 State.reset).a.srcLen = 0) ∧
    ((decoding 0 64 7 []).regionErr = none ∧ ¬ 7 < (decoding 0 64 7 []).a.arg0.toNat ∧ (decoding 0 64 7 []).ct = []) ∧
    (let ct : List CtEntry := [⟨0x61, 0, 1⟩, ⟨0x62, 0, 1⟩]
     ct[1]? = some ⟨0x62, 0, 1⟩ ∧ (∃ f ∈ ct.take 1, f.value = 0 ∧ f.len = 1) ∧
       (ct.take 1).Pairwise (fun f g => ¬ (f.value = g.value ∧ f.len = g.len))) :=
  ⟨⟨⟨.range, 0⟩, by decide +kernel⟩, by decide +kernel⟩

/-- V96; V128, whose table holds an entry of len 0; and a table that is not prefix-free, the bits `0 1 1 0` of a, c, a under
(a, 0), (b, 01), (c, 11). -/
theorem witness_TextDecodeInvertsCodes :
    (let s := decoding 0x58 4 2 abcaCt
     let text : List Sym := [0x61, 0x62, 0x63, 0x61]
     covers s.ct text ∧ s.decodeErr = none ∧ CtOk s.params s.ct ∧ PrefixFree s.ct ∧ (∀ e ∈ s.ct, 1 ≤ e.len.toNat) ∧
       singleSym s.ct = none ∧ s.srcBits s.a.validBits = textCode s.ct text ∧
       (textBytes text).length ≤ s.a.dstCap.toNat) ∧
    (let ct : List CtEntry := [⟨0x61, 0, 1⟩, ⟨0x62, 1, 1⟩, ⟨0x63, 0, 0⟩]
     let s := decoding 0x40 2 6 ct
     let es : List CtEntry := [⟨0x61, 0, 1⟩, ⟨0x62, 1, 1⟩]
     s.decodeErr = none ∧ CtOk s.params s.ct ∧ singleSym s.ct = none ∧ shortestMatches s.ct es ∧
       s.srcBits s.a.validBits = es.flatMap codeBits ∧ (textBytes (es.map (·.sym))).length ≤ s.a.dstCap.toNat) ∧
    (let ct : List CtEntry := [⟨0x61, 0, 1⟩, ⟨0x62, 1, 2⟩, ⟨0x63, 3, 2⟩]
     let s := decoding 0x60 3 4 ct
     let es : List CtEntry := [⟨0x61, 0, 1⟩, ⟨0x63, 3, 2⟩, ⟨0x61, 0, 1⟩]
     s.decodeErr = none ∧ ¬ PrefixFree ct ∧ CtOk s.params s.ct ∧ singleSym s.ct = none ∧ shortestMatches s.ct es ∧
       s.srcBits s.a.validBits = es.flatMap codeBits ∧ (textBytes (es.map (·.sym))).length ≤ s.a.dstCap.toNat) :=
  ⟨⟨covers_of_all (by decide +kernel), by decide +kernel⟩, by decide +kernel, by decide +kernel⟩

/-- V107: every bit 1 under the code (0, 1). -/
theorem witness_SoleCodeDecodesEveryBit :
    let s := decoding 0xFF 8 0 [⟨0x61, 0, 1⟩]
    s.decodeErr = none ∧ s.a.validBits * (utf8Encode 0x61).length ≤ s.a.dstCap.toNat := by decide +kernel

/-- S8 and V125: two bits left, and three, under MAXLEN = 2; V109: one bit under a sole entry of len 0. -/
theorem witness_UnmatchedRunStopsOrFails :
    let ct : List CtEntry := [⟨0x61, 0, 1⟩, ⟨0x62, 2, 2⟩]
    (let s := decoding 0xC0 64 6 ct
     s.decodeErr = none ∧ CtOk s.params ct ∧ singleSym ct = none ∧ shortestMatches ct [] ∧
       s.srcBits s.a.validBits = [].flatMap codeBits ++ [true, true] ∧
       (∀ e ∈ ct, 1 ≤ e.len.toNat → ¬ codeBits e <+: [true, true]) ∧ [true, true].length ≤ maxLen ct) ∧
    (let s := decoding 0xC0 64 5 ct
     s.decodeErr = none ∧ s.srcBits s.a.validBits = [].flatMap codeBits ++ [true, true, false] ∧
       (∀ e ∈ ct, 1 ≤ e.len.toNat → ¬ codeBits e <+: [true, true, false]) ∧
       maxLen ct < [true, true, false].length) ∧
    (let s := decoding 0x00 64 7 [⟨0x61, 0, 0⟩]
     s.decodeErr = none ∧ CtOk s.params s.ct ∧ singleSym s.ct = none ∧ shortestMatches s.ct [] ∧
       s.srcBits s.a.validBits = [].flatMap codeBits ++ [false] ∧
       (∀ e ∈ s.ct, 1 ≤ e.len.toNat → ¬ codeBits e <+: [false]) ∧ maxLen s.ct < [false].length) := by
  decide +kernel

/-- V103: the fourth symbol does not fit in three bytes. V127: the second "€" does not fit in five. -/
theorem witness_TextDecodeStopsAtCapacity :
    (let s := decoding 0x58 3 2 abcaCt
     let es : List CtEntry := [⟨0x61, 0, 1⟩, ⟨0x62, 2, 2⟩, ⟨0x63, 3, 2⟩]
     s.decodeErr = none ∧ CtOk s.params s.ct ∧ singleSym s.ct = none ∧
       shortestMatches s.ct (es ++ [⟨0x61, 0, 1⟩]) ∧
       s.srcBits s.a.validBits = es.flatMap codeBits ++ codeBits ⟨0x61, 0, 1⟩ ++ [] ∧
       (textBytes (es.map (·.sym))).length ≤ s.a.dstCap.toNat ∧
       s.a.dstCap.toNat < (textBytes (es.map (·.sym))).length + (utf8Encode 0x61).length) ∧
    (let s := decoding 0x00 5 0 [⟨0x20AC, 0, 1⟩]
     s.decodeErr = none ∧ s.a.dstCap.toNat < s.a.validBits * (utf8Encode 0x20AC).length ∧
       s.a.dstCap.toNat / (utf8Encode 0x20AC).length = 1) := by
  decide +kernel

/-- The decoder's loop over V125's bits: an error, one bit after MAXLEN. -/
theorem witness_AccumulatorFitsItsWidth :
    ∃ e l, decLoop [⟨0x61, 0, 1⟩, ⟨0x62, 2, 2⟩] (decoding 0xC0 64 0 []).a [true, true, false] ⟨0, 0, 0, 0, 0, 0, []⟩ =
      .error (e, l) ∧ l.depth = 3 :=
  ⟨_, _, rfl, by decide +kernel⟩

/-! S1's whole sequence on "abca". -/

def whole : State :=
  { State.powerOn Config.params (mem 0 [0x61, 0x62, 0x63, 0x61]) with srcLen := 4 }
def whole1 : State := (next? (exec .freqCount (whole.start 2))).getD State.reset
def whole2 : State := (next? (exec .treeBuild (whole1.start 4))).getD State.reset
def whole3 : State := (next? (exec .codeGen (whole2.start 5))).getD State.reset
def whole4 : State := (next? (exec .textEncode ({ whole3 with dstAddr := 0x60, dstCap := 16 }.start 9))).getD State.reset

theorem witness_EncodeThenDecodeRestoresText :
    let text : List Sym := [0x61, 0x62, 0x63, 0x61]
    allScalar text ∧ whole.params.ok = true ∧ (whole.start 2).srcInRange = true ∧ text ≠ [] ∧ (whole.start 2).srcBytes = textBytes text ∧
    next? (exec .freqCount (whole.start 2)) = some whole1 ∧ whole1.errcode = .none ∧
    next? (exec .treeBuild (whole1.start 4)) = some whole2 ∧ whole2.errcode = .none ∧
    next? (exec .codeGen (whole2.start 5)) = some whole3 ∧ whole3.errcode = .none ∧
    next? (exec .textEncode ({ whole3 with dstAddr := 0x60, dstCap := 16 }.start 9)) = some whole4 ∧
    whole4.errcode = .none ∧
    ({ whole4 with srcAddr := 0x60, srcLen := whole4.result0, dstAddr := 0x20, dstCap := 4,
                   arg0 := whole4.result2 }.start 10).regionErr = none ∧ (textBytes text).length ≤ (4#32).toNat :=
  ⟨allScalar_of_all (by decide +kernel), by decide +kernel⟩

end Sys2Proof.Tests
end

section
/-! PROOFS. Every step keeps the tables' invariants (R10, R37, R40 to R44): what each command that writes FT, NODES or CT
leaves of them, then the step. -/

namespace Sys2Proof.Machine

/-! ## The parameters, and updates that reach no table -/

theorem Params.nsymMax_le_of_ok {p : Params} (h : p.ok = true) : p.nsymMax ≤ Config.maxScalars := by
  simp only [Params.ok, Bool.and_eq_true, decide_eq_true_eq] at h
  obtain ⟨⟨⟨-, hnsym⟩, -⟩, -⟩ := h
  exact hnsym

/-- `t` has the tables, the tree registers and the parameters of `s`. -/
def SameTables (s t : State) : Prop :=
  t.params = s.params ∧ t.ft = s.ft ∧ t.ct = s.ct ∧ t.treeValid = s.treeValid ∧ t.nodes = s.nodes ∧ t.root = s.root

/-- An update of other fields leaves the tables: both sides are the same tuple of fields of `s`. -/
theorem SameTables.refl (s : State) : SameTables s s := ⟨rfl, rfl, rfl, rfl, rfl, rfl⟩

theorem TablesOk.of_sameTables {s t : State} (h : TablesOk s) (hst : SameTables s t) : TablesOk t := by
  obtain ⟨hp, hf, hc, hv, hn, hr⟩ := hst
  unfold TablesOk treeRegsOk at *
  rwa [hp, hf, hc, hv, hn, hr]

/-- Without a tree (R37) only FT and CT have to be in order. -/
theorem TablesOk.of_noTree {s : State} (hp : s.params.ok = true) (hf : FtOk s.params s.ft) (hc : CtOk s.params s.ct)
    (hv : s.treeValid = false) (hn : s.nodes = []) (hr : s.root = 0) : TablesOk s :=
  ⟨hp, hf, hc, by simp [treeRegsOk, hv, hn, hr]⟩

theorem ftOk_nil (p : Params) : FtOk p [] := by simp [FtOk]

theorem ctOk_nil (p : Params) : CtOk p [] := by simp [CtOk]

/-! ## FT: FREQ_COUNT and FT_INSERT (R111, R113) -/

/-- An entry of a list modified at one index is an entry of the list, or the modified one. -/
theorem mem_of_mem_modify {α : Type} {l : List α} {i : Nat} {f : α → α} {x : α} (h : x ∈ l.modify i f) :
    x ∈ l ∨ ∃ y ∈ l, x = f y := by
  obtain ⟨k, hk, rfl⟩ := List.getElem_of_mem h
  rw [List.length_modify] at hk
  rw [List.getElem_modify]
  split
  · exact .inr ⟨_, List.getElem_mem hk, rfl⟩
  · exact .inl (List.getElem_mem hk)

/-- Setting the count of one entry of FT to a positive number keeps FT's invariants. -/
theorem FtOk.modify {p : Params} {t : List FtEntry} (h : FtOk p t) (i : Nat) {f : FtEntry → FtEntry}
    (hsym : ∀ e, (f e).sym = e.sym) (hcnt : ∀ e ∈ t, (f e).cnt ≠ 0) : FtOk p (t.modify i f) := by
  obtain ⟨hsorted, hentry, hlen⟩ := h
  have hsyms : (t.modify i f).map (·.sym) = t.map (·.sym) := by
    apply List.ext_getElem (by simp)
    intro k _ _
    simp only [List.getElem_map, List.getElem_modify]
    split
    · exact hsym _
    · rfl
  refine ⟨hsyms ▸ hsorted, fun e he => ?_, by simpa using hlen⟩
  obtain he | ⟨y, hy, rfl⟩ := mem_of_mem_modify he
  · exact hentry e he
  · exact ⟨(hsym y).symm ▸ (hentry y hy).1, hcnt y hy⟩

/-- Inserting a new symbol into an FT that is not full keeps FT's invariants (R112). -/
theorem FtOk.insertSorted {p : Params} {t : List FtEntry} {e : FtEntry} (h : FtOk p t) (hnew : e.sym ∉ t.map (·.sym))
    (hroom : t.length ≠ p.nsymMax) (hs : isScalar e.sym.toNat = true) (hc : e.cnt ≠ 0) :
    FtOk p (ftInsertSorted t e) := by
  obtain ⟨hsorted, hentry, hlen⟩ := h
  have hperm := ftInsertSorted_perm t e
  refine ⟨ftInsertSorted_sorted hsorted hnew, fun x hx => ?_, by simp [hperm.length_eq]; omega⟩
  rcases List.mem_cons.1 (hperm.mem_iff.1 hx) with rfl | hx
  · exact ⟨hs, hc⟩
  · exact hentry x hx

/-- `k` more symbols can be counted without a count that wraps. -/
def FtRoom (t : List FtEntry) (k : Nat) : Prop :=
  k < 2 ^ 32 ∧ ∀ e ∈ t, e.cnt.toNat + k < 2 ^ 32

theorem FtRoom.mono {t : List FtEntry} {j k : Nat} (h : FtRoom t k) (hjk : j ≤ k) : FtRoom t j :=
  ⟨hjk.trans_lt h.1, fun e he => by have := h.2 e he; omega⟩

/-- A count that has room for one more does not wrap to 0 (R40). -/
theorem toNat_succ_of_room {c : Count} {k : Nat} (h : c.toNat + (k + 1) < 2 ^ 32) : (c + 1).toNat = c.toNat + 1 := by
  have hone : (1 : Count).toNat = 1 := rfl
  rw [BitVec.toNat_add, hone, Nat.mod_eq_of_lt (by omega)]

/-- Counting one symbol keeps FT's invariants, and takes one symbol of the room (R111). -/
theorem ftCount_keeps {p : Params} {t t' : List FtEntry} {x : Sym} {k : Nat} (hf : FtOk p t) (hr : FtRoom t (k + 1))
    (hx : isScalar x.toNat = true) (h : ftCount p.nsymMax t x = some t') : FtOk p t' ∧ FtRoom t' k := by
  have hr' := hr.mono (Nat.le_succ k)
  unfold ftCount at h
  split at h
  · cases h
    constructor
    · refine hf.modify _ (fun _ => rfl) fun e he hz => ?_
      have hwrap := congrArg BitVec.toNat hz
      rw [toNat_succ_of_room (hr.2 e he)] at hwrap
      exact absurd hwrap (Nat.succ_ne_zero _)
    · refine ⟨hr'.1, fun e he => ?_⟩
      obtain he | ⟨y, hy, rfl⟩ := mem_of_mem_modify he
      · exact hr'.2 e he
      · have := hr.2 y hy
        rw [toNat_succ_of_room this]
        omega
  · rename_i hnone
    split at h
    · cases h
    · rename_i hroom
      cases h
      refine ⟨hf.insertSorted (ftFind_eq_none.1 hnone) hroom hx (by simp), hr'.1, fun e he => ?_⟩
      rcases List.mem_cons.1 ((ftInsertSorted_perm t ⟨x, 1⟩).mem_iff.1 he) with rfl | he
      · have := hr.1
        have hone : (1 : Count).toNat = 1 := rfl
        simp only [hone]
        omega
      · exact hr'.2 e he

/-- FREQ_COUNT's loop keeps FT's invariants where there is room for as many symbols as bytes are left (R111). -/
theorem freqLoop_keeps {p : Params} {fuel : Nat} {bs : List Byte} {l l' : FreqLoop} (hf : FtOk p l.new)
    (hr : FtRoom l.new bs.length) (h : freqLoop p.nsymMax fuel bs l = .ok l') : FtOk p l'.new := by
  induction fuel generalizing bs l with
  | zero => cases bs <;> cases h <;> exact hf
  | succ fuel ih =>
    cases bs with
    | nil => cases h; exact hf
    | cons b bs =>
      rw [freqLoop] at h
      split at h
      · cases h
      · rename_i x n hsym
        obtain ⟨hx, hn, -, -⟩ := nextSymbol_some hsym
        split at h
        · cases h
        · rename_i t ht
          obtain ⟨hft, hroom⟩ := ftCount_keeps hf (by simpa using hr) hx ht
          refine ih hft (hroom.mono ?_) h
          simp
          omega

theorem execFreqCount_keeps {s t : State} (hs : TablesOk s) (h : execFreqCount s = .next t) : TablesOk t := by
  obtain ⟨hp, hf, hc, -⟩ := hs
  unfold execFreqCount at h
  split at h
  · cases h
    exact .of_noTree hp (ftOk_nil _) hc rfl rfl rfl
  · split at h <;> cases h
    · exact .of_noTree hp (ftOk_nil _) hc rfl rfl rfl
    · rename_i l hl
      have hroom : FtRoom [] s.srcBytes.length := ⟨by simpa [State.srcBytes] using s.a.srcLen.isLt, by simp⟩
      exact .of_noTree hp (freqLoop_keeps (ftOk_nil _) hroom hl) hc rfl rfl rfl

/-- A word that is a scalar keeps its number in the 21 bits of a symbol (R113). -/
theorem isScalar_setWidth {w : Word} (h : isScalar w.toNat = true) : isScalar (w.setWidth 21).toNat = true := by
  obtain ⟨hle, -⟩ := (isScalar_iff _).1 h
  rwa [BitVec.toNat_setWidth, Nat.mod_eq_of_lt (by omega)]

theorem execFtInsert_keeps {s t : State} (hs : TablesOk s) (h : execFtInsert s = .next t) : TablesOk t := by
  obtain ⟨hp, hf, hc, -⟩ := hs
  unfold execFtInsert at h
  split at h
  · cases h; exact .of_noTree hp hf hc rfl rfl rfl
  rename_i hscalar
  split at h
  · cases h; exact .of_noTree hp hf hc rfl rfl rfl
  rename_i hcnt
  have hx : isScalar (s.a.arg0.setWidth 21).toNat = true := isScalar_setWidth (by simpa using hscalar)
  split at h
  · cases h
    exact .of_noTree hp (hf.modify _ (fun _ => rfl) fun _ _ => hcnt) hc rfl rfl rfl
  · rename_i hnone
    split at h <;> cases h
    · exact .of_noTree hp hf hc rfl rfl rfl
    · rename_i hroom
      exact .of_noTree hp (hf.insertSorted (ftFind_eq_none.1 hnone) hroom hx hcnt) hc rfl rfl rfl

/-! ## CT: TABLE_DESER (R150) -/

theorem map_sym_mapPut (t : List CtEntry) (e : CtEntry) :
    (mapPut t e).map (·.sym) = if e.sym ∈ t.map (·.sym) then t.map (·.sym) else t.map (·.sym) ++ [e.sym] := by
  unfold mapPut
  split
  · rw [List.map_map]
    refine List.map_congr_left fun y _ => ?_
    simp only [Function.comp_apply]
    split <;> simp_all
  · simp

/-- An entry after a mapping insert is the one inserted, or was there before (R153). -/
theorem mem_of_mem_mapPut {t : List CtEntry} {e x : CtEntry} (h : x ∈ mapPut t e) : x = e ∨ x ∈ t := by
  unfold mapPut at h
  split at h
  · obtain ⟨y, hy, rfl⟩ := List.mem_map.1 h
    split
    · exact .inl rfl
    · exact .inr hy
  · simpa [or_comm] using h

/-- The deserializer's insert keeps CT's invariants (R150, R153). -/
theorem ctPut_keeps {p : Params} {t t' : List CtEntry} {e : CtEntry} (ht : CtOk p t)
    (hs : isScalar e.sym.toNat = true) (hv : e.value.toNat < 2 ^ e.len.toNat) (h : ctPut p.nsymMax t e = some t') :
    CtOk p t' := by
  obtain ⟨hdistinct, hentry, hlen⟩ := ht
  rw [ctPut_eq _ hdistinct] at h
  split at h
  · cases h
  · rename_i hroom
    cases h
    refine ⟨?_, fun x hx => ?_, ?_⟩
    · rw [map_sym_mapPut]
      split
      · exact hdistinct
      · rename_i hnew
        exact List.Nodup.append hdistinct (List.nodup_singleton _) (by simpa using hnew)
    · rcases mem_of_mem_mapPut hx with rfl | hx
      · exact ⟨hs, hv⟩
      · exact hentry x hx
    · have hl := congrArg List.length (map_sym_mapPut t e)
      split at hl
      · rw [List.length_map, List.length_map] at hl
        omega
      · rename_i hnew
        have hfull : t.length ≠ p.nsymMax := fun hfull => hroom ⟨hnew, hfull⟩
        rw [List.length_append, List.length_map, List.length_map, List.length_singleton] at hl
        omega

/-- An entry the deserializer reads holds a symbol, and a value of no more than its length's bits (R150). -/
theorem readEntry_entry {bs : List Bool} {e : CtEntry} {n : Nat} (h : readEntry bs = .entry e n) :
    isScalar e.sym.toNat = true ∧ e.value.toNat < 2 ^ e.len.toNat := by
  unfold readEntry at h
  split at h
  · cases h
  split at h
  · cases h
  split at h
  · cases h
  rename_i x hx
  dsimp only at h
  split at h
  · cases h
  split at h
  · cases h
  rename_i hlen hfit
  cases h
  refine ⟨isScalar_of_utf8Decode hx, ?_⟩
  generalize bs.drop _ = cs at *
  have hlen8 : bitsNat (cs.take 8) < 2 ^ 8 := by
    have := bitsNat_lt (cs.take 8)
    rwa [List.length_take_of_le (by omega)] at this
  have hval := bitsNat_lt ((cs.drop 8).take (bitsNat (cs.take 8)))
  rw [List.length_take_of_le (by omega)] at hval
  simp only [BitVec.toNat_ofNat, Nat.mod_eq_of_lt hlen8]
  exact (Nat.mod_le _ _).trans_lt hval

theorem deserLoop_keeps {p : Params} {fuel : Nat} {l l' : DeserLoop} (hl : CtOk p l.new)
    (h : deserLoop p.nsymMax fuel l = .ok l') : CtOk p l'.new := by
  induction fuel generalizing l with
  | zero => cases h; exact hl
  | succ fuel ih =>
    rw [deserLoop] at h
    split at h
    · cases h; exact hl
    split at h
    · cases h
    · cases h
    · rename_i e n he
      obtain ⟨hs, hv⟩ := readEntry_entry he
      split at h
      · cases h
      · rename_i t ht
        exact ih (ctPut_keeps hl hs hv ht) h

theorem execTableDeser_keeps {s t : State} (hs : TablesOk s) (h : execTableDeser s = .next t) : TablesOk t := by
  obtain ⟨hp, hf, -, htree⟩ := hs
  unfold execTableDeser at h
  split at h
  · cases h; exact ⟨hp, hf, ctOk_nil _, htree⟩
  · dsimp only at h
    split at h <;> cases h
    · exact ⟨hp, hf, ctOk_nil _, htree⟩
    · rename_i l hl
      exact ⟨hp, hf, deserLoop_keeps (ctOk_nil _) hl, htree⟩

/-! ## NODES: TREE_BUILD's loop (R120 to R125, R41, R42) -/

@[simp] theorem length_leavesOf (ft : List FtEntry) : (leavesOf ft).length = ft.length := by simp [leavesOf]

theorem children_leavesOf {ft : List FtEntry} {n : Node} (h : n ∈ leavesOf ft) : n.children = [] := by
  obtain ⟨e, -, rfl⟩ := List.mem_map.1 h
  rfl

/-- A leaf's frequency is its symbol's count, zero-extended (R41). -/
theorem nodeFreq_leavesOf {ft : List FtEntry} {i : Nat} (h : i < ft.length) :
    (nodeFreq (leavesOf ft) i).toNat = ft[i].cnt.toNat := by
  have : ft[i].cnt.toNat < 2 ^ 32 := ft[i].cnt.isLt
  simp [nodeFreq, leavesOf, h, Node.freq]
  omega

/-- The counts of FT sum to less than 2^53 (R121). -/
theorem sum_cnt_lt {p : Params} {ft : List FtEntry} (hp : p.ok = true) (hf : FtOk p ft) :
    (ft.map (·.cnt.toNat)).sum < 2 ^ 53 := by
  obtain ⟨-, -, hcap⟩ := hf
  have hnsym := Params.nsymMax_le_of_ok hp
  have hsum := List.sum_le_card_nsmul (ft.map (·.cnt.toNat)) (2 ^ 32 - 1) (by
    simp only [List.mem_map, forall_exists_index, and_imp, forall_apply_eq_imp_iff₂]
    exact fun e _ => Nat.le_pred_of_lt e.cnt.isLt)
  simp only [List.length_map, smul_eq_mul, Config.maxScalars] at hnsym hsum
  omega

theorem nodeFreq_append_self (nodes : List Node) (n : Node) : nodeFreq (nodes ++ [n]) nodes.length = n.freq := by
  simp [nodeFreq]

/-- A new node at the end leaves the others in order. -/
theorem nodeOk_append {nodes : List Node} {i : Nat} (hi : i < nodes.length) (more : List Node)
    (h : nodeOk nodes i) : nodeOk (nodes ++ more) i := by
  unfold nodeOk at *
  rw [List.getElem?_append_left hi]
  split
  · rename_i l r f hn
    rw [hn] at h
    obtain ⟨hl, hr, hsum⟩ := h
    exact ⟨hl, hr, by rw [nodeFreq_append (hl.trans hi), nodeFreq_append (hr.trans hi), hsum]⟩
  · trivial

/-- One merge of TREE_BUILD's loop (R120): nodes x and y, the first two of the sorted working set, get a parent. -/
def TreeLoop.merge (l : TreeLoop) (x y : Nat) (rest : List Nat) : TreeLoop :=
  { nodes := l.nodes ++ [.internal x y (nodeFreq l.nodes x + nodeFreq l.nodes y)],
    ws := rest ++ [l.nodes.length], m := l.m + 1 }

/-- One turn of the loop with two nodes or more in the working set is one merge. -/
theorem treeLoop_merge {l : TreeLoop} {x y : Nat} {rest : List Nat} (h : stableSort l.nodes l.ws = x :: y :: rest)
    (fuel : Nat) : treeLoop (fuel + 1) l = treeLoop fuel (l.merge x y rest) := by
  rw [treeLoop, h]
  rfl

/-- The loop ends where the working set has one node or none. -/
theorem treeLoop_done {l : TreeLoop} (h : l.ws.length ≤ 1) (fuel : Nat) : treeLoop fuel l = l := by
  cases fuel with
  | zero => rfl
  | succ fuel =>
    rw [treeLoop]
    split
    · rename_i hsort
      have := hsort ▸ (stableSort_perm l.nodes l.ws).length_eq
      simp at this
      omega
    · rfl

/-- The induction over TREE_BUILD's loop: what holds at its start and is kept by every merge holds at its end, where the
working set has one node or none. -/
theorem treeLoop_induct {P : TreeLoop → Prop}
    (hmerge : ∀ l x y rest, P l → stableSort l.nodes l.ws = x :: y :: rest → P (l.merge x y rest))
    (fuel : Nat) (l : TreeLoop) (h : P l) (hfuel : l.ws.length ≤ fuel + 1) :
    P (treeLoop fuel l) ∧ (treeLoop fuel l).ws.length ≤ 1 := by
  induction fuel generalizing l with
  | zero => exact ⟨h, hfuel⟩
  | succ fuel ih =>
    by_cases hw : l.ws.length ≤ 1
    · rw [treeLoop_done hw]
      exact ⟨h, hw⟩
    · have hlen := (stableSort_perm l.nodes l.ws).length_eq
      obtain ⟨x, y, rest, hsort⟩ : ∃ x y rest, stableSort l.nodes l.ws = x :: y :: rest := by
        match hs : stableSort l.nodes l.ws with
        | [] | [_] => rw [hs] at hlen; simp at hlen; omega
        | x :: y :: rest => exact ⟨x, y, rest, rfl⟩
      rw [treeLoop_merge hsort]
      refine ih _ (hmerge l x y rest h hsort) ?_
      rw [hsort] at hlen
      simp [TreeLoop.merge] at hlen ⊢
      omega

/-- What TREE_BUILD's loop keeps over FT: the leaves first, in FT order, then one internal node for each merge made; each
node in order (`nodeOk`); each node a child of exactly one node, or in the working set; and the frequencies of the
working set summing to the counts of FT (R41, R42, R43, R121). -/
structure TreeLoop.Ok (ft : List FtEntry) (l : TreeLoop) : Prop where
  leaves : l.nodes.take ft.length = leavesOf ft
  nodeCount : l.nodes.length = ft.length + l.m
  wsCount : l.ws.length + l.m = ft.length
  internals : ∀ n ∈ l.nodes.drop ft.length, n.children ≠ []
  nodesOk : ∀ i < l.nodes.length, nodeOk l.nodes i
  once : (l.nodes.flatMap Node.children ++ l.ws).Perm (List.range l.nodes.length)
  total : (l.ws.map fun i => (nodeFreq l.nodes i).toNat).sum = (ft.map (·.cnt.toNat)).sum

theorem TreeLoop.Ok.ws_lt {ft : List FtEntry} {l : TreeLoop} (h : l.Ok ft) {i : Nat} (hi : i ∈ l.ws) :
    i < l.nodes.length :=
  List.mem_range.1 (h.once.mem_iff.1 (List.mem_append_right _ hi))

/-- Where TREE_BUILD's loop starts, each leaf is in the working set. -/
theorem TreeLoop.Ok.init (ft : List FtEntry) :
    TreeLoop.Ok ft { nodes := leavesOf ft, ws := List.range ft.length, m := 0 } where
  leaves := List.take_of_length_le (by simp)
  nodeCount := by simp
  wsCount := by simp
  internals := by simp [List.drop_of_length_le]
  nodesOk i _ := by
    unfold nodeOk
    split
    · rename_i hn
      simpa [Node.children] using children_leavesOf (List.mem_of_getElem? hn)
    · trivial
  once := by
    rw [List.flatMap_eq_nil_iff.2 fun n hn => children_leavesOf hn]
    simp
  total := by
    congr 1
    apply List.ext_getElem (by simp)
    intro i hi _
    simp at hi
    simp [nodeFreq_leavesOf hi]

/-- A merge keeps the loop's invariant. No sum of frequencies wraps, since the working set's are parts of the counts of FT
(R121). -/
theorem TreeLoop.Ok.merge {ft : List FtEntry} (htotal : (ft.map (·.cnt.toNat)).sum < 2 ^ 64) {l : TreeLoop} {x y : Nat}
    {rest : List Nat} (h : l.Ok ft) (hsort : stableSort l.nodes l.ws = x :: y :: rest) : (l.merge x y rest).Ok ft := by
  have hperm : l.ws.Perm (x :: y :: rest) := hsort ▸ (stableSort_perm l.nodes l.ws).symm
  have hlt : ∀ i ∈ x :: y :: rest, i < l.nodes.length := fun i hi => h.ws_lt (hperm.mem_iff.2 hi)
  have hx := hlt x (by simp)
  have hy := hlt y (by simp)
  have hN : ft.length ≤ l.nodes.length := by have := h.nodeCount; omega
  have hsum := (hperm.map fun i => (nodeFreq l.nodes i).toNat).sum_eq
  rw [h.total] at hsum
  simp only [List.map_cons, List.sum_cons] at hsum
  have hexact : (nodeFreq l.nodes x + nodeFreq l.nodes y).toNat =
      (nodeFreq l.nodes x).toNat + (nodeFreq l.nodes y).toNat := by
    rw [BitVec.toNat_add, Nat.mod_eq_of_lt (by omega)]
  constructor
  case leaves => simpa [TreeLoop.merge, List.take_append_of_le_length hN] using h.leaves
  case nodeCount => simp [TreeLoop.merge, h.nodeCount]; omega
  case wsCount =>
    have := h.wsCount
    rw [hperm.length_eq] at this
    simp [TreeLoop.merge] at this ⊢
    omega
  case internals =>
    intro n hn
    simp only [TreeLoop.merge, List.drop_append_of_le_length hN, List.mem_append, List.mem_singleton] at hn
    rcases hn with hn | rfl
    · exact h.internals n hn
    · simp [Node.children]
  case nodesOk =>
    intro i hi
    simp only [TreeLoop.merge, List.length_append, List.length_singleton] at hi ⊢
    rcases Nat.lt_succ_iff_lt_or_eq.1 hi with hi | rfl
    · exact nodeOk_append hi _ (h.nodesOk i hi)
    · simp [nodeOk, nodeFreq_append hx, nodeFreq_append hy, hx, hy, hexact]
  case once =>
    simp only [TreeLoop.merge, List.length_append, List.length_singleton, List.range_succ, List.flatMap_append,
      List.flatMap_singleton, Node.children]
    rw [← List.append_assoc]
    refine List.Perm.append_right _ (.trans ?_ h.once)
    rw [List.append_assoc]
    exact hperm.symm.append_left _
  case total =>
    have hrest : (rest.map fun i => (nodeFreq (l.merge x y rest).nodes i).toNat) =
        rest.map fun i => (nodeFreq l.nodes i).toNat :=
      List.map_congr_left fun i hi => by
        rw [TreeLoop.merge, nodeFreq_append (hlt i (by simp [hi]))]
    have hnew : (nodeFreq (l.merge x y rest).nodes l.nodes.length).toNat =
        (nodeFreq l.nodes x).toNat + (nodeFreq l.nodes y).toNat := by
      rw [TreeLoop.merge, nodeFreq_append_self, ← hexact]
      rfl
    rw [show (l.merge x y rest).ws = rest ++ [l.nodes.length] from rfl, List.map_append, hrest]
    simp only [List.map_cons, List.map_nil, List.sum_append, List.sum_cons, List.sum_nil, hnew]
    omega

/-- A child is not the last node: it stands below its parent (R41). -/
theorem child_lt {nodes : List Node} (h : ∀ i < nodes.length, nodeOk nodes i) {c : Nat}
    (hc : c ∈ nodes.flatMap Node.children) : c + 1 < nodes.length := by
  obtain ⟨n, hn, hc⟩ := List.mem_flatMap.1 hc
  obtain ⟨i, hi, rfl⟩ := List.getElem_of_mem hn
  have hok := h i hi
  rw [nodeOk, List.getElem?_eq_getElem hi] at hok
  cases hnode : nodes[i] with
  | leaf x f => simp [hnode, Node.children] at hc
  | internal l r f =>
    simp only [hnode, Node.children, List.mem_cons, List.not_mem_nil, or_false] at hc hok
    omega

/-- The last node is in the working set, as it is no node's child. -/
theorem TreeLoop.Ok.last_mem_ws {ft : List FtEntry} {l : TreeLoop} (h : l.Ok ft) (hne : ft ≠ []) :
    l.nodes.length - 1 ∈ l.ws := by
  have hpos := List.length_pos_of_ne_nil hne
  have hcount := h.nodeCount
  have hlast := h.once.mem_iff.2 (List.mem_range.2 (show l.nodes.length - 1 < l.nodes.length by omega))
  rcases List.mem_append.1 hlast with hc | hw
  · have := child_lt h.nodesOk hc
    omega
  · exact hw

/-- With no more than one node left in the working set, the loop has made the tree of a non-empty FT, and its root is
that node. -/
theorem TreeLoop.Ok.treeOk {ft : List FtEntry} {l : TreeLoop} (h : l.Ok ft) (hne : ft ≠ []) (hle : l.ws.length ≤ 1) :
    l.m + 1 = ft.length ∧ TreeOk ft l.nodes (l.ws.headD 0) := by
  have hlast := h.last_mem_ws hne
  have hw : l.ws = [l.nodes.length - 1] := by
    match hws : l.ws, hle with
    | [], _ => simp [hws] at hlast
    | [r], _ => simpa [hws, eq_comm] using hlast
  have hm : l.m + 1 = ft.length := by have := h.wsCount; simp [hw] at this; omega
  have hlen : l.nodes.length = 2 * ft.length - 2 + 1 := by have := h.nodeCount; omega
  have honce := h.once
  rw [hw, hlen, Nat.add_sub_cancel, List.range_succ] at honce
  refine ⟨hm, by omega, by omega, by simp [hw, hlen], h.leaves, h.internals, h.nodesOk, ?_⟩
  rw [hlen, Nat.add_sub_cancel]
  exact (List.perm_append_right_iff _).1 honce

/-- TREE_BUILD's loop ends with its invariant, and with no more than one node in the working set. -/
theorem buildTree_ok {p : Params} {ft : List FtEntry} (hp : p.ok = true) (hf : FtOk p ft) :
    (buildTree ft).Ok ft ∧ (buildTree ft).ws.length ≤ 1 := by
  have htotal : (ft.map (·.cnt.toNat)).sum < 2 ^ 64 := (sum_cnt_lt hp hf).trans (by decide)
  exact treeLoop_induct (fun _ _ _ _ h hsort => h.merge htotal hsort) ft.length _ (.init ft) (by simp)

/-- TREE_BUILD makes the tree of a non-empty FT, with one merge less than FT has entries (R124, R125). -/
theorem buildTree_treeOk {p : Params} {ft : List FtEntry} (hp : p.ok = true) (hf : FtOk p ft) (hne : ft ≠ []) :
    (buildTree ft).m + 1 = ft.length ∧ TreeOk ft (buildTree ft).nodes ((buildTree ft).ws.headD 0) :=
  (buildTree_ok hp hf).1.treeOk hne (buildTree_ok hp hf).2

theorem execTreeBuild_keeps {s t : State} (hs : TablesOk s) (h : execTreeBuild s = .next t) : TablesOk t := by
  obtain ⟨hp, hf, hc, -⟩ := hs
  unfold execTreeBuild at h
  split at h <;> cases h
  · exact .of_noTree hp hf hc rfl rfl rfl
  · rename_i hne
    have htree := (buildTree_treeOk hp hf (by simpa using hne)).2
    exact ⟨hp, hf, hc, by simpa [treeRegsOk] using htree⟩

/-! ## CT: CODE_GEN (R130 to R136) -/

/-- The walk's codes have no more bits than their depth (R130). -/
theorem walk_code_lt {nodes : List Node} {fuel i v d : Nat} (hv : v < 2 ^ d) :
    ∀ c ∈ walk nodes fuel i v d, c.code < 2 ^ c.depth := by
  induction fuel generalizing i v d with
  | zero => simp [walk]
  | succ fuel ih =>
    rw [walk]
    split
    · simpa using hv
    · intro c hc
      rcases List.mem_append.1 hc with hc | hc
      · exact ih (by rw [Nat.pow_succ]; omega) c hc
      · exact ih (by rw [Nat.pow_succ]; omega) c hc
    · simp

theorem leafCodes_code_lt (nodes : List Node) (root : Nat) : ∀ c ∈ leafCodes nodes root, c.code < 2 ^ c.depth := by
  unfold leafCodes
  split
  · simp
  · exact walk_code_lt (by simp)

theorem codeOf_code_lt {codes : List LeafCode} (h : ∀ c ∈ codes, c.code < 2 ^ c.depth) (i : Nat) :
    (codeOf codes i).code < 2 ^ (codeOf codes i).depth := by
  unfold codeOf
  cases hf : codes.find? fun c => c.leaf = i with
  | none => simp
  | some c => exact h c (List.mem_of_find?_eq_some hf)

/-- No leaf too deep: each depth fits the length field (R130, R132). -/
theorem depth_le_of_firstTooLong {codes : List LeafCode} {n i : Nat} (h : firstTooLong codes n = none) (hi : i < n) :
    (codeOf codes i).depth ≤ Config.maxCodeLen := by
  have := List.find?_eq_none.1 h i (List.mem_range.2 hi)
  simpa using this

/-- CT's symbols are FT's, in FT order (R133). -/
theorem map_sym_codeTable {ft : List FtEntry} {nodes : List Node} (h : nodes.take ft.length = leavesOf ft)
    (codes : List LeafCode) : (codeTable nodes codes ft.length).map (·.sym) = ft.map (·.sym) := by
  apply List.ext_getElem (by simp [codeTable])
  intro i hi _
  simp only [List.length_map, codeTable, List.length_range] at hi
  have hn : nodes[i]? = (leavesOf ft)[i]? := by rw [← h, List.getElem?_take_of_lt hi]
  simp [codeTable, leafSym, hn, leavesOf, hi]

/-- CODE_GEN's table meets CT's invariants (R44) where no leaf is too deep. -/
theorem codeTable_ctOk {p : Params} {ft : List FtEntry} {nodes : List Node} {codes : List LeafCode} (hf : FtOk p ft)
    (hl : nodes.take ft.length = leavesOf ft) (hcodes : ∀ c ∈ codes, c.code < 2 ^ c.depth)
    (hfit : firstTooLong codes ft.length = none) : CtOk p (codeTable nodes codes ft.length) := by
  obtain ⟨hsorted, hentry, hlen⟩ := hf
  have hsyms := map_sym_codeTable hl codes
  refine ⟨?_, fun e he => ⟨?_, ?_⟩, by simpa [codeTable] using hlen⟩
  · rw [hsyms]
    exact hsorted.imp fun hlt => BitVec.ne_of_lt hlt
  · have hmem : e.sym ∈ ft.map (·.sym) := hsyms ▸ List.mem_map_of_mem he
    obtain ⟨x, hx, hxe⟩ := List.mem_map.1 hmem
    exact hxe ▸ (hentry x hx).1
  · obtain ⟨i, hi, rfl⟩ := List.mem_map.1 he
    have hd := depth_le_of_firstTooLong hfit (List.mem_range.1 hi)
    simp only [Config.maxCodeLen] at hd
    simp only [BitVec.toNat_ofNat, Nat.mod_eq_of_lt (show (codeOf codes i).depth < 2 ^ 8 by omega)]
    exact (Nat.mod_le _ _).trans_lt (codeOf_code_lt hcodes i)

theorem execCodeGen_keeps {s t : State} (hs : TablesOk s) (h : execCodeGen s = .next t) : TablesOk t := by
  obtain ⟨hp, hf, hc, htree⟩ := hs
  unfold execCodeGen at h
  split at h
  · cases h; exact .of_noTree hp hf (ctOk_nil _) rfl rfl rfl
  rename_i hv
  have hv : s.treeValid = true := by simpa using hv
  rw [treeRegsOk, if_pos hv] at htree
  obtain ⟨hpos, hcount, -, hleaves, -⟩ := htree
  have hn : (s.nodes.length + 1) / 2 = s.ft.length := by omega
  dsimp only at h
  split at h <;> cases h
  · exact .of_noTree hp hf (ctOk_nil _) rfl rfl rfl
  · rename_i hfit
    rw [hn] at hfit
    refine .of_noTree hp hf ?_ rfl rfl rfl
    simpa [hn] using codeTable_ctOk hf hleaves (leafCodes_code_lt _ _) hfit

/-! ## The step -/

/-- The commands that write neither a table nor the tree registers. -/
theorem exec_sameTables {i : Instr} (hi : i ∈ [Instr.nop, .tableSer, .textEncode, .textDecode]) {s t : State}
    (h : exec i s = .next t) : SameTables s t := by
  simp only [List.mem_cons, List.not_mem_nil, or_false] at hi
  rcases hi with rfl | rfl | rfl | rfl
  · cases h; exact .refl s
  · simp only [exec, execTableSer] at h
    split at h
    · cases h; exact .refl s
    split at h
    · cases h; exact .refl s
    split at h <;> cases h <;> exact .refl s
  · simp only [exec, execTextEncode] at h
    split at h
    · cases h; exact .refl s
    split at h
    · cases h; exact .refl s
    split at h <;> cases h <;> exact .refl s
  · simp only [exec, execTextDecode] at h
    split at h
    · cases h; exact .refl s
    split at h <;> cases h <;> exact .refl s

theorem exec_keeps_tables {i : Instr} {s t : State} (hs : TablesOk s) (h : exec i s = .next t) : TablesOk t := by
  have ⟨hp, hf, hc, htree⟩ := hs
  cases i with
  | nop | tableSer | textEncode | textDecode => exact hs.of_sameTables (exec_sameTables (by simp) h)
  | ftClear => cases h; exact .of_noTree hp (ftOk_nil _) hc rfl rfl rfl
  | freqCount => exact execFreqCount_keeps hs h
  | ftInsert => exact execFtInsert_keeps hs h
  | treeBuild => exact execTreeBuild_keeps hs h
  | codeGen => exact execCodeGen_keeps hs h
  | ctClear => cases h; exact ⟨hp, hf, ctOk_nil _, htree⟩
  | tableDeser => exact execTableDeser_keeps hs h
  | softReset => cases h; exact .of_noTree hp (ftOk_nil _) (ctOk_nil _) rfl rfl rfl

theorem engineStep_keeps_tables {s t : State} (hs : TablesOk s) (h : engineStep s = .next t) : TablesOk t := by
  obtain ⟨i, -, h⟩ | ⟨-, -, rfl⟩ := engineStep_cases h
  · exact exec_keeps_tables hs h
  · exact hs.of_sameTables (.refl s)

/-- Of the host's transactions only the soft reset reaches a table. -/
theorem hostStep_keeps_tables {op : HostOp} {s t : State} (hs : TablesOk s) (h : hostStep op s = .next t) :
    TablesOk t := by
  rcases hostStep_cases h with ⟨v, -, -, h⟩ | ⟨v, -, -, rfl⟩ | ⟨w, -, -, rfl⟩ | ⟨w, -, -, rfl⟩ | ⟨v, -, rfl⟩ |
    ⟨_, _, _, _, _, _, _, rfl⟩ | ⟨v, n, ops, -, rfl⟩ | ⟨addr, b, -, -, -, -, rfl⟩
  · exact exec_keeps_tables hs h
  all_goals exact hs.of_sameTables (.refl s)

/-- Settles O26: each agent's move keeps the tables' invariants. -/
theorem stepKeepsTables : Obligations.StepKeepsTables := by
  intro s s' hs h
  obtain ⟨q, -, h⟩ | ⟨op, ops, q, -, -, -, h⟩ | ⟨-, -, rfl⟩ := step_cases h
  · exact engineStep_keeps_tables (s := { s with sched := q }) (hs.of_sameTables (.refl s)) h
  · exact hostStep_keeps_tables (s := { s with sched := q, host := ops }) (hs.of_sameTables (.refl s)) h
  · exact hs

end Sys2Proof.Machine
end

section
/-! PROOFS. Host accesses to the CSRs (R20 to R50): a write and a read by the register at the offset, the layout of
STATUS and CTRL, and the windows. -/

namespace Sys2Proof.Machine

/-! ## Offsets, writes and reads -/

theorem csrAt_csrOffset (c : Csr) : csrAt (csrOffset c) = some c := by
  cases c with
  | ctValW j => revert j; decide
  | _ => rfl

theorem alignedOff_csrOffset (c : Csr) : alignedOff (csrOffset c) = true := by
  cases c with
  | ctValW j => revert j; decide
  | _ => rfl

/-- A host write to a register is the register's own (R20). -/
theorem hostStep_csrw (s : State) (v : Word) (c : Csr) : hostStep (.csrw (csrOffset c) v) s = writeCsr s v c := by
  simp only [hostStep, hostCsrw, alignedOff_csrOffset, csrAt_csrOffset, if_true]

/-- A host read of a register returns the value read, in the state after the read. -/
theorem hostStep_csrr (s : State) (c : Csr) :
    hostStep (.csrr (csrOffset c)) s = .next ((s.readCsr c).2.returnRead (s.readCsr c).1) := by
  simp only [hostStep, hostCsrr, State.readOff, alignedOff_csrOffset, csrAt_csrOffset, if_true]

/-- A register R50 lists as exact reads its value, busy or idle. -/
theorem hostStep_csrr_exact (s : State) (c : Csr) (h : exactWhileBusy c = true) :
    hostStep (.csrr (csrOffset c)) s = .next (s.returnRead (s.csrValue c)) := by
  rw [hostStep_csrr, State.readCsr, if_neg (by simp [h])]

/-- The registers a host write can reach (R20). -/
def writableCsrs : List Csr :=
  [.ctrl, .cmd, .status, .srcAddr, .srcLen, .dstAddr, .dstCap, .arg0, .arg1, .idx]

/-- A write to a read-only register is ignored (R49). -/
theorem writeCsr_readOnly (s : State) (v : Word) {c : Csr} (h : c ∉ writableCsrs) : writeCsr s v c = .next s := by
  cases c with
  | ctrl | cmd | status | srcAddr | srcLen | dstAddr | dstCap | arg0 | arg1 | idx => exact absurd (by decide) h
  | _ => rfl

/-- The reserved offsets of R49 hold no register. -/
theorem csrAt_reserved {off : BitVec 8} (ha : off.toNat % 4 = 0)
    (h : off.toNat = 0x1C ∨ off.toNat = 0x38 ∨ off.toNat = 0x3C ∨ (0x64 ≤ off.toNat ∧ off.toNat ≤ 0x6C) ∨
      off.toNat = 0x98 ∨ off.toNat = 0x9C ∨ 0xC0 ≤ off.toNat) : csrAt off = none := by
  revert off
  decide

/-- The read-only rows of R20 hold no writable register. -/
theorem csrAt_readOnly {off : BitVec 8} (ha : off.toNat % 4 = 0)
    (h : off.toNat ≤ 0x08 ∨ off.toNat = 0x18 ∨ (0x40 ≤ off.toNat ∧ off.toNat ≤ 0x60) ∨
      (0x74 ≤ off.toNat ∧ off.toNat ≤ 0x94) ∨ (0xA0 ≤ off.toNat ∧ off.toNat ≤ 0xBC)) :
    ∀ c, csrAt off = some c → c ∉ writableCsrs := by
  revert off
  decide

/-- Settles O13: no register stands at a reserved offset, and none of those at the read-only offsets is writable. -/
theorem reservedAndReadOnlyIgnoreWrites : Obligations.ReservedAndReadOnlyIgnoreWrites := by
  refine ⟨fun s v off ha hoff => ?_, fun s v off ha hoff => ?_⟩
  · have hnone := csrAt_reserved ha hoff
    simp [hostStep, hostCsrr, hostCsrw, State.readOff, alignedOff, ha, hnone]
  · have halign : alignedOff off = true := decide_eq_true ha
    rw [hostStep, hostCsrw, if_pos halign]
    split
    · rename_i c hc
      exact writeCsr_readOnly s v (csrAt_readOnly ha hoff c hc)
    · rfl

/-- Settles O12: the write sets the register at its offset, and R50 lists these registers as exact. -/
theorem argumentRegistersHoldTheWrite : Obligations.ArgumentRegistersHoldTheWrite := by
  intro s v
  exact ⟨hostStep_csrw s v .srcAddr, hostStep_csrw s v .srcLen, hostStep_csrw s v .dstAddr, hostStep_csrw s v .dstCap,
    hostStep_csrw s v .arg0, hostStep_csrw s v .arg1, hostStep_csrw s v .idx,
    hostStep_csrr_exact s .srcAddr rfl, hostStep_csrr_exact s .srcLen rfl,
    hostStep_csrr_exact s .dstAddr rfl, hostStep_csrr_exact s .dstCap rfl,
    hostStep_csrr_exact s .arg0 rfl, hostStep_csrr_exact s .arg1 rfl,
    hostStep_csrr_exact s .idx rfl⟩

/-! ## STATUS and CTRL -/

/-- The bits of STATUS (R26), its high reserved bits in any width n: each flag at its bit, the code in 15:8, the
reserved bits 0. -/
theorem flags_layout (n : Nat) (code : BitVec 8) (treeValid ovr err done busy : Bool) :
    let w := 0#n ++ code ++ 0#3 ++ BitVec.ofBool treeValid ++ BitVec.ofBool ovr ++ BitVec.ofBool err
      ++ BitVec.ofBool done ++ BitVec.ofBool busy
    w.getLsbD 0 = busy ∧ w.getLsbD 1 = done ∧ w.getLsbD 2 = err ∧ w.getLsbD 3 = ovr ∧ w.getLsbD 4 = treeValid ∧
      w.extractLsb' 5 3 = 0 ∧ w.extractLsb' 8 8 = code ∧ w.extractLsb' 16 n = 0 := by
  refine ⟨?_, ?_, ?_, ?_, ?_, ?_, ?_, ?_⟩
  case refine_6 | refine_7 | refine_8 =>
    apply BitVec.eq_of_getLsbD_eq
    intro i hi
    simp only [BitVec.getLsbD_extractLsb', BitVec.getLsbD_append, hi]
    simp
    omega
  all_goals
    simp only [BitVec.getLsbD_append]
    simp

/-- `flags_layout` at STATUS's own width: there the width is a sum, by which the bits of a concatenation are found. -/
theorem statusOf_layout (code : BitVec 8) (treeValid ovr err done busy : Bool) :
    let w := statusOf code treeValid ovr err done busy
    w.getLsbD 0 = busy ∧ w.getLsbD 1 = done ∧ w.getLsbD 2 = err ∧ w.getLsbD 3 = ovr ∧ w.getLsbD 4 = treeValid ∧
      w.extractLsb' 5 3 = 0 ∧ w.extractLsb' 8 8 = code ∧ w.extractLsb' 16 16 = 0 :=
  flags_layout 16 code treeValid ovr err done busy

theorem ErrCode.code_eq_zero_iff (e : ErrCode) : e.code = 0 ↔ e = .none := by
  cases e <;> decide

theorem ErrCode.code_le (e : ErrCode) : e.code.toNat ≤ 0x0E := by
  cases e <;> decide

/-- STATUS.ERR is the code's being nonzero (R26). -/
theorem err_eq_decide (s : State) : s.err = decide (s.errcode.code ≠ 0) := by
  simp [State.err, bne, beq_eq_decide]

/-- Settles O11: STATUS has the layout of `statusOf`, and the codes are those the model lists. -/
theorem statusFieldsReadAsLaidOut : Obligations.StatusFieldsReadAsLaidOut := by
  refine ⟨fun s => ?_, by decide⟩
  obtain ⟨hbusy, hdone, herr, hovr, htree, hlow, hcode, hhigh⟩ :=
    statusOf_layout s.errcode.code s.treeValid s.ovr s.err s.done s.busy
  exact ⟨hbusy, hdone, herr.trans (err_eq_decide s), hovr, htree, hlow, hcode, hhigh, s.errcode.code_eq_zero_iff,
    s.errcode.code_le⟩

/-- Settles O15: the registers R50 lists are exact, and STATUS takes only ERR, ERRCODE and TREE_VALID from the free
word. -/
theorem exactReadsWhileBusy : Obligations.ExactReadsWhileBusy := by
  intro s hb
  refine ⟨fun c hc => hostStep_csrr_exact s c ?_, s.statusBusyWord (Config.freeWord s.draws), s.draws + 1, ?_, ?_⟩
  · revert c
    decide
  · rw [show (0x14 : BitVec 8) = csrOffset .status from rfl, hostStep_csrr, State.readCsr,
      if_pos (by simp [hb, exactWhileBusy])]
    rfl
  · obtain ⟨hbusy, hdone, -, hovr, -, hlow, -, hhigh⟩ := statusOf_layout
      ((Config.freeWord s.draws).extractLsb' 8 8) ((Config.freeWord s.draws).getLsbD 4) s.ovr
      ((Config.freeWord s.draws).getLsbD 2) s.done s.busy
    exact ⟨hbusy.trans hb, hdone, hovr, hlow, hhigh⟩

/-- A CTRL write with SRST = 0 (R24). -/
theorem writeCtrl_of_no_reset (s : State) {v : Word} (h : v.getLsbD 0 = false) :
    writeCtrl s v = .next { s with irqEn := v.getLsbD 1 } := by
  rw [writeCtrl, decode_ctrl, h]
  rfl

/-- CTRL reads IRQ_EN in bit 1 and 0 elsewhere (R24). -/
theorem ctrlWord_getLsbD (s : State) {k : Nat} (hk : k < 32) : s.ctrlWord.getLsbD k = (decide (k = 1) && s.irqEn) := by
  unfold State.ctrlWord
  revert k
  cases s.irqEn <;> decide

/-- Settles O10: the writes reach the registers at 0x0C and 0x14, and the interrupt output is DONE and IRQ_EN. -/
theorem ctrlAndStatusWrites : Obligations.CtrlAndStatusWrites := by
  intro s v
  have hctrl (h : v.getLsbD 0 = false) : hostStep (.csrw 0x0C v) s = .next { s with irqEn := v.getLsbD 1 } :=
    (hostStep_csrw s v .ctrl).trans (writeCtrl_of_no_reset s h)
  have hstatus : hostStep (.csrw 0x14 v) s = .next (s.writeStatus v) := hostStep_csrw s v .status
  refine ⟨hctrl, hstatus, fun k hk => ctrlWord_getLsbD s hk, by simp [State.irq], fun h1 => ?_, fun h0 h1 => ?_, ?_⟩
  · exact ⟨_, hstatus, by simp [h1], by simp [State.irq, h1]⟩
  · exact ⟨_, hctrl h0, rfl, by simp only [State.irq, h1, Bool.and_false]⟩
  · simp [State.irq]

/-! ## The windows -/

/-- The two frequency windows are the halves of the frequency (R48). -/
theorem freq_halves (f : Freq) : f.extractLsb' 32 32 ++ f.extractLsb' 0 32 = f :=
  (BitVec.extractLsb'_append_extractLsb'_eq_extractLsb' rfl).trans BitVec.extractLsb'_eq_self

/-- Settles O17: each window is a function of the entry at IDX, which the case gives. -/
theorem windowsShowSelectedEntry : Obligations.WindowsShowSelectedEntry := by
  intro s
  refine ⟨fun e he => ?_, fun hlen => ?_, fun e he => ?_, fun hlen => ?_, fun x f hv hn => ?_, fun l r f hv hn => ?_,
    fun hno => ?_⟩
  · simp [State.csrValue, State.ftAtIdx, he]
  · simp [State.csrValue, State.ftAtIdx, hlen]
  · have hat : s.ctAtIdx = some e := he
    refine ⟨by simp [State.csrValue, hat], by simp [State.csrValue, hat], fun j k hk => ?_, ?_⟩
    · simp [State.csrValue, hat, ctValWord, hk]
    · simp [State.csrValue, hat, ctValWord]
  · have hat : s.ctAtIdx = none := List.getElem?_eq_none hlen
    simp [State.csrValue, hat, ctValWord]
  · have hat : s.nodeAtIdx = some (.leaf x f) := by simp [State.nodeAtIdx, hv, hn]
    simp [State.csrValue, hat, nodeKind, nodeA, nodeB, nodeFreqW, freq_halves]
  · have hat : s.nodeAtIdx = some (.internal l r f) := by simp [State.nodeAtIdx, hv, hn]
    simp [State.csrValue, hat, nodeKind, nodeA, nodeB, nodeFreqW, freq_halves]
  · have hat : s.nodeAtIdx = none := by
      rcases hno with hv | hlen
      · simp [State.nodeAtIdx, hv]
      · simp [State.nodeAtIdx, hlen]
    simp [State.csrValue, hat, nodeKind, nodeA, nodeB, nodeFreqW]

end Sys2Proof.Machine
end

section
/-! PROOFS. What a command writes before it completes, said once for the eleven commands (R26, R54, R66, R92, R190,
R192, R193), and the frame that follows. -/

namespace Sys2Proof.Machine

/-! ## The bytes written to the destination region (R65, R68, R171) -/

theorem Memory.writeAll_append (us vs : List Byte) (m : Memory) (addr : Nat) :
    Memory.writeAll m addr (us ++ vs) = Memory.writeAll (Memory.writeAll m addr us) (addr + us.length) vs := by
  induction us generalizing m addr with
  | nil => rfl
  | cons u us ih =>
    rw [List.cons_append, Memory.writeAll, ih, Memory.writeAll, List.length_cons, Nat.add_assoc, Nat.add_comm 1]

/-- `m'` is `m` with the first `out` bytes of the destination region written, none of them beyond its capacity. -/
def WroteBytes (a : Latched) (m : Memory) (out : Nat) (m' : Memory) : Prop :=
  out ≤ a.dstCap.toNat ∧ ∃ bs : List Byte, bs.length = out ∧ m' = Memory.writeAll m a.dst bs

theorem WroteBytes.refl (a : Latched) (m : Memory) : WroteBytes a m 0 m := ⟨Nat.zero_le _, [], rfl, rfl⟩

/-- More bytes, written after those before. -/
theorem WroteBytes.append {a : Latched} {m m' : Memory} {out : Nat} (h : WroteBytes a m out m') {vs : List Byte}
    (hfit : out + vs.length ≤ a.dstCap.toNat) :
    WroteBytes a m (out + vs.length) (Memory.writeAll m' (a.dst + out) vs) := by
  obtain ⟨-, bs, rfl, rfl⟩ := h
  exact ⟨hfit, bs ++ vs, by simp, (Memory.writeAll_append ..).symm⟩

/-- No byte outside the destination region is written. -/
theorem WroteBytes.read_outside {a : Latched} {m m' : Memory} {out : Nat} (h : WroteBytes a m out m') {addr : Nat}
    (haddr : addr < a.dstAddr.toNat ∨ a.dstAddr.toNat + a.dstCap.toNat ≤ addr) :
    Memory.read m' addr = Memory.read m addr := by
  obtain ⟨hcap, bs, rfl, rfl⟩ := h
  exact sameOutside_writeAll m a.dst bs addr (by simp only [Latched.dst]; omega)

/-- The packer has emitted some bits, and every byte they complete fits (R68). -/
def Packed (a : Latched) (m : Memory) (p : Packer) : Prop :=
  ∃ seq : List Bool, seq.length / 8 ≤ a.dstCap.toNat ∧ p = packerOf m a seq

theorem Packed.init (a : Latched) (m : Memory) : Packed a m (Packer.init m) := ⟨[], Nat.zero_le _, rfl⟩

theorem Packed.wrote {a : Latched} {m : Memory} {p : Packer} (h : Packed a m p) : WroteBytes a m p.out p.mem := by
  obtain ⟨seq, hfit, rfl⟩ := h
  exact ⟨hfit, bytesOfBits (seq.length / 8) seq, length_bytesOfBits _ _, rfl⟩

/-- The packer that `emit` answers, with or without CAPACITY. -/
theorem Packed.emit {a : Latched} {m : Memory} {p : Packer} (h : Packed a m p) (bs : List Bool) :
    (∃ p', p.emit a bs = .ok p' ∧ Packed a m p') ∨ (∃ p', p.emit a bs = .error p' ∧ Packed a m p') := by
  obtain ⟨seq, hfit, rfl⟩ := h
  rw [emit_packerOf m a bs seq hfit]
  split
  · rename_i hfits
    exact .inl ⟨_, rfl, _, hfits, rfl⟩
  · exact .inr ⟨_, rfl, _, by simp only [List.length_take]; omega, rfl⟩

theorem Packed.emit_ok {a : Latched} {m : Memory} {p p' : Packer} (h : Packed a m p) {bs : List Bool}
    (he : p.emit a bs = .ok p') : Packed a m p' := by
  obtain ⟨q, hq, hp⟩ | ⟨q, hq, -⟩ := h.emit bs <;> rw [he] at hq <;> cases hq
  exact hp

theorem Packed.emit_error {a : Latched} {m : Memory} {p p' : Packer} (h : Packed a m p) {bs : List Bool}
    (he : p.emit a bs = .error p') : Packed a m p' := by
  obtain ⟨q, hq, -⟩ | ⟨q, hq, hp⟩ := h.emit bs <;> rw [he] at hq <;> cases hq
  exact hp

/-! ## How the commands' loops and checks end -/

/-- An error a command may record: not NONE, and not one of the two container codes (R191, R197). -/
abbrev ErrCode.Raised (e : ErrCode) : Prop :=
  e ≠ .none ∧ e ≠ .truncatedText ∧ e ≠ .unknownFormatVersion

/-- A loop ends in a state that satisfies `P`, also where it stops at an error, which then satisfies `E`. -/
def LoopEnds {ε σ : Type} (E : ε → Prop) (P : σ → Prop) : Except (ε × σ) σ → Prop
  | .ok l => P l
  | .error (e, l) => E e ∧ P l

theorem freqLoop_ends (n fuel : Nat) (bs : List Byte) (l : FreqLoop) :
    LoopEnds ErrCode.Raised (fun _ => True) (freqLoop n fuel bs l) := by
  induction fuel generalizing bs l with
  | zero => cases bs <;> trivial
  | succ fuel ih =>
    cases bs with
    | nil => trivial
    | cons b bs =>
      rw [freqLoop]
      split
      · exact ⟨by decide, trivial⟩
      split
      · exact ⟨by decide, trivial⟩
      · exact ih _ _

theorem deserLoop_ends (n fuel : Nat) (l : DeserLoop) :
    LoopEnds ErrCode.Raised (fun _ => True) (deserLoop n fuel l) := by
  induction fuel generalizing l with
  | zero => trivial
  | succ fuel ih =>
    rw [deserLoop]
    split
    · trivial
    split
    · exact ⟨by decide, trivial⟩
    · exact ⟨by decide, trivial⟩
    split
    · exact ⟨by decide, trivial⟩
    · exact ih _

theorem serLoop_ends {a : Latched} {m : Memory} (es : List CtEntry) (j : Nat) {p : Packer} (h : Packed a m p) :
    LoopEnds (fun _ => True) (Packed a m) (serLoop a es j p) := by
  induction es generalizing j p with
  | nil => exact h
  | cons e es ih =>
    rw [serLoop]
    split
    · rename_i hemit
      exact ⟨trivial, h.emit_error hemit⟩
    · rename_i hemit
      exact ih _ (h.emit_ok hemit)

theorem encLoop_ends (ct : List CtEntry) {a : Latched} {m : Memory} (fuel : Nat) (bs : List Byte) {l : EncLoop}
    (h : Packed a m l.pk) : LoopEnds ErrCode.Raised (fun l' => Packed a m l'.pk) (encLoop ct a fuel bs l) := by
  induction fuel generalizing bs l with
  | zero => cases bs <;> exact h
  | succ fuel ih =>
    cases bs with
    | nil => exact h
    | cons b bs =>
      rw [encLoop]
      split
      · exact ⟨by decide, h⟩
      split
      · exact ⟨by decide, h⟩
      split
      · rename_i hemit
        exact ⟨by decide, h.emit_error hemit⟩
      · rename_i hemit
        exact ih _ (h.emit_ok hemit)

/-- A symbol is written whole, below the capacity, or not at all (R171). -/
theorem matchSym_ends {a : Latched} {m : Memory} {l : DecLoop} (h : WroteBytes a m l.out l.mem) (x : Sym) :
    LoopEnds ErrCode.Raised (fun l' => WroteBytes a m l'.out l'.mem) (matchSym a l x) := by
  unfold matchSym emitSym
  by_cases hfull : a.dstCap.toNat < l.out + (utf8Encode x).length
  · simp only [hfull, if_true]
    exact ⟨by decide, h⟩
  · simp only [hfull, if_false]
    exact h.append (by omega)

theorem decTurn_ends (ct : List CtEntry) {a : Latched} {m : Memory} {l : DecLoop} (h : WroteBytes a m l.out l.mem)
    (b : Bool) : LoopEnds ErrCode.Raised (fun l' => WroteBytes a m l'.out l'.mem) (decTurn ct a l b) := by
  unfold decTurn
  split
  · refine matchSym_ends ?_ _
    exact h
  unfold decBit
  dsimp only
  split
  · refine matchSym_ends ?_ _
    exact h
  split
  · exact ⟨by decide, h⟩
  · exact h

theorem decLoop_ends (ct : List CtEntry) {a : Latched} {m : Memory} (bs : List Bool) {l : DecLoop}
    (h : WroteBytes a m l.out l.mem) :
    LoopEnds ErrCode.Raised (fun l' => WroteBytes a m l'.out l'.mem) (decLoop ct a bs l) := by
  induction bs generalizing l with
  | nil => exact h
  | cons b bs ih =>
    have hturn := decTurn_ends ct h b
    rw [decLoop]
    split
    · rename_i hb
      rwa [hb] at hturn
    · rename_i hb
      rw [hb] at hturn
      exact ih hturn

theorem raised_of_regionErr {s : State} {e : Err} (h : s.regionErr = some e) : e.kind.Raised := by
  obtain ⟨-, hr⟩ | ⟨-, -, hr⟩ | ⟨-, -, -, hr⟩ | ⟨-, -, -, hr⟩ := s.regionErr_cases
  all_goals
    rw [h] at hr
    cases hr
  all_goals exact ⟨nofun, nofun, nofun⟩

theorem raised_of_decodeErr {s : State} {e : Err} (h : s.decodeErr = some e) : e.kind.Raised := by
  unfold State.decodeErr at h
  split at h
  · rename_i hr
    exact raised_of_regionErr (hr.trans h)
  split at h
  · cases h; exact ⟨nofun, nofun, nofun⟩
  split at h
  · cases h; exact ⟨nofun, nofun, nofun⟩
  split at h <;> cases h
  exact ⟨nofun, nofun, nofun⟩

/-! ## What a command writes -/

/-- What a command has written of the state `s` when it completes: tables, results and DMEM, each group of commands its
own (R26, R34, R54, R66). -/
inductive CommandWrites (s : State) : Instr → State → Prop
  | nothing : CommandWrites s .nop s
  | ft {i : Instr} (hi : i ∈ [.ftClear, .freqCount, .ftInsert]) (ft : List FtEntry) (r0 r1 r3 : Word) :
      CommandWrites s i { s with ft := ft, result0 := r0, result1 := r1, result3 := r3 }.dropTree
  | tree (v : Bool) (nodes : List Node) (root : Nat) (r0 r1 r2 : Word) :
      CommandWrites s .treeBuild
        { s with treeValid := v, nodes := nodes, root := root, result0 := r0, result1 := r1, result2 := r2 }
  | codes (ct : List CtEntry) (r0 r1 : Word) :
      CommandWrites s .codeGen { s with ct := ct, result0 := r0, result1 := r1 }.dropTree
  | ct {i : Instr} (hi : i ∈ [.ctClear, .tableDeser]) (ct : List CtEntry) (r0 r1 r2 : Word) :
      CommandWrites s i { s with ct := ct, result0 := r0, result1 := r1, result2 := r2 }
  | dmem {i : Instr} (hi : usesDst i = true) {out : Nat} {m : Memory} (hm : WroteBytes s.a s.dmem out m)
      (r0 r1 r2 r3 : Word) :
      CommandWrites s i { s with dmem := m, result0 := r0, result1 := r1, result2 := r2, result3 := r3 }

/-- The completion of what a command wrote: the normal one (R192), or an error (R193). -/
inductive Completes (w : State) : State → Prop
  | normal : Completes w w.complete
  | error {e : ErrCode} (he : e.Raised) (info : Word) : Completes w (w.raise e info)

/-- Everything a command can do: it writes what is its own, and completes (R190). -/
theorem exec_cases {i : Instr} {s t : State} (hi : i ≠ .softReset) (h : exec i s = .next t) :
    ∃ w, CommandWrites s i w ∧ Completes w t := by
  cases i with
  | softReset => exact absurd rfl hi
  | nop => cases h; exact ⟨_, .nothing, .normal⟩
  | ftClear => cases h; exact ⟨_, .ft (by simp) _ _ _ _, .normal⟩
  | ctClear => cases h; exact ⟨_, .ct (by simp) _ _ _ _, .normal⟩
  | freqCount =>
    rw [exec, execFreqCount] at h
    split at h
    · cases h; exact ⟨_, .ft (by simp) _ _ _ _, .error (by decide) _⟩
    have hends := freqLoop_ends s.params.nsymMax s.a.srcLen.toNat s.srcBytes ⟨[], 0, 0⟩
    split at h <;> rename_i hl <;> cases h
    · rw [hl] at hends
      exact ⟨_, .ft (by simp) _ _ _ _, .error hends.1 _⟩
    · exact ⟨_, .ft (by simp) _ _ _ _, .normal⟩
  | ftInsert =>
    rw [exec, execFtInsert] at h
    split at h
    · cases h; exact ⟨_, .ft (by simp) _ _ _ _, .error (by decide) _⟩
    split at h
    · cases h; exact ⟨_, .ft (by simp) _ _ _ _, .error (by decide) _⟩
    split at h
    · cases h; exact ⟨_, .ft (by simp) _ _ _ _, .normal⟩
    split at h <;> cases h
    · exact ⟨_, .ft (by simp) _ _ _ _, .error (by decide) _⟩
    · exact ⟨_, .ft (by simp) _ _ _ _, .normal⟩
  | treeBuild =>
    rw [exec, execTreeBuild] at h
    split at h <;> cases h
    · exact ⟨_, .tree _ _ _ _ _ _, .error (by decide) _⟩
    · exact ⟨_, .tree _ _ _ _ _ _, .normal⟩
  | codeGen =>
    rw [exec, execCodeGen] at h
    split at h
    · cases h; exact ⟨_, .codes _ _ _, .error (by decide) _⟩
    dsimp only at h
    split at h <;> cases h
    · exact ⟨_, .codes _ _ _, .error (by decide) _⟩
    · exact ⟨_, .codes _ _ _, .normal⟩
  | tableDeser =>
    rw [exec, execTableDeser] at h
    split at h
    · cases h; exact ⟨_, .ct (by simp) _ _ _ _, .error (by decide) _⟩
    dsimp only at h
    have hends := deserLoop_ends s.params.nsymMax (8 * s.a.srcLen.toNat) ⟨s.srcBits (8 * s.a.srcLen.toNat), 0, [], 0⟩
    split at h <;> rename_i hl <;> cases h
    · rw [hl] at hends
      exact ⟨_, .ct (by simp) _ _ _ _, .error hends.1 _⟩
    · exact ⟨_, .ct (by simp) _ _ _ _, .normal⟩
  | tableSer =>
    rw [exec, execTableSer] at h
    split at h
    · cases h; exact ⟨_, .dmem rfl (.refl _ _) _ _ _ _, .error (by decide) _⟩
    have hends := serLoop_ends s.ct 0 (Packed.init s.a s.dmem)
    split at h <;> rename_i hl <;> rw [hl] at hends
    · cases h; exact ⟨_, .dmem rfl hends.2.wrote _ _ _ _, .error (by decide) _⟩
    split at h <;> rename_i hflush <;> cases h
    · exact ⟨_, .dmem rfl (Packed.emit_error hends hflush).wrote _ _ _ _, .error (by decide) _⟩
    · exact ⟨_, .dmem rfl (Packed.emit_ok hends hflush).wrote _ _ _ _, .normal⟩
  | textEncode =>
    rw [exec, execTextEncode] at h
    split at h
    · rename_i hr
      cases h; exact ⟨_, .dmem rfl (.refl _ _) _ _ _ _, .error (raised_of_regionErr hr) _⟩
    have hends := encLoop_ends s.ct s.a.srcLen.toNat s.srcBytes (l := ⟨Packer.init s.dmem, 0, 0⟩)
      (Packed.init s.a s.dmem)
    split at h <;> rename_i hl <;> rw [hl] at hends
    · cases h; exact ⟨_, .dmem rfl hends.2.wrote _ _ _ _, .error hends.1 _⟩
    split at h <;> rename_i hflush <;> cases h
    · exact ⟨_, .dmem rfl (Packed.emit_error hends hflush).wrote _ _ _ _, .error (by decide) _⟩
    · exact ⟨_, .dmem rfl (Packed.emit_ok hends hflush).wrote _ _ _ _, .normal⟩
  | textDecode =>
    rw [exec, execTextDecode] at h
    split at h
    · rename_i hr
      cases h; exact ⟨_, .dmem rfl (.refl _ _) _ _ _ _, .error (raised_of_decodeErr hr) _⟩
    have hends := decLoop_ends s.ct (s.srcBits s.a.validBits) (l := ⟨0, 0, 0, 0, 0, 0, s.dmem⟩) (.refl s.a s.dmem)
    split at h <;> rename_i hl <;> rw [hl] at hends <;> cases h
    · exact ⟨_, .dmem rfl hends.2 _ _ _ _, .error hends.1 _⟩
    · exact ⟨_, .dmem rfl hends _ _ _ _, .normal⟩

/-- A command writes no register of the host's, and nothing of the model's own (R26, R92). -/
theorem CommandWrites.sameHostSide {i : Instr} {s w : State} (h : CommandWrites s i w) :
    w.params = s.params ∧ w.irqEn = s.irqEn ∧ w.cmd = s.cmd ∧ w.ovr = s.ovr ∧ w.srcAddr = s.srcAddr ∧
      w.srcLen = s.srcLen ∧ w.dstAddr = s.dstAddr ∧ w.dstCap = s.dstCap ∧ w.arg0 = s.arg0 ∧ w.arg1 = s.arg1 ∧
      w.idx = s.idx ∧ w.host = s.host ∧ w.sched = s.sched ∧ w.rdata = s.rdata ∧ w.draws = s.draws := by
  cases h <;> exact ⟨rfl, rfl, rfl, rfl, rfl, rfl, rfl, rfl, rfl, rfl, rfl, rfl, rfl, rfl, rfl⟩

/-- The error record is written at the completion only (R192, R193). -/
theorem CommandWrites.sameErrorRecord {i : Instr} {s w : State} (h : CommandWrites s i w) :
    w.errcode = s.errcode ∧ w.errInfo = s.errInfo := by
  cases h <;> exact ⟨rfl, rfl⟩

/-- No byte outside the destination region is written, and none at all by a command without one (R66). -/
theorem CommandWrites.read_outside {i : Instr} {s w : State} (h : CommandWrites s i w) {addr : Nat}
    (haddr : usesDst i = false ∨ addr < s.a.dstAddr.toNat ∨ s.a.dstAddr.toNat + s.a.dstCap.toNat ≤ addr) :
    Memory.read w.dmem addr = Memory.read s.dmem addr := by
  cases h with
  | dmem hi hm => exact hm.read_outside (haddr.resolve_left (by simp [hi]))
  | _ => rfl

theorem CommandWrites.sameFt {i : Instr} {s w : State} (h : CommandWrites s i w)
    (hi : i ∉ [.ftClear, .freqCount, .ftInsert]) : w.ft = s.ft := by
  cases h with
  | ft hmem => exact absurd hmem hi
  | _ => rfl

theorem CommandWrites.sameCt {i : Instr} {s w : State} (h : CommandWrites s i w)
    (hi : i ∉ [.codeGen, .ctClear, .tableDeser]) : w.ct = s.ct := by
  cases h with
  | codes => simp at hi
  | ct hmem => exact absurd (List.mem_cons_of_mem _ hmem) hi
  | _ => rfl

theorem CommandWrites.sameTree {i : Instr} {s w : State} (h : CommandWrites s i w)
    (hi : i ∉ [.ftClear, .freqCount, .ftInsert, .treeBuild, .codeGen]) :
    w.treeValid = s.treeValid ∧ w.nodes = s.nodes ∧ w.root = s.root := by
  cases h with
  | ft hmem => exact (hi (List.mem_append_left [Instr.treeBuild, .codeGen] hmem)).elim
  | tree | codes => simp at hi
  | _ => exact ⟨rfl, rfl, rfl⟩

/-- Only TREE_BUILD makes TREE_VALID 1 (R26). -/
theorem CommandWrites.eq_treeBuild {i : Instr} {s w : State} (h : CommandWrites s i w) (hs : s.treeValid = false)
    (hw : w.treeValid = true) : i = .treeBuild := by
  cases h with
  | tree => rfl
  | ft | codes => cases hw
  | _ => exact nomatch hs.symm.trans hw

/-- Settles O21: the frame is that of what the command writes, which its completion keeps. -/
theorem commandFrame : Obligations.CommandFrame := by
  intro i s t hi h
  obtain ⟨w, hw, hend⟩ := exec_cases hi h
  cases hend
  all_goals exact ⟨hw.sameHostSide, fun _ => hw.read_outside, hw.sameFt, hw.sameCt, hw.sameTree⟩

end Sys2Proof.Machine
end

section
/-! PROOFS. What a step leaves of the flags and of the command registers (R24, R26, R27, R54, R90, R197). -/

namespace Sys2Proof.Machine

/-- No CMD word is the soft reset's (R93). -/
theorem ne_softReset_of_decode_cmd {w : Word} {i : Instr} (h : decode .cmd w = .ok i) : i ≠ .softReset := by
  have hrows : ∀ r ∈ opcodeRows, r.port = .cmd → r.instr ≠ .softReset := by decide
  unfold decode at h
  split at h <;> cases h
  rename_i r hr
  have hmatch := List.find?_some hr
  simp only [Row.matches, Bool.and_eq_true, beq_iff_eq] at hmatch
  exact hrows r (List.mem_of_find?_eq_some hr) hmatch.1

/-- Everything the engine can do while a command runs: what the command writes, and the completion (R192, R193); an
illegal word completes with BAD_COMMAND and writes nothing (R94). -/
theorem engineStep_writes {s s' : State} (hb : s.busy = true) (h : engineStep s = .next s') :
    (∃ i w, s.running = some i ∧ CommandWrites s i w ∧ Completes w s') ∨
    s' = s.raise .badCommand s.fetchWord := by
  obtain ⟨i, hdec, hexec⟩ | ⟨-, -, hbad⟩ := engineStep_cases h
  · obtain ⟨w, hw, hend⟩ := exec_cases (ne_softReset_of_decode_cmd hdec) hexec
    exact .inl ⟨i, w, by simp [State.running, hb, hdec], hw, hend⟩
  · exact .inr hbad

/-! ## The flags (R24, R26, R54) -/

/-- What the engine leaves of the flags: OVR and IRQ_EN, TREE_VALID unless TREE_BUILD sets it, BUSY 0. -/
theorem engineStep_flags {s s' : State} (hb : s.busy = true) (h : engineStep s = .next s') :
    s'.ovr = s.ovr ∧ (s.treeValid = false → s'.treeValid = true → s.running = some .treeBuild) ∧ s'.irqEn = s.irqEn ∧
      s'.busy = false := by
  obtain ⟨i, w, hrun, hw, hend⟩ | rfl := engineStep_writes hb h
  · obtain ⟨-, hirq, -, hovr, -⟩ := hw.sameHostSide
    cases hend
    all_goals exact ⟨hovr, fun h0 h1 => hw.eq_treeBuild h0 h1 ▸ hrun, hirq, rfl⟩
  · exact ⟨rfl, fun h0 h1 => (nomatch h0.symm.trans h1), rfl, rfl⟩

/-- What the host can set: OVR by a CMD write while a command runs, IRQ_EN by a CTRL write, neither TREE_VALID
nor DONE. -/
theorem hostStep_flags {op : HostOp} {s s' : State} (h : hostStep op s = .next s') :
    (s'.ovr = true → s.ovr = true ∨ s.busy = true ∧ ∃ w, op = .csrw 0x10 w) ∧
      (s'.treeValid = true → s.treeValid = true) ∧ (s'.irqEn = s.irqEn ∨ ∃ v, op = .csrw 0x0C v) ∧
      (s'.done = true → s.done = true) := by
  rcases hostStep_cases h with ⟨v, rfl, -, h⟩ | ⟨v, rfl, -, rfl⟩ | ⟨w, rfl, -, rfl⟩ | ⟨w, rfl, hb, rfl⟩ |
    ⟨v, rfl, rfl⟩ | ⟨_, _, _, _, _, _, _, rfl⟩ | ⟨v, n, ops, -, rfl⟩ | ⟨addr, b, -, -, -, -, rfl⟩
  · cases h
    exact ⟨nofun, nofun, .inr ⟨v, rfl⟩, nofun⟩
  · exact ⟨.inl, id, .inr ⟨v, rfl⟩, id⟩
  · exact ⟨.inl, id, .inl rfl, nofun⟩
  · exact ⟨fun _ => .inr ⟨hb, w, rfl⟩, id, .inl rfl, id⟩
  · exact ⟨fun hovr => .inl (Bool.and_elim_left hovr), id, .inl rfl, Bool.and_elim_left⟩
  all_goals exact ⟨.inl, id, .inl rfl, id⟩

/-- Settles O24: the engine writes TREE_VALID in TREE_BUILD and DONE at a completion, the host OVR and IRQ_EN. -/
theorem flagWriters : Obligations.FlagWriters := by
  intro s s' h
  obtain ⟨q, hb, h⟩ | ⟨op, ops, q, hhost, -, -, h⟩ | ⟨-, -, rfl⟩ := step_cases h
  · obtain ⟨hovr, htree, hirq, hidle⟩ := engineStep_flags (s := { s with sched := q }) hb h
    exact ⟨fun h0 h1 => (nomatch h0.symm.trans (hovr.symm.trans h1)), htree, fun hne => absurd hirq hne,
      fun _ _ => ⟨hb, hidle⟩⟩
  · obtain ⟨hovr, htree, hirq, hdone⟩ := hostStep_flags h
    refine ⟨fun h0 h1 => ?_, fun h0 h1 => (nomatch h0.symm.trans (htree h1)), fun hne => ?_,
      fun h0 h1 => (nomatch h0.symm.trans (hdone h1))⟩
    · obtain hset | ⟨hb, w, rfl⟩ := hovr h1
      · exact nomatch h0.symm.trans hset
      · exact ⟨hb, w, ops, hhost⟩
    · obtain ⟨v, rfl⟩ := hirq.resolve_left hne
      exact ⟨v, ops, hhost⟩
  · exact ⟨fun h0 h1 => (nomatch h0.symm.trans h1), fun h0 h1 => (nomatch h0.symm.trans h1),
      fun hne => absurd rfl hne, fun h0 h1 => (nomatch h0.symm.trans h1)⟩

/-! ## The command registers (R26, R27, R46, R90, R197) -/

theorem CommandRegsOk.complete {s w : State} (hs : CommandRegsOk s)
    (hsame : w.errcode = s.errcode ∧ w.errInfo = s.errInfo) : CommandRegsOk w.complete := by
  obtain ⟨-, -, hinfo, htext, hver⟩ := hs
  obtain ⟨hcode, hinfo'⟩ := hsame
  exact ⟨nofun, fun _ => rfl, fun hn => hinfo'.trans (hinfo (hcode.symm.trans hn)), hcode ▸ htext, hcode ▸ hver⟩

theorem CommandRegsOk.raise (w : State) {e : ErrCode} (he : e.Raised) (info : Word) :
    CommandRegsOk (w.raise e info) :=
  ⟨nofun, fun _ => rfl, fun hn => absurd hn he.1, he.2⟩

theorem CommandRegsOk.start (s : State) (w : Word) : CommandRegsOk (s.start w) :=
  ⟨fun _ => ⟨rfl, rfl, rfl, rfl, rfl, rfl, rfl⟩, nofun, fun _ => rfl, nofun, nofun⟩

theorem CommandRegsOk.writeStatus {s : State} (hs : CommandRegsOk s) (v : Word) : CommandRegsOk (s.writeStatus v) := by
  obtain ⟨hbusy, hrest⟩ := hs
  refine ⟨fun hb => ?_, hrest⟩
  obtain ⟨hdone, hregs⟩ := hbusy hb
  exact ⟨by simp [hdone], hregs⟩

theorem engineStep_keeps_commandRegs {s s' : State} (hb : s.busy = true) (hs : CommandRegsOk s)
    (h : engineStep s = .next s') : CommandRegsOk s' := by
  obtain ⟨i, w, -, hw, hend⟩ | rfl := engineStep_writes hb h
  · cases hend with
    | normal => exact hs.complete hw.sameErrorRecord
    | error he info => exact .raise w he info
  · exact .raise s (by decide) _

theorem hostStep_keeps_commandRegs {op : HostOp} {s s' : State} (hs : CommandRegsOk s)
    (h : hostStep op s = .next s') : CommandRegsOk s' := by
  rcases hostStep_cases h with ⟨v, -, -, h⟩ | ⟨v, -, -, rfl⟩ | ⟨w, -, -, rfl⟩ | ⟨w, -, -, rfl⟩ | ⟨v, -, rfl⟩ |
    ⟨_, _, _, _, _, _, _, rfl⟩ | ⟨v, n, ops, -, rfl⟩ | ⟨addr, b, -, -, -, -, rfl⟩
  · cases h
    exact ⟨nofun, fun _ => rfl, fun _ => rfl, nofun, nofun⟩
  · exact hs
  · exact .start s w
  · exact hs
  · exact hs.writeStatus v
  all_goals exact hs

/-- Settles O27: each agent's move keeps the command registers consistent. -/
theorem stepKeepsCommandRegisters : Obligations.StepKeepsCommandRegisters := by
  intro s s' hs h
  obtain ⟨q, hb, h⟩ | ⟨op, ops, q, -, -, -, h⟩ | ⟨-, -, rfl⟩ := step_cases h
  · exact engineStep_keeps_commandRegs (s := { s with sched := q }) hb hs h
  · exact hostStep_keeps_commandRegs (s := { s with sched := q, host := ops }) hs h
  · exact hs

end Sys2Proof.Machine
end

section
/-! PROOFS. Host reads of the CSRs and host byte accesses to DMEM (R20 to R50, R64, R70, R76). -/

namespace Sys2Proof.Machine

/-! ## CSR accesses (R64) -/

/-- Settles O16: an access that is no aligned 32-bit word reaches no register. -/
theorem badHostAccessStops : Obligations.BadHostAccessStops := by
  intro s off v addr n
  have hbad (h : off.toNat % 4 ≠ 0) : alignedOff off = false := decide_eq_false h
  refine ⟨fun h => ?_, fun h => ?_, rfl, rfl⟩
  · simp [hostStep, hostCsrw, hbad h]
  · simp [hostStep, hostCsrr, hbad h]

/-- A read while no command runs draws no free value (R50). -/
theorem readCsr_idle {s : State} (hb : s.busy = false) (c : Csr) : s.readCsr c = (s.csrValue c, s) := by
  simp [State.readCsr, hb]

theorem readOff_idle {s : State} (hb : s.busy = false) {off : BitVec 8} {c : Csr} (hc : csrAt off = some c) :
    s.readOff off = (s.csrValue c, s) := by
  simp [State.readOff, hc, readCsr_idle hb]

/-- A read while no command runs leaves the whole state, also at a reserved offset (R49). -/
theorem readOff_idle_state {s : State} (hb : s.busy = false) (off : BitVec 8) : (s.readOff off).2 = s := by
  unfold State.readOff
  split
  · rw [readCsr_idle hb]
  · rfl

theorem hostStep_csrr_idle {s : State} (hb : s.busy = false) (c : Csr) :
    hostStep (.csrr (csrOffset c)) s = .next (s.returnRead (s.csrValue c)) := by
  rw [hostStep_csrr, readCsr_idle hb]

/-- MAXLEN is the len of an entry (R38). -/
theorem exists_len_eq_maxLen {ct : List CtEntry} (h : ct ≠ []) : ∃ e ∈ ct, e.len.toNat = maxLen ct := by
  induction ct with
  | nil => exact absurd rfl h
  | cons e ct ih =>
    rw [maxLen_cons]
    by_cases hle : maxLen ct ≤ e.len.toNat
    · exact ⟨e, List.mem_cons_self, (max_eq_left hle).symm⟩
    · have hne : ct ≠ [] := by
        rintro rfl
        exact hle (Nat.zero_le _)
      obtain ⟨f, hf, hlen⟩ := ih hne
      exact ⟨f, List.mem_cons_of_mem _ hf, by omega⟩

/-- MAXLEN fits its register. -/
theorem toNat_csrValue_maxlen (s : State) : (s.csrValue .maxlen).toNat = maxLen s.ct := by
  have hle := maxLen_le s.ct
  simp only [Config.maxCodeLen] at hle
  simp only [State.csrValue, BitVec.toNat_ofNat]
  omega

/-- Settles O14: an idle read answers the register at the offset and leaves the block; a busy one only draws. -/
theorem csrReadHasNoSideEffect : Obligations.CsrReadHasNoSideEffect := by
  refine ⟨fun s off ha => ?_, ?_⟩
  · have halign : alignedOff off = true := decide_eq_true ha
    obtain ⟨n, hn⟩ := readOff_state s off
    refine ⟨(s.readOff off).1, n, ?_, fun hb => ⟨?_, fun c hc => ?_⟩⟩
    · rw [hostStep, hostCsrr, if_pos halign]
      simp only [hn, State.returnRead]
    · exact congrArg State.draws (hn.symm.trans (readOff_idle_state hb off))
    · rw [readOff_idle hb hc]
  · intro s hb reads
    have hreads (c : Csr) : reads (csrOffset c) (s.csrValue c) := hostStep_csrr_idle hb c
    refine ⟨hreads .id, hreads .capNsym, hreads .capMem, hreads .ctrl, hreads .cmd, hreads .status, hreads .errInfo,
      hreads .result0, hreads .result1, hreads .result2, hreads .result3, hreads .ftN, hreads .ctN,
      fun hv => ?_, fun hv => ?_, ⟨s.csrValue .maxlen, hreads .maxlen, fun e he => ?_, fun hnil => ?_, fun hne => ?_⟩,
      hreads .ftSymW, hreads .ftCntW, hreads .ctSymW, hreads .ctLenW, hreads .nodeKindW, hreads .nodeAW,
      hreads .nodeBW, hreads .nodeFreqLoW, hreads .nodeFreqHiW, fun j => ?_⟩
    · have hn := hreads .nodeN
      have hr := hreads .root
      simp only [State.csrValue, State.nodeN, State.rootReg, hv, if_true] at hn hr
      exact ⟨hn, hr⟩
    · have hn := hreads .nodeN
      have hr := hreads .root
      simp only [State.csrValue, State.nodeN, State.rootReg, hv] at hn hr
      exact ⟨hn, hr⟩
    · rw [toNat_csrValue_maxlen]
      exact len_le_maxLen he
    · simp [State.csrValue, hnil]
    · rw [toNat_csrValue_maxlen]
      exact exists_len_eq_maxLen hne
    · rw [BitVec.ofNat_add]
      exact hreads (.ctValW j)

/-! ## Byte accesses to DMEM (R70, R76) -/

theorem activeSrc_of_idle {s : State} (hb : s.busy = false) (addr : Nat) : s.activeSrc addr = false := by
  simp [State.activeSrc, State.running, hb]

theorem activeDst_of_idle {s : State} (hb : s.busy = false) (addr : Nat) : s.activeDst addr = false := by
  simp [State.activeDst, State.running, hb]

theorem running_of_busy {s : State} {i : Instr} (hb : s.busy = true) (hi : decode .cmd s.fetchWord = .ok i) :
    s.running = some i := by
  simp [State.running, hb, hi]

/-- The active source range of a running command (R76). -/
theorem activeSrc_iff {s : State} {i : Instr} (hrun : s.running = some i) (addr : Nat) :
    s.activeSrc addr = true ↔
      usesSrc i = true ∧ s.a.srcAddr.toNat ≤ addr ∧ addr < s.a.srcAddr.toNat + s.a.srcLen.toNat := by
  rw [State.activeSrc, hrun, Bool.and_eq_true, Bool.and_eq_true, decide_eq_true_iff, decide_eq_true_iff, and_assoc]
  rfl

/-- The active destination range of a running command (R76). -/
theorem activeDst_iff {s : State} {i : Instr} (hrun : s.running = some i) (addr : Nat) :
    s.activeDst addr = true ↔
      usesDst i = true ∧ s.a.dstAddr.toNat ≤ addr ∧ addr < s.a.dstAddr.toNat + s.a.dstCap.toNat := by
  rw [State.activeDst, hrun, Bool.and_eq_true, Bool.and_eq_true, decide_eq_true_iff, decide_eq_true_iff, and_assoc]
  rfl

/-- An access beyond DMEM stops, a write or a read (R70). -/
theorem hostByte_beyond {s : State} {addr : Word} (h : s.params.memBytes ≤ addr.toNat) (b : Byte) :
    hostStep (.sb addr b) s = .fault .hostBadAccess ∧ hostStep (.lb addr) s = .fault .hostBadAccess := by
  simp [hostStep, hostSb, hostLb, h]

theorem hostSb_race {s : State} {addr : Word} (hmem : addr.toNat < s.params.memBytes) (b : Byte)
    (h : s.activeSrc addr.toNat = true ∨ s.activeDst addr.toNat = true) :
    hostStep (.sb addr b) s = .fault .hostRace := by
  simp [hostStep, hostSb, hmem, h]

/-- A write outside the active ranges sets its byte and no other. -/
theorem hostSb_exact {s : State} {addr : Word} (hmem : addr.toNat < s.params.memBytes) (b : Byte)
    (hsrc : s.activeSrc addr.toNat = false) (hdst : s.activeDst addr.toNat = false) :
    ∃ m, hostStep (.sb addr b) s = .next { s with dmem := m } ∧ Memory.read m addr.toNat = b ∧
      ∀ k, k ≠ addr.toNat → Memory.read m k = Memory.read s.dmem k :=
  ⟨Memory.write s.dmem addr.toNat b, by simp [hostStep, hostSb, hmem, hsrc, hdst], Memory.read_write_same _ _ _,
    fun _ hk => Memory.read_write_ne _ b hk⟩

/-- A read outside the active destination range returns the byte. -/
theorem hostLb_exact {s : State} {addr : Word} (hmem : addr.toNat < s.params.memBytes)
    (hdst : s.activeDst addr.toNat = false) :
    hostStep (.lb addr) s = .next (s.returnRead ((Memory.read s.dmem addr.toNat).setWidth 32)) := by
  simp [hostStep, hostLb, hmem, hdst]

/-- A read inside the active destination range returns a free value and changes nothing of the block. -/
theorem hostLb_free {s : State} {addr : Word} (hmem : addr.toNat < s.params.memBytes)
    (hdst : s.activeDst addr.toNat = true) :
    ∃ v n, hostStep (.lb addr) s = .next { s with rdata := v :: s.rdata, draws := n } :=
  ⟨(Config.freeByte s.draws).setWidth 32, s.draws + 1, by
    simp [hostStep, hostLb, hmem, hdst, State.drawByte, State.returnRead]⟩

/-- Settles O18: while no command runs no range is active. -/
theorem hostByteAccessIsExact : Obligations.HostByteAccessIsExact := by
  intro s addr b
  refine ⟨fun hbeyond => hostByte_beyond hbeyond b, fun hmem hb => ⟨?_, ?_⟩⟩
  · exact hostSb_exact hmem b (activeSrc_of_idle hb _) (activeDst_of_idle hb _)
  · exact hostLb_exact hmem (activeDst_of_idle hb _)

/-- Settles O19: the ranges of the statement are the active ranges of the running command. -/
theorem hostAccessToActiveRanges : Obligations.HostAccessToActiveRanges := by
  intro s i addr b hb hi hmem inSrc inDst
  have hrun := running_of_busy hb hi
  have hsrc : s.activeSrc addr.toNat = true ↔ inSrc := activeSrc_iff hrun _
  have hdst : s.activeDst addr.toNat = true ↔ inDst := activeDst_iff hrun _
  refine ⟨fun hin => ?_, fun hns hnd => ?_, fun hnd => ?_, fun hin => ?_⟩
  · exact hostSb_race hmem b (hin.imp hsrc.2 hdst.2)
  · exact hostSb_exact hmem b (Bool.eq_false_iff.2 (mt hsrc.1 hns)) (Bool.eq_false_iff.2 (mt hdst.1 hnd))
  · exact hostLb_exact hmem (Bool.eq_false_iff.2 (mt hdst.1 hnd))
  · exact hostLb_free hmem (hdst.2 hin)

end Sys2Proof.Machine
end

section
/-! PROOFS. The commands and DMEM: the region checks (R66, R67), the canonical form (R60, R70), and what a command reads
(R66, R222). -/

namespace Sys2Proof.Machine

/-! ## The region checks (R66, R67, R195) -/

/-- A failed check stops a two-region command before anything else (R160, R171). -/
theorem exec_of_regionErr {i : Instr} {s : State} {e : Err} (hsrc : usesSrc i = true) (hdst : usesDst i = true)
    (h : s.regionErr = some e) : exec i s = .next (s.raise e.kind e.info) := by
  cases i with
  | textEncode => simp [exec, execTextEncode, h]
  | textDecode => simp [exec, execTextDecode, State.decodeErr, h]
  | tableSer => cases hsrc
  | _ => cases hdst

/-- A source region that leaves DMEM is RANGE(0) before anything is written to DMEM (R66). -/
theorem exec_of_src_beyond {i : Instr} {s : State} (hsrc : usesSrc i = true) (h : s.srcInRange = false) :
    ∃ w, exec i s = .next (w.raise .range 0) ∧ w.dmem = s.dmem ∧ (usesDst i = true → w = s) := by
  have herr : s.regionErr = some ⟨.range, 0⟩ := by simp [State.regionErr, h]
  cases i with
  | freqCount => exact ⟨s.freqFail 0 0, by simp [exec, execFreqCount, h], rfl, nofun⟩
  | tableDeser => exact ⟨s.deserFail 0, by simp [exec, execTableDeser, h], rfl, nofun⟩
  | textEncode | textDecode => exact ⟨s, exec_of_regionErr hsrc rfl herr, rfl, fun _ => rfl⟩
  | _ => cases hsrc

/-- A destination region that leaves DMEM is RANGE(1), the source region being in range where there is one (R66). -/
theorem exec_of_dst_beyond {i : Instr} {s : State} (hdst : usesDst i = true)
    (hsrc : usesSrc i = true → s.srcInRange = true) (h : s.dstInRange = false) :
    exec i s = .next (s.raise .range 1) := by
  have herr : usesSrc i = true → s.regionErr = some ⟨.range, 1⟩ := fun hi => by simp [State.regionErr, hsrc hi, h]
  cases i with
  | tableSer => simp [exec, execTableSer, h]
  | textEncode | textDecode => exact exec_of_regionErr rfl hdst (herr rfl)
  | _ => cases hdst

/-- Two overlapping regions inside DMEM are BAD_ARG(1) (R67). -/
theorem exec_of_overlap {i : Instr} {s : State} (hsrc : usesSrc i = true) (hdst : usesDst i = true)
    (hsr : s.srcInRange = true) (hdr : s.dstInRange = true) (h : s.a.overlap = true) :
    exec i s = .next (s.raise .badArg 1) := by
  have herr : s.regionErr = some ⟨.badArg, 1⟩ := by simp [State.regionErr, hsr, hdr, h]
  exact exec_of_regionErr hsrc hdst herr

theorem State.srcInRange_eq_false_iff (s : State) :
    s.srcInRange = false ↔ s.params.memBytes < s.a.srcAddr.toNat + s.a.srcLen.toNat := by
  rw [Bool.eq_false_iff, ne_eq, s.srcInRange_iff, Nat.not_le]

theorem State.dstInRange_eq_false_iff (s : State) :
    s.dstInRange = false ↔ s.params.memBytes < s.a.dstAddr.toNat + s.a.dstCap.toNat := by
  rw [Bool.eq_false_iff, ne_eq, s.dstInRange_iff, Nat.not_le]

/-- Settles O23: the first check that fails ends the command. -/
theorem regionChecksComeFirst : Obligations.RegionChecksComeFirst := by
  intro i s _ badSrc badDst bothOverlap stops
  have hsrc (hs : ¬ badSrc) (hi : usesSrc i = true) : s.srcInRange = true :=
    s.srcInRange_iff.2 (Nat.not_lt.1 fun hlt => hs ⟨hi, hlt⟩)
  have hdst (hd : ¬ badDst) (hi : usesDst i = true) : s.dstInRange = true :=
    s.dstInRange_iff.2 (Nat.not_lt.1 fun hlt => hd ⟨hi, hlt⟩)
  refine ⟨fun ⟨hi, hlt⟩ => ?_, fun hs ⟨hi, hlt⟩ => ?_, fun hs hd ⟨his, hid, hov⟩ => ?_⟩
  · obtain ⟨w, hexec, hmem, hsame⟩ := exec_of_src_beyond hi (s.srcInRange_eq_false_iff.2 hlt)
    exact ⟨_, hexec, rfl, rfl, hmem, fun h => congrArg (State.raise · .range 0) (hsame h)⟩
  · exact ⟨_, exec_of_dst_beyond hi (hsrc hs) (s.dstInRange_eq_false_iff.2 hlt), rfl, rfl, rfl, fun _ => rfl⟩
  · exact ⟨_, exec_of_overlap his hid (hsrc hs his) (hdst hd hid) (s.a.overlap_iff.2 hov), rfl, rfl, rfl, fun _ => rfl⟩

/-! ## The canonical form of DMEM (R60, R66, R70) -/

/-- Bytes written to a destination region inside DMEM keep it canonical. -/
theorem DmemOk.wroteBytes {p : Params} {a : Latched} {m m' : Memory} {out : Nat} (h : DmemOk p m)
    (hw : WroteBytes a m out m') (hr : a.dstAddr.toNat + a.dstCap.toNat ≤ p.memBytes) : DmemOk p m' := by
  obtain ⟨hcap, bs, rfl, rfl⟩ := hw
  exact h.writeAll bs (by simp only [Latched.dst]; omega)

/-- A command whose destination region leaves DMEM writes no byte: a check stops it, its own or that of the source. -/
theorem exec_dmem_of_dst_beyond {i : Instr} {s t : State} (hdst : usesDst i = true) (h : s.dstInRange = false)
    (hexec : exec i s = .next t) : t.dmem = s.dmem := by
  by_cases hsrc : usesSrc i = true → s.srcInRange = true
  · rw [exec_of_dst_beyond hdst hsrc h] at hexec
    cases hexec
    rfl
  · rw [Classical.not_imp, Bool.not_eq_true] at hsrc
    obtain ⟨w, hw, hmem, -⟩ := exec_of_src_beyond hsrc.1 hsrc.2
    rw [hw] at hexec
    cases hexec
    exact hmem

/-- A command keeps DMEM canonical: what it writes lies in a destination region that passed its check. -/
theorem exec_keeps_dmemOk {i : Instr} {s t : State} (hi : i ≠ .softReset) (hs : DmemOk s.params s.dmem)
    (h : exec i s = .next t) : t.params = s.params ∧ DmemOk t.params t.dmem := by
  obtain ⟨w, hw, hend⟩ := exec_cases hi h
  have hp : t.params = s.params ∧ t.dmem = w.dmem := by cases hend <;> exact ⟨hw.sameHostSide.1, rfl⟩
  obtain ⟨hp, hm⟩ := hp
  refine ⟨hp, ?_⟩
  rw [hp]
  cases hw with
  | dmem hdst hwrote =>
    cases hr : s.dstInRange
    · rwa [exec_dmem_of_dst_beyond hdst hr h]
    · rw [hm]
      exact hs.wroteBytes hwrote (s.dstInRange_iff.1 hr)
  | _ => rwa [hm]

/-- The soft reset gives free values to bytes that exist only (R181). -/
theorem softReset_keeps_dmemOk {s t : State} (hs : DmemOk s.params s.dmem) (h : exec .softReset s = .next t) :
    t.params = s.params ∧ DmemOk t.params t.dmem := by
  cases h
  refine ⟨rfl, ?_⟩
  show DmemOk s.params (scramble s.abandonedBytes s.dmem s.a.dst s.draws)
  by_cases h0 : s.abandonedBytes = 0
  · rwa [h0]
  · refine hs.scramble _ _ ?_
    unfold State.abandonedBytes at h0 ⊢
    split at h0
    · rename_i hrun
      rw [if_pos hrun]
      omega
    · exact absurd rfl h0

theorem engineStep_keeps_dmemOk {s t : State} (hs : DmemOk s.params s.dmem) (h : engineStep s = .next t) :
    t.params = s.params ∧ DmemOk t.params t.dmem := by
  obtain ⟨i, hi, h⟩ | ⟨-, -, rfl⟩ := engineStep_cases h
  · exact exec_keeps_dmemOk (ne_softReset_of_decode_cmd hi) hs h
  · exact ⟨rfl, hs⟩

/-- Of the host's transactions the soft reset and a byte write reach DMEM. -/
theorem hostStep_keeps_dmemOk {op : HostOp} {s t : State} (hs : DmemOk s.params s.dmem)
    (h : hostStep op s = .next t) : t.params = s.params ∧ DmemOk t.params t.dmem := by
  rcases hostStep_cases h with ⟨v, -, -, h⟩ | ⟨v, -, -, rfl⟩ | ⟨w, -, -, rfl⟩ | ⟨w, -, -, rfl⟩ | ⟨v, -, rfl⟩ |
    ⟨_, _, _, _, _, _, _, rfl⟩ | ⟨v, n, ops, -, rfl⟩ | ⟨addr, b, -, hmem, -, -, rfl⟩
  case inl => exact softReset_keeps_dmemOk hs h
  case inr.inr.inr.inr.inr.inr.inr => exact ⟨rfl, hs.write hmem b⟩
  all_goals exact ⟨rfl, hs⟩

/-- Settles O25: each agent's move keeps the parameters and the canonical form. -/
theorem stepKeepsDmemCanonical : Obligations.StepKeepsDmemCanonical := by
  intro s s' hs h
  obtain ⟨q, -, h⟩ | ⟨op, ops, q, -, -, -, h⟩ | ⟨-, -, rfl⟩ := step_cases h
  · exact engineStep_keeps_dmemOk (s := { s with sched := q }) hs h
  · exact hostStep_keeps_dmemOk (s := { s with sched := q, host := ops }) hs h
  · exact ⟨rfl, hs⟩

end Sys2Proof.Machine
end

section
/-! PROOFS. What a command reads of DMEM (R66, R222): it ends in the same registers and tables and writes the same bytes,
whatever DMEM holds outside the source region. -/

namespace Sys2Proof.Machine

/-! ## The source region -/

/-- `m` reads as the DMEM of `s` in the source region, where the command uses one (R66, R95). -/
def AgreesOnSource (i : Instr) (s : State) (m : Memory) : Prop :=
  usesSrc i = true → ∀ addr, s.a.srcAddr.toNat ≤ addr → addr < s.a.srcAddr.toNat + s.a.srcLen.toNat →
    Memory.read m addr = Memory.read s.dmem addr

theorem AgreesOnSource.refl (i : Instr) (s : State) : AgreesOnSource i s s.dmem := fun _ _ _ _ => rfl

theorem AgreesOnSource.srcBytes {i : Instr} {s : State} {m : Memory} (h : AgreesOnSource i s m) (hi : usesSrc i = true) :
    State.srcBytes { s with dmem := m } = s.srcBytes :=
  Memory.bytes_congr (h hi)

theorem AgreesOnSource.srcBits {i : Instr} {s : State} {m : Memory} (h : AgreesOnSource i s m) (hi : usesSrc i = true)
    {n : Nat} (hn : n ≤ 8 * s.a.srcLen.toNat) : State.srcBits { s with dmem := m } n = s.srcBits n :=
  Memory.bits_congr hn (h hi)

/-! ## The loops that write DMEM

A family `f : Memory → σ` is where a loop stands, as a function of what DMEM held when its command started. -/

/-- A loop started with any DMEM contents ends the same way: the family it ends in satisfies `P`, and the error, if it
stops at one, is the same for all contents. -/
def EndsAlike {ε σ : Type} (P : (Memory → σ) → Prop) (run : Memory → Except (ε × σ) σ) : Prop :=
  (∃ f, P f ∧ ∀ m, run m = .ok (f m)) ∨ (∃ e f, P f ∧ ∀ m, run m = .error (e, f m))

/-- The packers that emitted the same bits, every byte they complete fitting (R68). -/
def PackedAlike (a : Latched) (f : Memory → Packer) : Prop :=
  ∃ seq : List Bool, seq.length / 8 ≤ a.dstCap.toNat ∧ f = fun m => packerOf m a seq

theorem PackedAlike.init (a : Latched) : PackedAlike a Packer.init := ⟨[], Nat.zero_le _, rfl⟩

theorem PackedAlike.emit {a : Latched} {f : Memory → Packer} (h : PackedAlike a f) (bs : List Bool) :
    (∃ g, PackedAlike a g ∧ ∀ m, (f m).emit a bs = .ok (g m)) ∨
    (∃ g, PackedAlike a g ∧ ∀ m, (f m).emit a bs = .error (g m)) := by
  obtain ⟨seq, hfit, rfl⟩ := h
  by_cases hfits : (seq ++ bs).length / 8 ≤ a.dstCap.toNat
  · exact .inl ⟨_, ⟨_, hfits, rfl⟩, fun m => by rw [emit_packerOf m a bs seq hfit, if_pos hfits]⟩
  · have hcut : ((seq ++ bs).take (8 * a.dstCap.toNat + 7)).length / 8 ≤ a.dstCap.toNat := by
      rw [List.length_take]
      omega
    exact .inr ⟨_, ⟨_, hcut, rfl⟩, fun m => by rw [emit_packerOf m a bs seq hfit, if_neg hfits]⟩

/-- `Flush()` (R68) emits as many zeros whatever DMEM holds. -/
theorem PackedAlike.flush {a : Latched} {f : Memory → Packer} (h : PackedAlike a f) :
    (∃ g, PackedAlike a g ∧ ∀ m, (f m).flush a = .ok (g m)) ∨
    (∃ g, PackedAlike a g ∧ ∀ m, (f m).flush a = .error (g m)) := by
  obtain ⟨seq, hfit, rfl⟩ := h
  exact PackedAlike.emit ⟨seq, hfit, rfl⟩ (List.replicate (padCount seq.length) false)

theorem serLoop_endsAlike {a : Latched} (es : List CtEntry) (j : Nat) {f : Memory → Packer} (hf : PackedAlike a f) :
    EndsAlike (PackedAlike a) fun m => serLoop a es j (f m) := by
  induction es generalizing j f with
  | nil => exact .inl ⟨f, hf, fun _ => rfl⟩
  | cons e es ih =>
    obtain ⟨g, hg, hemit⟩ | ⟨g, hg, hemit⟩ := hf.emit (entryBits e)
    · simpa only [serLoop, hemit] using ih (j + 1) hg
    · exact .inr ⟨j, g, hg, fun m => by simp only [serLoop, hemit]⟩

/-- TEXT_ENCODE's loop states with the same counts and packers that emitted the same bits (R160). -/
def EncAlike (a : Latched) (f : Memory → EncLoop) : Prop :=
  ∃ pk pos nsym, PackedAlike a pk ∧ f = fun m => ⟨pk m, pos, nsym⟩

theorem encLoop_endsAlike (ct : List CtEntry) {a : Latched} (fuel : Nat) (bs : List Byte) {f : Memory → EncLoop}
    (hf : EncAlike a f) : EndsAlike (EncAlike a) fun m => encLoop ct a fuel bs (f m) := by
  induction fuel generalizing bs f with
  | zero => cases bs <;> exact .inl ⟨f, hf, fun _ => rfl⟩
  | succ fuel ih =>
    cases bs with
    | nil => exact .inl ⟨f, hf, fun _ => rfl⟩
    | cons b bs =>
      cases hnext : nextSymbol (b :: bs) with
      | none => exact .inr ⟨.invalidSymbol, f, hf, fun m => by simp only [encLoop, hnext]⟩
      | some xn =>
        cases hlook : ctLookup ct xn.1 with
        | none => exact .inr ⟨.missingSymbol, f, hf, fun m => by simp only [encLoop, hnext, hlook]⟩
        | some e =>
          obtain ⟨pk, pos, nsym, hpk, rfl⟩ := hf
          obtain ⟨g, hg, hemit⟩ | ⟨g, hg, hemit⟩ := hpk.emit (codeBits e)
          · simpa only [encLoop, hnext, hlook, hemit] using
              ih ((b :: bs).drop xn.2) ⟨g, pos + xn.2, nsym + 1, hg, rfl⟩
          · exact .inr ⟨.capacity, _, ⟨g, pos, nsym, hg, rfl⟩, fun m => by simp only [encLoop, hnext, hlook, hemit]⟩

/-- TEXT_DECODE's loop states that wrote the same bytes and differ in nothing else (R171). -/
def DecAlike (a : Latched) (f : Memory → DecLoop) : Prop :=
  ∃ (l : DecLoop) (vs : List Byte), vs.length = l.out ∧ f = fun m => { l with mem := Memory.writeAll m a.dst vs }

theorem DecAlike.init (a : Latched) : DecAlike a fun m => ⟨0, 0, 0, 0, 0, 0, m⟩ :=
  ⟨⟨0, 0, 0, 0, 0, 0, []⟩, [], rfl, rfl⟩

theorem matchSym_endsAlike {a : Latched} {f : Memory → DecLoop} (hf : DecAlike a f) (x : Sym) :
    EndsAlike (DecAlike a) fun m => matchSym a (f m) x := by
  obtain ⟨l, vs, hlen, rfl⟩ := hf
  by_cases hfull : a.dstCap.toNat < l.out + (utf8Encode x).length
  · exact .inr ⟨.capacity, _, ⟨l, vs, hlen, rfl⟩, fun m => by simp only [matchSym, emitSym, hfull, if_true]⟩
  · refine .inl ⟨_, ⟨{ l with
      acc := 0, depth := 0, runstart := l.k, nsym := l.nsym + 1, out := l.out + (utf8Encode x).length },
      vs ++ utf8Encode x, by simp [hlen], rfl⟩, fun m => ?_⟩
    simp only [matchSym, emitSym, hfull, if_false, Memory.writeAll_append, hlen]

theorem decTurn_endsAlike (ct : List CtEntry) {a : Latched} {f : Memory → DecLoop} (hf : DecAlike a f) (b : Bool) :
    EndsAlike (DecAlike a) fun m => decTurn ct a (f m) b := by
  obtain ⟨l, vs, hlen, rfl⟩ := hf
  cases hsingle : singleSym ct with
  | some x =>
    simp only [decTurn, hsingle]
    exact matchSym_endsAlike ⟨{ l with k := l.k + 1 }, vs, hlen, rfl⟩ x
  | none =>
    have hbit : DecAlike a fun m => { l with
        k := l.k + 1, acc := 2 * l.acc + b.toNat, depth := l.depth + 1, mem := Memory.writeAll m a.dst vs } :=
      ⟨{ l with k := l.k + 1, acc := 2 * l.acc + b.toNat, depth := l.depth + 1 }, vs, hlen, rfl⟩
    simp only [decTurn, hsingle, decBit]
    cases invLookup ct (2 * l.acc + b.toNat) (l.depth + 1) with
    | some x => exact matchSym_endsAlike hbit x
    | none =>
      by_cases hlong : maxLen ct < l.depth + 1
      · exact .inr ⟨_, _, hbit, fun m => if_pos hlong⟩
      · exact .inl ⟨_, hbit, fun m => if_neg hlong⟩

theorem decLoop_endsAlike (ct : List CtEntry) {a : Latched} (bs : List Bool) {f : Memory → DecLoop}
    (hf : DecAlike a f) : EndsAlike (DecAlike a) fun m => decLoop ct a bs (f m) := by
  induction bs generalizing f with
  | nil => exact .inl ⟨f, hf, fun _ => rfl⟩
  | cons b bs ih =>
    obtain ⟨g, hg, hturn⟩ | ⟨e, g, hg, hturn⟩ := decTurn_endsAlike ct hf b
    · simpa only [decLoop, hturn] using ih hg
    · exact .inr ⟨e, g, hg, fun m => by simp only [decLoop, hturn]⟩

/-! ## The commands -/

/-- The commands that use no region neither read nor write DMEM (R95). -/
theorem exec_withDmem_of_no_region {i : Instr} {s t : State} (hi : i ≠ .softReset) (hsrc : usesSrc i = false)
    (hdst : usesDst i = false) (h : exec i s = .next t) (m : Memory) :
    exec i { s with dmem := m } = .next { t with dmem := m } := by
  cases i with
  | softReset => exact absurd rfl hi
  | nop | ftClear | ctClear => cases h; rfl
  | ftInsert =>
    revert h
    simp only [exec, execFtInsert]
    split
    · rintro ⟨⟩; rfl
    split
    · rintro ⟨⟩; rfl
    split
    · rintro ⟨⟩; rfl
    split <;> (rintro ⟨⟩; rfl)
  | treeBuild =>
    revert h
    simp only [exec, execTreeBuild]
    split <;> (rintro ⟨⟩; rfl)
  | codeGen =>
    revert h
    simp only [exec, execCodeGen]
    split
    · rintro ⟨⟩; rfl
    split <;> (rintro ⟨⟩; rfl)
  | freqCount | tableDeser | textEncode | textDecode => cases hsrc
  | tableSer => cases hdst

/-- TABLE_SER reads no byte of DMEM (R140). -/
theorem execTableSer_withDmem {s t : State} (h : execTableSer s = .next t) :
    ∃ vs : List Byte, ∀ m, AgreesOnSource .tableSer s m →
      execTableSer { s with dmem := m } = .next { t with dmem := Memory.writeAll m s.a.dst vs } := by
  have hrange (m : Memory) : State.dstInRange { s with dmem := m } = s.dstInRange := rfl
  revert h
  simp only [execTableSer, hrange]
  split
  · rintro ⟨⟩; exact ⟨[], fun m _ => rfl⟩
  obtain ⟨f, hf, hrun⟩ | ⟨j, f, ⟨seq, -, rfl⟩, hrun⟩ := serLoop_endsAlike s.ct 0 (.init s.a)
  · obtain ⟨g, ⟨seq', -, rfl⟩, hflush⟩ | ⟨g, ⟨seq', -, rfl⟩, hflush⟩ := hf.flush
    all_goals
      obtain ⟨seq, -, rfl⟩ := hf
      simp only [hrun, hflush]
      rintro ⟨⟩; exact ⟨_, fun m _ => rfl⟩
  · simp only [hrun]
    rintro ⟨⟩; exact ⟨_, fun m _ => rfl⟩

/-- TEXT_ENCODE reads the source region only (R160). -/
theorem execTextEncode_withDmem {s t : State} (h : execTextEncode s = .next t) :
    ∃ vs : List Byte, ∀ m, AgreesOnSource .textEncode s m →
      execTextEncode { s with dmem := m } = .next { t with dmem := Memory.writeAll m s.a.dst vs } := by
  have herr (m : Memory) : State.regionErr { s with dmem := m } = s.regionErr := rfl
  revert h
  simp only [execTextEncode, herr]
  split
  · rintro ⟨⟩; exact ⟨[], fun m _ => rfl⟩
  intro h
  obtain ⟨f, ⟨pk, pos, nsym, hpk, rfl⟩, hrun⟩ | ⟨e, f, ⟨pk, pos, nsym, ⟨seq, -, rfl⟩, rfl⟩, hrun⟩ :=
    encLoop_endsAlike s.ct s.a.srcLen.toNat s.srcBytes ⟨_, 0, 0, .init s.a, rfl⟩
  · obtain ⟨g, ⟨seq', -, rfl⟩, hflush⟩ | ⟨g, ⟨seq', -, rfl⟩, hflush⟩ := hpk.flush
    all_goals
      obtain ⟨seq, -, rfl⟩ := hpk
      simp only [hrun, hflush] at h
      cases h
      refine ⟨bytesOfBits (seq'.length / 8) seq', fun m hm => ?_⟩
      simp only [hm.srcBytes rfl, hrun, hflush]
      rfl
  · simp only [hrun] at h
    cases h
    refine ⟨bytesOfBits (seq.length / 8) seq, fun m hm => ?_⟩
    simp only [hm.srcBytes rfl, hrun]
    rfl

/-- TEXT_DECODE reads the source region only (R171). -/
theorem execTextDecode_withDmem {s t : State} (h : execTextDecode s = .next t) :
    ∃ vs : List Byte, ∀ m, AgreesOnSource .textDecode s m →
      execTextDecode { s with dmem := m } = .next { t with dmem := Memory.writeAll m s.a.dst vs } := by
  have herr (m : Memory) : State.decodeErr { s with dmem := m } = s.decodeErr := rfl
  have hvalid : s.a.validBits ≤ 8 * s.a.srcLen.toNat := Nat.sub_le _ _
  revert h
  simp only [execTextDecode, herr]
  split
  · rintro ⟨⟩; exact ⟨[], fun m _ => rfl⟩
  intro h
  obtain ⟨f, ⟨l, vs, -, rfl⟩, hrun⟩ | ⟨e, f, ⟨l, vs, -, rfl⟩, hrun⟩ :=
    decLoop_endsAlike s.ct (s.srcBits s.a.validBits) (.init s.a)
  all_goals
    simp only [hrun] at h
    cases h
    refine ⟨vs, fun m hm => ?_⟩
    simp only [hm.srcBits rfl hvalid, hrun]
    rfl

/-- Whatever DMEM holds outside the source region, a command ends in one state but for DMEM, and writes one list of bytes
at the start of the destination region (R66). -/
theorem exec_withDmem {i : Instr} {s t : State} (hi : i ≠ .softReset) (h : exec i s = .next t) :
    ∃ vs : List Byte, ∀ m, AgreesOnSource i s m →
      exec i { s with dmem := m } = .next { t with dmem := Memory.writeAll m s.a.dst vs } := by
  cases i with
  | softReset => exact absurd rfl hi
  | nop | ftClear | ftInsert | treeBuild | codeGen | ctClear =>
    exact ⟨[], fun m _ => exec_withDmem_of_no_region hi rfl rfl h m⟩
  | freqCount =>
    refine ⟨[], fun m hm => ?_⟩
    have hrange : State.srcInRange { s with dmem := m } = s.srcInRange := rfl
    revert h
    simp only [exec, execFreqCount, hrange, hm.srcBytes rfl]
    split
    · rintro ⟨⟩; rfl
    split <;> (rintro ⟨⟩; rfl)
  | tableDeser =>
    refine ⟨[], fun m hm => ?_⟩
    have hrange : State.srcInRange { s with dmem := m } = s.srcInRange := rfl
    revert h
    simp only [exec, execTableDeser, hrange, hm.srcBits rfl (le_refl _)]
    split
    · rintro ⟨⟩; rfl
    split <;> (rintro ⟨⟩; rfl)
  | tableSer => exact execTableSer_withDmem h
  | textEncode => exact execTextEncode_withDmem h
  | textDecode => exact execTextDecode_withDmem h

/-- A byte after two runs of writes of the same bytes is written alike or as it was. -/
theorem Memory.read_writeAll_alike (vs : List Byte) (m m' : Memory) (base addr : Nat) :
    Memory.read (Memory.writeAll m' base vs) addr = Memory.read (Memory.writeAll m base vs) addr ∨
      (Memory.read (Memory.writeAll m base vs) addr = Memory.read m addr ∧
        Memory.read (Memory.writeAll m' base vs) addr = Memory.read m' addr) := by
  by_cases hin : base ≤ addr ∧ addr < base + vs.length
  · exact .inl (by simp only [Memory.read_writeAll, dif_pos hin])
  · exact .inr (by simp only [Memory.read_writeAll, dif_neg hin, and_self])

/-- Settles O22: the results are one state with the same bytes written over each DMEM. -/
theorem engineReadsOnlySourceRegion : Obligations.EngineReadsOnlySourceRegion := by
  intro i s m hi hm
  obtain ⟨t, ht⟩ := exec_next i s
  obtain ⟨vs, hrun⟩ := exec_withDmem hi ht
  exact ⟨_, _, hrun s.dmem (.refl i s), hrun m hm, rfl, Memory.read_writeAll_alike vs s.dmem m s.a.dst⟩

end Sys2Proof.Machine
end

section
/-! PROOFS. The words of the instructions (R91, R93, R94), what the word an agent's turn picks does (R90, R92, R182,
R195), and the registers a running command does not read (R92). -/

namespace Sys2Proof.Machine

/-! ## Decode and encode (R91, R93, R94) -/

/-- An instruction decoded is that of a row which reads the word at the register. -/
theorem exists_row_of_decode {p : Port} {w : Word} {i : Instr} (h : decode p w = .ok i) :
    ∃ r ∈ opcodeRows, r.port = p ∧ w &&& r.mask = r.bits ∧ r.instr = i := by
  unfold decode at h
  split at h <;> cases h
  rename_i r hr
  have hmatch := List.find?_some hr
  simp only [Row.matches, Bool.and_eq_true, beq_iff_eq] at hmatch
  exact ⟨r, List.mem_of_find?_eq_some hr, hmatch.1, hmatch.2, rfl⟩

/-- A command's row reads every bit of the word, and its match is the command's encoding (R93). -/
theorem encode_of_cmd_row : ∀ r ∈ opcodeRows, r.port = .cmd →
    r.mask = BitVec.allOnes 32 ∧ encode r.instr = (.cmd, r.bits) := by decide

theorem decode_encode (i : Instr) : decode (encode i).1 (encode i).2 = .ok i := by
  cases i <;> rfl

/-- The CMD word of a command is its encoding and no other (R91: RSVD is 0). -/
theorem decode_cmd_iff {w : Word} {i : Instr} : decode .cmd w = .ok i ↔ encode i = (.cmd, w) := by
  constructor
  · intro h
    obtain ⟨r, hr, hport, hbits, rfl⟩ := exists_row_of_decode h
    obtain ⟨hmask, henc⟩ := encode_of_cmd_row r hr hport
    rw [henc, ← hbits, hmask, BitVec.and_allOnes]
  · intro h
    simpa only [h] using decode_encode i

/-- A word is its RSVD bits over its OP (R91). -/
theorem rsvd_append_op (w : Word) : w.extractLsb' 8 24 ++ w.extractLsb' 0 8 = w :=
  (BitVec.extractLsb'_append_extractLsb'_eq_extractLsb' rfl).trans BitVec.extractLsb'_eq_self

/-- The opcode map has a row for each opcode up to 0x0A (R93). -/
theorem exists_cmd_row_of_op_le : ∀ op : BitVec 8, op.toNat ≤ 0x0A →
    ∃ r ∈ opcodeRows, r.port = .cmd ∧ r.bits = (0 : BitVec 24) ++ op := by decide

/-- Every command's word has RSVD 0 and an opcode up to 0x0A (R91, R93). -/
theorem encode_cmd_legal {i : Instr} (h : (encode i).1 = .cmd) :
    (encode i).2.extractLsb' 8 24 = 0 ∧ ((encode i).2.extractLsb' 0 8).toNat ≤ 0x0A := by
  cases i with
  | softReset => cases h
  | _ => decide

/-- The CMD words that decode are those R94 does not call illegal. -/
theorem exists_decode_cmd_iff (w : Word) :
    (∃ i, decode .cmd w = .ok i) ↔ w.extractLsb' 8 24 = 0 ∧ (w.extractLsb' 0 8).toNat ≤ 0x0A := by
  constructor
  · rintro ⟨i, hi⟩
    have henc := decode_cmd_iff.mp hi
    simpa only [henc] using encode_cmd_legal (i := i) (by rw [henc])
  · rintro ⟨hrsvd, hop⟩
    obtain ⟨r, hr, hport, hbits⟩ := exists_cmd_row_of_op_le _ hop
    refine ⟨r.instr, decode_cmd_iff.mpr ?_⟩
    rw [(encode_of_cmd_row r hr hport).2, hbits, ← hrsvd, rsvd_append_op]

theorem decode_ctrl_iff {w : Word} {i : Instr} : decode .ctrl w = .ok i ↔ i = .softReset ∧ w.getLsbD 0 = true := by
  rw [decode_ctrl]
  cases w.getLsbD 0 <;> simp [eq_comm]

/-- Settles O1: a command's row compares the whole word with its encoding, the soft reset's only SRST. -/
theorem decodeEncodeAgree : Obligations.DecodeEncodeAgree :=
  ⟨fun i _ => decode_encode i, fun _ _ => decode_cmd_iff.mp, fun _ _ => decode_ctrl_iff, exists_decode_cmd_iff⟩

/-- Settles O2: the decoder evaluates each word. -/
theorem specWordsDecode : Obligations.SpecWordsDecode := by
  unfold Obligations.SpecWordsDecode
  decide

/-! ## Whose turn it is (R195) -/

/-- The host moves while no command runs and a transaction is pending. -/
theorem step_host_idle {s : State} {op : HostOp} {ops : List HostOp} (hb : s.busy = false) (hh : s.host = op :: ops) :
    step s = hostStep op { s with host := ops } := by
  simp [step, State.turn, hb, hh]

/-- The host moves while a command runs where the schedule says so. -/
theorem step_host_busy {s : State} {op : HostOp} {ops : List HostOp} {q : List Agent} (hb : s.busy = true)
    (hh : s.host = op :: ops) (hq : s.sched = .host :: q) :
    step s = hostStep op { s with host := ops, sched := q } := by
  simp [step, State.turn, hb, hh, hq]

/-- The engine's turns while a command runs: no schedule, one that names the engine, one that names a host with no
transaction pending. -/
theorem step_engine {s : State} (hb : s.busy = true) :
    (s.sched = [] → step s = engineStep s) ∧
    (∀ q, s.sched = .engine :: q → step s = engineStep { s with sched := q }) ∧
    (∀ q, s.sched = .host :: q → s.host = [] → step s = engineStep { s with sched := q }) := by
  refine ⟨fun hq => ?_, fun q hq => ?_, fun q hq hh => ?_⟩
  · simp [step, State.turn, hb, hq]
  · simp [step, State.turn, hb, hq]
  · simp [step, State.turn, hb, hq, hh]

/-! ## What the agent whose turn it is does -/

theorem engineStep_of_decode {s : State} {i : Instr} (h : decode .cmd s.fetchWord = .ok i) : engineStep s = exec i s := by
  rw [engineStep, h]

theorem writeCtrl_of_reset (s : State) {v : Word} (h : v.getLsbD 0 = true) : writeCtrl s v = exec .softReset s := by
  rw [writeCtrl, decode_ctrl_iff.mpr ⟨rfl, h⟩]

theorem hostStep_ctrl_of_reset (s : State) {v : Word} (h : v.getLsbD 0 = true) :
    hostStep (.csrw 0x0C v) s = exec .softReset s :=
  (hostStep_csrw s v .ctrl).trans (writeCtrl_of_reset s h)

theorem hostStep_cmd (s : State) (w : Word) : hostStep (.csrw 0x10 w) s = .next (writeCmd s w) :=
  hostStep_csrw s w .cmd

theorem writeCmd_idle {s : State} (hb : s.busy = false) (w : Word) : writeCmd s w = s.start w := by
  simp [writeCmd, hb]

theorem writeCmd_busy {s : State} (hb : s.busy = true) (w : Word) : writeCmd s w = { s with ovr := true } := by
  simp [writeCmd, hb]

/-- Settles O3: the host's turn is the CMD write, which an idle block starts and a busy one drops. -/
theorem cmdWriteStartsOrIsDropped : Obligations.CmdWriteStartsOrIsDropped := by
  intro s w ops hh
  refine ⟨fun hb => ?_, fun q hb hq => ?_⟩
  · rw [step_host_idle hb hh, hostStep_cmd, writeCmd_idle (s := { s with host := ops }) hb]
    rfl
  · rw [step_host_busy hb hh hq, hostStep_cmd, writeCmd_busy (s := { s with host := ops, sched := q }) hb]

/-- Settles O4: the engine's turn runs the instruction decoded, and the schedule is no part of the word decoded; the
host's turn is the CTRL write. -/
theorem stepRunsDecodedInstruction : Obligations.StepRunsDecodedInstruction := by
  refine ⟨fun s i hb hi => ?_, fun s v ops hh hv => ⟨fun hb => ?_, fun q hb hq => ?_⟩⟩
  · obtain ⟨hnone, hengine, hhost⟩ := step_engine hb
    have hrun (q : List Agent) : engineStep { s with sched := q } = exec i { s with sched := q } :=
      engineStep_of_decode hi
    exact ⟨fun hq => (hnone hq).trans (hrun s.sched), fun q hq => (hengine q hq).trans (hrun q),
      fun q hq hh => (hhost q hq hh).trans (hrun q)⟩
  · rw [step_host_idle hb hh, hostStep_ctrl_of_reset _ hv]
  · rw [step_host_busy hb hh hq, hostStep_ctrl_of_reset _ hv]

/-! ## The word the engine decodes (R90, R92, R94) -/

/-- The engine decodes the word that CMD and the latched OP hold. -/
theorem fetchWord_of_latched {s : State} {w : Word} (hcmd : s.cmd = w) (hop : s.a.op = w.extractLsb' 0 8) :
    s.fetchWord = w := by
  rw [State.fetchWord, hcmd, hop, rsvd_append_op]

theorem fetchWord_start (s : State) (w : Word) : (s.start w).fetchWord = w := fetchWord_of_latched rfl rfl

/-- A placed command word is an accepted one, and the engine moves next. -/
theorem step_withFetchWord_cmd (s : State) (w : Word) :
    step (s.withFetchWord 32 w.toNat) = engineStep (s.start w) := by
  have hplace : s.withFetchWord 32 w.toNat = { s.start w with sched := .engine :: s.sched } := by
    simp [State.withFetchWord, tablePort]
  obtain ⟨-, hengine, -⟩ := step_engine (s := s.withFetchWord 32 w.toNat) (by rw [hplace, State.start_busy])
  rw [hengine s.sched (by rw [hplace]), hplace]
  rfl

/-- A placed CTRL word is a pending host write, and the host moves next. -/
theorem step_withFetchWord_ctrl (s : State) (w : Nat) :
    step (s.withFetchWord 8 w) = hostStep (.csrw 0x0C (BitVec.ofNat 32 w)) s := by
  cases hb : s.busy with
  | false =>
    rw [step_host_idle (s := s.withFetchWord 8 w) hb rfl]
    change hostStep _ { s with sched := if s.busy then .host :: s.sched else s.sched } = _
    rw [if_neg (by simp [hb])]
    rfl
  | true =>
    rw [step_host_busy (s := s.withFetchWord 8 w) hb rfl (if_pos hb)]
    rfl

/-- Settles O5: RSVD over OP is the whole word, which command start and `withFetchWord` both place. -/
theorem placedWordRunsNext : Obligations.PlacedWordRunsNext := by
  refine ⟨fetchWord_start, fun _ _ => fetchWord_of_latched, fun s i hi => ?_, fun s => ?_⟩
  · have hdec : decode .cmd (s.start (encode i).2).fetchWord = .ok i := by
      rw [fetchWord_start, ← hi, decode_encode]
    rw [step_withFetchWord_cmd, engineStep_of_decode hdec]
  · rw [step_withFetchWord_ctrl, hostStep_ctrl_of_reset s (by decide)]

/-! ## Illegal words (R94) -/

/-- The engine completes a word that is no instruction with BAD_COMMAND (R94). -/
theorem engineStep_of_illegal {s : State} (h : ∀ i, decode .cmd s.fetchWord ≠ .ok i) :
    engineStep s = .next s.badCommand := by
  rw [engineStep]
  split
  · exact absurd ‹_› (h _)
  · rfl

/-- Settles O6: no illegal word decodes, so each turn of the engine is the BAD_COMMAND completion. -/
theorem illegalWordCompletesBadCommand : Obligations.IllegalWordCompletesBadCommand := by
  intro s w hb hcmd hop hbad
  have hfetch (q : List Agent) : State.fetchWord { s with sched := q } = w := fetchWord_of_latched hcmd hop
  have hdec (i : Instr) : decode .cmd w ≠ .ok i := by
    intro hi
    obtain ⟨hrsvd, hle⟩ := (exists_decode_cmd_iff w).mp ⟨i, hi⟩
    rcases hbad with hne | hge
    · exact hne hrsvd
    · omega
  have hrun (q : List Agent) :
      engineStep { s with sched := q } = .next (State.raise { s with sched := q } .badCommand w) := by
    rw [engineStep_of_illegal (by rw [hfetch]; exact hdec), State.badCommand, hfetch]
  obtain ⟨hnone, hengine, hhost⟩ := step_engine hb
  exact ⟨fun hq => (hnone hq).trans (hrun s.sched), fun q hq => (hengine q hq).trans (hrun q),
    fun q hq hh => (hhost q hq hh).trans (hrun q)⟩

/-! ## The registers a running command does not read (R92) -/

/-- `s` with the argument registers, IDX, IRQ_EN and OVR of `r`. -/
def State.withHostRegs (s r : State) : State :=
  { s with srcAddr := r.srcAddr, srcLen := r.srcLen, dstAddr := r.dstAddr, dstCap := r.dstCap, arg0 := r.arg0,
           arg1 := r.arg1, idx := r.idx, irqEn := r.irqEn, ovr := r.ovr }

section
variable (s r : State)

/-! What a command reads: the latched operands, the tables, DMEM and the parameters, and the checks of these. The
brackets of `(rfl)` have simp rewrite with the equation, and so decide the condition of an `if` anew, where the bare term
would have it unfold the condition only. -/

@[simp] theorem State.withHostRegs_params : (s.withHostRegs r).params = s.params := (rfl)
@[simp] theorem State.withHostRegs_treeValid : (s.withHostRegs r).treeValid = s.treeValid := (rfl)
@[simp] theorem State.withHostRegs_ft : (s.withHostRegs r).ft = s.ft := (rfl)
@[simp] theorem State.withHostRegs_nodes : (s.withHostRegs r).nodes = s.nodes := (rfl)
@[simp] theorem State.withHostRegs_root : (s.withHostRegs r).root = s.root := (rfl)
@[simp] theorem State.withHostRegs_ct : (s.withHostRegs r).ct = s.ct := (rfl)
@[simp] theorem State.withHostRegs_a : (s.withHostRegs r).a = s.a := (rfl)
@[simp] theorem State.withHostRegs_dmem : (s.withHostRegs r).dmem = s.dmem := (rfl)
@[simp] theorem State.withHostRegs_srcInRange : (s.withHostRegs r).srcInRange = s.srcInRange := (rfl)
@[simp] theorem State.withHostRegs_dstInRange : (s.withHostRegs r).dstInRange = s.dstInRange := (rfl)
@[simp] theorem State.withHostRegs_regionErr : (s.withHostRegs r).regionErr = s.regionErr := (rfl)
@[simp] theorem State.withHostRegs_decodeErr : (s.withHostRegs r).decodeErr = s.decodeErr := (rfl)
@[simp] theorem State.withHostRegs_srcBytes : (s.withHostRegs r).srcBytes = s.srcBytes := (rfl)
@[simp] theorem State.withHostRegs_srcBits (n : Nat) : (s.withHostRegs r).srcBits n = s.srcBits n := (rfl)

end

/-- A command branches only on what `withHostRegs` leaves, and each branch's completion keeps those registers. -/
theorem exec_withHostRegs {i : Instr} {s t : State} (hi : i ≠ .softReset) (h : exec i s = .next t) (r : State) :
    exec i (s.withHostRegs r) = .next (t.withHostRegs r) := by
  revert h
  cases i with
  | softReset => exact absurd rfl hi
  | nop | ftClear | ctClear => rintro ⟨⟩; rfl
  | freqCount =>
    simp only [exec, execFreqCount, State.withHostRegs_srcInRange, State.withHostRegs_params, State.withHostRegs_a,
      State.withHostRegs_srcBytes]
    split
    · rintro ⟨⟩; rfl
    split <;> (rintro ⟨⟩; rfl)
  | ftInsert =>
    simp only [exec, execFtInsert, State.withHostRegs_a, State.withHostRegs_ft, State.withHostRegs_params]
    split
    · rintro ⟨⟩; rfl
    split
    · rintro ⟨⟩; rfl
    split
    · rintro ⟨⟩; rfl
    split <;> (rintro ⟨⟩; rfl)
  | treeBuild =>
    simp only [exec, execTreeBuild, State.withHostRegs_ft]
    split <;> (rintro ⟨⟩; rfl)
  | codeGen =>
    simp only [exec, execCodeGen, State.withHostRegs_treeValid, State.withHostRegs_nodes, State.withHostRegs_root]
    split
    · rintro ⟨⟩; rfl
    split <;> (rintro ⟨⟩; rfl)
  | tableSer =>
    simp only [exec, execTableSer, State.withHostRegs_dstInRange, State.withHostRegs_a, State.withHostRegs_ct,
      State.withHostRegs_dmem]
    split
    · rintro ⟨⟩; rfl
    split
    · rintro ⟨⟩; rfl
    split <;> (rintro ⟨⟩; rfl)
  | tableDeser =>
    simp only [exec, execTableDeser, State.withHostRegs_srcInRange, State.withHostRegs_params, State.withHostRegs_a,
      State.withHostRegs_srcBits]
    split
    · rintro ⟨⟩; rfl
    split <;> (rintro ⟨⟩; rfl)
  | textEncode =>
    simp only [exec, execTextEncode, State.withHostRegs_regionErr, State.withHostRegs_ct, State.withHostRegs_a,
      State.withHostRegs_srcBytes, State.withHostRegs_dmem]
    split
    · rintro ⟨⟩; rfl
    split
    · rintro ⟨⟩; rfl
    split <;> (rintro ⟨⟩; rfl)
  | textDecode =>
    simp only [exec, execTextDecode, State.withHostRegs_decodeErr, State.withHostRegs_ct, State.withHostRegs_a,
      State.withHostRegs_srcBits, State.withHostRegs_dmem]
    split
    · rintro ⟨⟩; rfl
    split <;> (rintro ⟨⟩; rfl)

/-- Settles O7: the other values are those of a state to take the registers from. -/
theorem commandReadsOnlyLatchedOperands : Obligations.CommandReadsOnlyLatchedOperands := by
  intro i s sa sl da dc a0 a1 ix en ov hi
  obtain ⟨t, ht⟩ := exec_next i s
  exact ⟨t, ht, exec_withHostRegs hi ht { s with
    srcAddr := sa, srcLen := sl, dstAddr := da, dstCap := dc, arg0 := a0, arg1 := a1, idx := ix, irqEn := en, ovr := ov }⟩

end Sys2Proof.Machine
end

section
/-! PROOFS. FT_CLEAR, FREQ_COUNT and FT_INSERT (40_frequency.md R110 to R114): what FT holds after a text is counted,
where FREQ_COUNT stops, and what one insert changes. -/

namespace Sys2Proof.Machine

/-- Settles O30: FT_CLEAR's arm writes FT and the tree registers, and completes. -/
theorem ftClearEmptiesFt : Obligations.FtClearEmptiesFt :=
  ⟨by decide, fun _ => rfl⟩

/-! ## A sorted FT (R40, R112) -/

/-- The symbols of a sorted FT are distinct. -/
theorem nodup_of_ascending {xs : List Sym} (h : xs.Pairwise (· < ·)) : xs.Nodup :=
  h.imp fun hlt heq => by bv_omega

/-- Two strictly ascending lists of the same symbols are equal. -/
theorem eq_of_ascending {xs ys : List Sym} (hx : xs.Pairwise (· < ·)) (hy : ys.Pairwise (· < ·))
    (h : ∀ x, x ∈ xs ↔ x ∈ ys) : xs = ys :=
  ((List.perm_ext_iff_of_nodup (nodup_of_ascending hx) (nodup_of_ascending hy)).2 h).eq_of_pairwise
    (fun _ _ _ _ hlt hgt => by bv_omega) hx hy

/-- In a sorted FT the entry `FtFind` answers is the only one of its symbol, so changing it changes exactly the entries
of that symbol. -/
theorem modify_ftFind {t : List FtEntry} {x : Sym} {i : Nat} (hs : (t.map (·.sym)).Pairwise (· < ·))
    (h : ftFind t x = some i) (f : FtEntry → FtEntry) : t.modify i f = t.map fun e => if e.sym = x then f e else e := by
  obtain ⟨hi, rfl⟩ := ftFind_some h
  refine List.ext_getElem (by simp) fun k hk _ => ?_
  rw [List.length_modify] at hk
  have hinj : t[k].sym = t[i].sym ↔ i = k := by
    rw [eq_comm, ← (nodup_of_ascending hs).getElem_inj_iff (hi := by simpa) (hj := by simpa), List.getElem_map,
      List.getElem_map]
  simp only [List.getElem_modify, List.getElem_map, hinj]

/-- Where the entries after one symbol is counted come from (R111): an entry of another symbol, the symbol's own entry
with one more, or the new entry of a symbol FT did not hold. -/
theorem mem_of_ftCount {n : Nat} {t t' : List FtEntry} {x : Sym} (hs : (t.map (·.sym)).Pairwise (· < ·))
    (h : ftCount n t x = some t') {e : FtEntry} (he : e ∈ t') :
    (e ∈ t ∧ e.sym ≠ x) ∨ (∃ c, ⟨x, c⟩ ∈ t ∧ e = ⟨x, c + 1⟩) ∨ (x ∉ t.map (·.sym) ∧ e = ⟨x, 1⟩) := by
  unfold ftCount at h
  split at h
  · rename_i i hi
    cases h
    rw [modify_ftFind hs hi, List.mem_map] at he
    obtain ⟨y, hy, rfl⟩ := he
    split
    · rename_i hsym
      subst hsym
      exact .inr (.inl ⟨y.cnt, hy, rfl⟩)
    · rename_i hsym
      exact .inl ⟨hy, hsym⟩
  · rename_i hnone
    have hx := ftFind_eq_none.1 hnone
    split at h <;> cases h
    rcases List.mem_cons.1 ((ftInsertSorted_perm t ⟨x, 1⟩).mem_iff.1 he) with rfl | he
    · exact .inr (.inr ⟨hx, rfl⟩)
    · exact .inl ⟨he, fun hsym => hx (hsym ▸ List.mem_map_of_mem he)⟩

/-! ## The table of a text (R114) -/

/-- `t` is the frequency table of `text`: strictly ascending, an entry for each distinct symbol, with its number of
occurrences (R114). -/
structure FtOfText (t : List FtEntry) (text : List Sym) : Prop where
  sorted : (t.map (·.sym)).Pairwise (· < ·)
  syms : ∀ x, x ∈ t.map (·.sym) ↔ x ∈ text
  counts : ∀ e ∈ t, e.cnt.toNat = text.count e.sym

theorem FtOfText.nil : FtOfText [] [] := ⟨.nil, by simp, by simp⟩

theorem FtOfText.length_eq {t : List FtEntry} {text : List Sym} (h : FtOfText t text) :
    t.length = text.dedup.length := by
  have hperm : (t.map (·.sym)).Perm text.dedup :=
    (List.perm_ext_iff_of_nodup (nodup_of_ascending h.sorted) text.nodup_dedup).2 fun x => by
      rw [h.syms, List.mem_dedup]
  simpa using hperm.length_eq

/-- A frequency table is determined by its symbols and the text's counts. -/
theorem FtOfText.eq_map {t : List FtEntry} {text : List Sym} (h : FtOfText t text) :
    t = (t.map (·.sym)).map fun x => ⟨x, BitVec.ofNat 32 (text.count x)⟩ := by
  rw [List.map_map]
  conv_lhs => rw [← List.map_id t]
  refine List.map_congr_left fun e he => ?_
  simp [← h.counts e he]

/-- Texts that are permutations of each other have one frequency table (R114). -/
theorem FtOfText.unique {t t' : List FtEntry} {text text' : List Sym} (h : FtOfText t text) (h' : FtOfText t' text')
    (hp : text.Perm text') : t = t' := by
  have hsyms := eq_of_ascending h.sorted h'.sorted fun x => by rw [h.syms, h'.syms, hp.mem_iff]
  rw [h.eq_map, h'.eq_map, hsyms]
  simp only [hp.count_eq]

/-- One more symbol counted (R111): the table is that of the text with the symbol at its end. -/
theorem FtOfText.snoc {n : Nat} {t t' : List FtEntry} {text : List Sym} {x : Sym} (h : FtOfText t text)
    (hlen : text.length + 1 < 2 ^ 32) (hc : ftCount n t x = some t') : FtOfText t' (text ++ [x]) := by
  obtain ⟨hsorted, hsyms⟩ := ftCount_some hc h.sorted
  refine ⟨hsorted, fun y => by simp [hsyms, h.syms, or_comm], fun e he => ?_⟩
  rw [List.count_append]
  obtain ⟨he, hne⟩ | ⟨c, hxc, rfl⟩ | ⟨hnew, rfl⟩ := mem_of_ftCount h.sorted hc he
  · simp [h.counts e he, hne.symm]
  · have hcount : c.toNat = text.count x := h.counts _ hxc
    have hle := text.count_le_length (a := x)
    rw [toNat_succ_of_room (k := 0) (by omega), hcount, List.count_singleton_self]
  · have hzero : text.count x = 0 := List.count_eq_zero.2 fun hx => hnew ((h.syms x).2 hx)
    simp [hzero]

/-- The distinct symbols of a text with one symbol more. -/
theorem length_dedup_snoc (text : List Sym) (x : Sym) :
    (text ++ [x]).dedup.length = text.dedup.length + if x ∈ text then 0 else 1 := by
  rw [(List.perm_append_singleton x text).dedup.length_eq]
  split
  · rename_i hx; rw [List.dedup_cons_of_mem hx, Nat.add_zero]
  · rename_i hx; rw [List.dedup_cons_of_notMem hx, List.length_cons]

/-! ## FREQ_COUNT's loop (R111) -/

/-- The loop over the bytes of a text with at most NSYM_MAX distinct symbols: it has counted the text and stands at what
follows it. By induction on the text from its end, which is the order the loop counts in. -/
theorem freqLoop_text {n : Nat} {text : List Sym} (hs : allScalar text) (hn : text.dedup.length ≤ n)
    (hlen : text.length < 2 ^ 32) (fuel : Nat) (rest : List Byte) :
    ∃ t, FtOfText t text ∧ freqLoop n (text.length + fuel) (textBytes text ++ rest) ⟨[], 0, 0⟩ =
      freqLoop n fuel rest ⟨t, (textBytes text).length, text.length⟩ := by
  induction text using List.reverseRecOn generalizing fuel rest with
  | nil => exact ⟨[], .nil, by simp [textBytes]⟩
  | append_singleton text x ih =>
    have hdistinct := length_dedup_snoc text x
    rw [List.length_append, List.length_singleton] at hlen
    obtain ⟨t, ht, hloop⟩ := ih (fun y hy => hs y (List.mem_append_left _ hy)) (by omega) (by omega) (fuel + 1)
      (utf8Encode x ++ rest)
    have hroom : ftCount n t x ≠ none := by
      rw [Ne, ftCount_eq_none, ht.syms, ht.length_eq]
      rintro ⟨hx, hfull⟩
      rw [if_neg hx] at hdistinct
      omega
    obtain ⟨t', hcount⟩ := Option.ne_none_iff_exists'.1 hroom
    refine ⟨t', ht.snoc hlen hcount, ?_⟩
    have hbytes : textBytes [x] = utf8Encode x := by simp [textBytes]
    rw [freqLoop_symbol _ _ _ _ _ (hs x (by simp))] at hloop
    simpa [textBytes_append, hbytes, hcount, Nat.add_assoc, Nat.add_comm 1] using hloop

/-- The loop at bytes that begin with no valid sequence (R74). -/
theorem freqLoop_invalid (n fuel : Nat) {bad : List Byte} (hne : bad ≠ []) (hbad : nextSymbol bad = none)
    (l : FreqLoop) : freqLoop n (fuel + 1) bad l = .error (.invalidSymbol, l) := by
  cases bad with
  | nil => exact absurd rfl hne
  | cons b bs => rw [freqLoop, hbad]

/-! ## FREQ_COUNT (R111, R114) -/

@[simp] theorem State.length_srcBytes (s : State) : s.srcBytes.length = s.a.srcLen.toNat := by simp [State.srcBytes]

/-- FREQ_COUNT's loop over a source region that begins with a text it has room for: it comes to the bytes after the
text with the text counted, and with fuel for each of those bytes. -/
theorem freqLoop_source {s : State} {text : List Sym} {rest : List Byte} (hb : s.srcBytes = textBytes text ++ rest)
    (hs : allScalar text) (hn : text.dedup.length ≤ s.params.nsymMax) :
    ∃ t fuel, FtOfText t text ∧ rest.length ≤ fuel ∧
      freqLoop s.params.nsymMax s.a.srcLen.toNat s.srcBytes ⟨[], 0, 0⟩ =
        freqLoop s.params.nsymMax fuel rest ⟨t, (textBytes text).length, text.length⟩ := by
  have hlen : s.a.srcLen.toNat = (textBytes text).length + rest.length := by
    rw [← State.length_srcBytes, hb, List.length_append]
  have htext := textLength_le text
  have hword := s.a.srcLen.isLt
  obtain ⟨fuel, hfuel⟩ := Nat.exists_eq_add_of_le (show text.length ≤ s.a.srcLen.toNat by omega)
  obtain ⟨t, ht, hloop⟩ := freqLoop_text hs hn (by omega) fuel rest
  exact ⟨t, fuel, ht, by omega, by rw [hb, hfuel, hloop]⟩

/-- FREQ_COUNT whose loop ends in an error. -/
theorem freqCountStops_of_loop {s : State} {e : ErrCode} {l : FreqLoop} (hr : s.srcInRange = true)
    (h : freqLoop s.params.nsymMax s.a.srcLen.toNat s.srcBytes ⟨[], 0, 0⟩ = .error (e, l)) :
    freqCountStops s e l.nsym l.pos := by
  simp only [freqCountStops, exec, execFreqCount, hr, h]
  rfl

/-- FREQ_COUNT of a valid text completes with the text's frequency table (R111, R114). -/
theorem exec_freqCount_text {s : State} {text : List Sym} (hr : s.srcInRange = true)
    (hb : s.srcBytes = textBytes text) (hs : allScalar text) (hn : text.dedup.length ≤ s.params.nsymMax) :
    ∃ t, FtOfText t text ∧ exec .freqCount s = .next { s with
      ft := t, treeValid := false, nodes := [], root := 0, result0 := BitVec.ofNat 32 t.length,
      result1 := BitVec.ofNat 32 text.length, result3 := s.a.srcLen, busy := false, done := true,
      a := Latched.absent } := by
  obtain ⟨t, fuel, ht, -, hloop⟩ := freqLoop_source (rest := []) (by simpa using hb) hs hn
  have hpos : BitVec.ofNat 32 (textBytes text).length = s.a.srcLen := by
    rw [← hb, State.length_srcBytes, BitVec.ofNat_toNat, BitVec.setWidth_eq]
  rw [freqLoop] at hloop
  refine ⟨t, ht, ?_⟩
  simp only [exec, execFreqCount, hr, hloop, hpos]
  rfl

/-- Settles O32: the table FREQ_COUNT builds is the text's frequency table. -/
theorem freqCountCountsEachSymbol : Obligations.FreqCountCountsEachSymbol := by
  intro s text hr hb hs hn
  obtain ⟨t, ht, hexec⟩ := exec_freqCount_text hr hb hs hn
  exact ⟨t, hexec, ht.sorted, ht.syms, ht.counts⟩

/-- Settles O33: texts that are permutations of each other have one frequency table. -/
theorem freqCountIgnoresOrder : Obligations.FreqCountIgnoresOrder := by
  intro s s' text text' hparams hr hr' hb hb' hs hp hn
  have hs' : allScalar text' := fun x hx => hs x (hp.mem_iff.2 hx)
  have hn' : text'.dedup.length ≤ s'.params.nsymMax := by rwa [← hparams, ← hp.dedup.length_eq]
  obtain ⟨t, ht, hexec⟩ := exec_freqCount_text hr hb hs hn
  obtain ⟨t', ht', hexec'⟩ := exec_freqCount_text hr' hb' hs' hn'
  exact ⟨_, _, hexec, hexec', ht.unique ht' hp⟩

/-- Settles O34: the region check comes before the loop, which counts the text and stops at what follows it. -/
theorem freqCountStopsAtFirstError : Obligations.FreqCountStopsAtFirstError := by
  intro s
  refine ⟨fun hr => ⟨_, by rw [exec, execFreqCount, hr]; rfl, rfl⟩, fun text bad hr hb hne hbad hs hn => ?_,
    fun text x rest hr hb hs hx hnew hfull => ?_⟩
  · obtain ⟨t, fuel, -, hfuel, hloop⟩ := freqLoop_source hb hs hn
    have hpos := List.length_pos_of_ne_nil hne
    obtain ⟨fuel, rfl⟩ := Nat.exists_eq_succ_of_ne_zero (show fuel ≠ 0 by omega)
    exact freqCountStops_of_loop hr (hloop.trans (freqLoop_invalid _ _ hne hbad _))
  · rw [List.append_assoc] at hb
    obtain ⟨t, fuel, ht, hfuel, hloop⟩ := freqLoop_source hb hs hfull.le
    have hpos := utf8Encode_length_pos x
    rw [List.length_append] at hfuel
    obtain ⟨fuel, rfl⟩ := Nat.exists_eq_succ_of_ne_zero (show fuel ≠ 0 by omega)
    have hnone : ftCount s.params.nsymMax t x = none :=
      ftCount_eq_none.2 ⟨fun h => hnew ((ht.syms x).1 h), ht.length_eq.trans hfull⟩
    rw [freqLoop_symbol _ _ _ _ _ hx, hnone] at hloop
    exact freqCountStops_of_loop hr hloop

/-! ## FT_INSERT (R113) -/

/-- Settles O35: a case for each outcome, in the order of the checks; a symbol held changes in its one entry, and a new
one goes to its place in the order. -/
theorem ftInsertSetsOneCount : Obligations.FtInsertSetsOneCount := by
  refine ⟨by decide, fun s hsorted => ?_⟩
  simp only [← isScalar_iff, ← ftFind_eq_none, exec]
  refine ⟨fun hbad => ?_, fun hok hzero => ?_, fun hok hcnt hheld => ?_, fun hok hcnt hnew hfull => ?_,
    fun hok hcnt hnew hroom => ?_⟩
  · simp only [execFtInsert, hbad]; rfl
  · simp only [execFtInsert, hok, hzero]; rfl
  · obtain ⟨i, hi⟩ := Option.ne_none_iff_exists'.1 fun h => ftFind_eq_none.1 h hheld
    simp only [execFtInsert, hok, hcnt, hi, modify_ftFind hsorted hi]; rfl
  · simp only [execFtInsert, hok, hcnt, hnew, hfull]; rfl
  · refine ⟨ftInsertSorted s.ft ⟨s.a.arg0.setWidth 21, s.a.arg1⟩, ?_, ftInsertSorted_perm _ _,
      ftInsertSorted_sorted hsorted (ftFind_eq_none.1 hnew)⟩
    simp only [execFtInsert, hok, hcnt, hnew, hroom]; rfl

end Sys2Proof.Machine
end

section
/-! PROOFS. TREE_BUILD (41_tree_builder.md R120 to R125): how it ends, the two nodes each merge takes, and the
frequencies of the tree it makes. -/

namespace Sys2Proof.Machine

/-! ## How TREE_BUILD ends (R120, R124, R125) -/

/-- Settles O39: the empty FT takes the error branch. -/
theorem treeBuildOfNothing : Obligations.TreeBuildOfNothing := by
  intro s hnil
  rw [exec, execTreeBuild, if_pos (by rw [hnil]; rfl)]
  rfl

/-- TREE_BUILD of a non-empty FT of N entries makes 2N - 1 nodes in N - 1 merges, with the last node as the root. -/
theorem exec_treeBuild {s : State} (hp : s.params.ok = true) (hf : FtOk s.params s.ft) (hne : s.ft ≠ []) :
    exec .treeBuild s = .next { s with
      nodes := (buildTree s.ft).nodes, root := 2 * s.ft.length - 2, treeValid := true,
      result0 := BitVec.ofNat 32 (2 * s.ft.length - 1), result1 := BitVec.ofNat 32 (2 * s.ft.length - 2),
      result2 := BitVec.ofNat 32 (s.ft.length - 1), busy := false, done := true, a := Latched.absent } := by
  obtain ⟨hm, -, hcount, hroot, -⟩ := buildTree_treeOk hp hf hne
  have hmerges : (buildTree s.ft).m = s.ft.length - 1 := by omega
  rw [exec, execTreeBuild, if_neg (by simpa using hne)]
  simp only [hcount, hroot, hmerges]
  rfl

/-- The tree in NODES after TREE_BUILD, with the root in its last place. -/
theorem buildTree_treeOk_last {p : Params} {ft : List FtEntry} (hp : p.ok = true) (hf : FtOk p ft) (hne : ft ≠ []) :
    TreeOk ft (buildTree ft).nodes (2 * ft.length - 2) := by
  have ⟨_, htree⟩ := buildTree_treeOk hp hf hne
  have ⟨_, _, hroot, _⟩ := htree
  exact hroot ▸ htree

/-- Settles O36: the loop's end gives the counts and the tree. -/
theorem treeBuildMakesTheTree : Obligations.TreeBuildMakesTheTree :=
  ⟨by decide, fun _ hp hf hne => ⟨_, exec_treeBuild hp hf hne, buildTree_treeOk_last hp hf hne⟩⟩

/-! ## The two nodes a merge takes (R122, R123) -/

/-- Node k is a merge of the two first nodes, in the order of R122, of those unmerged before it, the smaller to the left
(R123). -/
def mergesSmallest (nodes : List Node) (k : Nat) : Prop :=
  ∃ x y f, nodes[k]? = some (.internal x y f) ∧ unmerged nodes k x ∧ unmerged nodes k y ∧ before nodes x y ∧
    ∀ j, unmerged nodes k j → j ≠ x → j ≠ y → before nodes y j

/-- A new node at the end leaves the order of the others. -/
theorem before_append {nodes : List Node} {i j : Nat} (hi : i < nodes.length) (hj : j < nodes.length)
    (more : List Node) : before (nodes ++ more) i j ↔ before nodes i j := by
  rw [before, before, nodeFreq_append hi, nodeFreq_append hj]

/-- A new node at the end changes nothing of the working set that an earlier node was made from. -/
theorem unmerged_append {nodes : List Node} {k : Nat} (hk : k ≤ nodes.length) (more : List Node) (j : Nat) :
    unmerged (nodes ++ more) k j ↔ unmerged nodes k j := by
  rw [unmerged, unmerged, List.take_append_of_le_length hk]

/-- A new node at the end leaves what the earlier merges took. -/
theorem mergesSmallest_append {nodes : List Node} {k : Nat} (hk : k < nodes.length) (more : List Node)
    (h : mergesSmallest nodes k) : mergesSmallest (nodes ++ more) k := by
  obtain ⟨x, y, f, hnode, hx, hy, hxy, hrest⟩ := h
  have hlt : ∀ {j}, unmerged nodes k j → j < nodes.length := fun hj => hj.1.trans hk
  refine ⟨x, y, f, by rwa [List.getElem?_append_left hk], (unmerged_append hk.le _ _).2 hx,
    (unmerged_append hk.le _ _).2 hy, (before_append (hlt hx) (hlt hy) _).2 hxy, fun j hj hjx hjy => ?_⟩
  rw [unmerged_append hk.le] at hj
  exact (before_append (hlt hy) (hlt hj) _).2 (hrest j hj hjx hjy)

/-- The working set is the unmerged nodes (R43). -/
theorem TreeLoop.Ok.unmerged_iff_mem_ws {ft : List FtEntry} {l : TreeLoop} (h : l.Ok ft) (j : Nat) :
    unmerged l.nodes l.nodes.length j ↔ j ∈ l.ws := by
  have hdisjoint := List.disjoint_of_nodup_append (h.once.nodup_iff.2 List.nodup_range)
  have hmem := h.once.mem_iff (a := j)
  rw [List.mem_append, List.mem_range] at hmem
  rw [unmerged, List.take_length, ← hmem]
  constructor
  · rintro ⟨hchild | hws, hno⟩
    · exact absurd hchild hno
    · exact hws
  · exact fun hws => ⟨.inr hws, fun hchild => hdisjoint hchild hws⟩

/-- What TREE_BUILD's loop keeps besides `TreeLoop.Ok`: nodes of equal frequency stand in the working set in index
order, which makes the stable sort the order of R122; and every merge made took the two first nodes of that order. -/
structure TreeLoop.Greedy (ft : List FtEntry) (l : TreeLoop) : Prop where
  ok : l.Ok ft
  ties : l.ws.Pairwise fun i j => nodeFreq l.nodes i = nodeFreq l.nodes j → i < j
  merges : ∀ k, ft.length ≤ k → k < l.nodes.length → mergesSmallest l.nodes k

theorem TreeLoop.Greedy.init (ft : List FtEntry) :
    TreeLoop.Greedy ft { nodes := leavesOf ft, ws := List.range ft.length, m := 0 } where
  ok := .init ft
  ties := List.pairwise_lt_range.imp (S := fun _ _ => _ → _) fun hlt _ => hlt
  merges k hge hlt := by
    rw [length_leavesOf] at hlt
    omega

/-- The sorted working set is in the order of R122. -/
theorem TreeLoop.Greedy.sorted {ft : List FtEntry} {l : TreeLoop} {sorted : List Nat} (h : l.Greedy ft)
    (hsort : stableSort l.nodes l.ws = sorted) : sorted.Pairwise (before l.nodes) :=
  hsort ▸ stableSort_sorted l.nodes h.ties

/-- The first two of the sorted working set are the merge that the new node has to be. -/
theorem TreeLoop.Greedy.mergesSmallest_new {ft : List FtEntry} {l : TreeLoop} {x y : Nat} {rest : List Nat}
    (h : l.Greedy ft) (hsort : stableSort l.nodes l.ws = x :: y :: rest) :
    mergesSmallest (l.merge x y rest).nodes l.nodes.length := by
  have hunmerged (j : Nat) : unmerged (l.merge x y rest).nodes l.nodes.length j ↔ j ∈ x :: y :: rest := by
    rw [TreeLoop.merge, unmerged_append le_rfl, h.ok.unmerged_iff_mem_ws, ← hsort, (stableSort_perm _ _).mem_iff]
  have hbefore {i j : Nat} (hi : i ∈ x :: y :: rest) (hj : j ∈ x :: y :: rest) (hij : before l.nodes i j) :
      before (l.merge x y rest).nodes i j :=
    (before_append ((hunmerged i).2 hi).1 ((hunmerged j).2 hj).1 _).2 hij
  obtain ⟨hx, htail⟩ := List.pairwise_cons.1 (h.sorted hsort)
  obtain ⟨hy, -⟩ := List.pairwise_cons.1 htail
  refine ⟨x, y, _, List.getElem?_concat_length, (hunmerged x).2 (by simp), (hunmerged y).2 (by simp),
    hbefore (by simp) (by simp) (hx y (by simp)), fun j hj hjx hjy => ?_⟩
  rw [hunmerged] at hj
  refine hbefore (by simp) hj (hy j ?_)
  simpa [hjx, hjy] using hj

/-- A merge keeps the loop's invariant: what is left of the sorted working set is in the order of R122, and the new node
has the largest index. -/
theorem TreeLoop.Greedy.merge {ft : List FtEntry} (htotal : (ft.map (·.cnt.toNat)).sum < 2 ^ 64) {l : TreeLoop}
    {x y : Nat} {rest : List Nat} (h : l.Greedy ft) (hsort : stableSort l.nodes l.ws = x :: y :: rest) :
    (l.merge x y rest).Greedy ft where
  ok := h.ok.merge htotal hsort
  ties := by
    have hlt : ∀ i ∈ rest, i < l.nodes.length := fun i hi =>
      h.ok.ws_lt ((stableSort_perm l.nodes l.ws).mem_iff.1 (by rw [hsort]; simp [hi]))
    have hrest := (h.sorted hsort).of_cons.of_cons
    refine List.pairwise_append.2 ⟨hrest.imp_of_mem fun {i j} hi hj hij heq => ?_, List.pairwise_singleton _ _,
      fun i hi j hj _ => List.mem_singleton.1 hj ▸ hlt i hi⟩
    rw [TreeLoop.merge, nodeFreq_append (hlt i hi), nodeFreq_append (hlt j hj)] at heq
    simpa [before, heq] using hij
  merges k hge hlt := by
    rw [TreeLoop.merge, List.length_append, List.length_singleton] at hlt
    rcases Nat.lt_succ_iff_lt_or_eq.1 hlt with hlt | rfl
    · exact mergesSmallest_append hlt _ (h.merges k hge hlt)
    · exact h.mergesSmallest_new hsort

theorem buildTree_greedy {p : Params} {ft : List FtEntry} (hp : p.ok = true) (hf : FtOk p ft) :
    (buildTree ft).Greedy ft := by
  have htotal : (ft.map (·.cnt.toNat)).sum < 2 ^ 64 := (sum_cnt_lt hp hf).trans (by decide)
  exact (treeLoop_induct (fun _ _ _ _ h hsort => h.merge htotal hsort) ft.length _ (.init ft) (by simp)).1

/-- Settles O37, by the loop's invariant `TreeLoop.Greedy`. -/
theorem treeBuildMergesTwoSmallest : Obligations.TreeBuildMergesTwoSmallest :=
  fun _ hp hf hne => ⟨_, exec_treeBuild hp hf hne, (buildTree_greedy hp hf).merges⟩

/-! ## The frequencies of the tree (R121) -/

/-- An internal node stands above its children and has the exact sum of their frequencies (R41, R42). -/
theorem internal_ok {nodes : List Node} (h : ∀ i < nodes.length, nodeOk nodes i) {i l r : Nat} {f : Freq}
    (hi : nodes[i]? = some (.internal l r f)) :
    l < i ∧ r < i ∧ f.toNat = (nodeFreq nodes l).toNat + (nodeFreq nodes r).toNat := by
  have hok := h i (List.getElem?_eq_some_iff.1 hi).1
  rwa [nodeOk, hi] at hok

/-- A node that is a child has a parent above it, with no less than its own frequency. -/
theorem exists_parent {nodes : List Node} (h : ∀ i < nodes.length, nodeOk nodes i) {c : Nat}
    (hc : c ∈ nodes.flatMap Node.children) :
    ∃ k, c < k ∧ k < nodes.length ∧ (nodeFreq nodes c).toNat ≤ (nodeFreq nodes k).toNat := by
  obtain ⟨n, hn, hc⟩ := List.mem_flatMap.1 hc
  obtain ⟨k, hk⟩ := List.getElem?_of_mem hn
  cases n with
  | leaf x f => simp [Node.children] at hc
  | internal l r f =>
    obtain ⟨hl, hr, hsum⟩ := internal_ok h hk
    have hfreq : nodeFreq nodes k = f := by rw [nodeFreq, hk]; rfl
    have hlt := (List.getElem?_eq_some_iff.1 hk).1
    rw [← hfreq] at hsum
    obtain rfl | rfl : c = l ∨ c = r := by simpa [Node.children] using hc
    · exact ⟨k, hl, hlt, by omega⟩
    · exact ⟨k, hr, hlt, by omega⟩

/-- Where every node but the last is a child, the last one has the largest frequency: the way from parent to parent ends
there. -/
theorem freq_le_last {nodes : List Node} (h : ∀ i < nodes.length, nodeOk nodes i)
    (hchild : ∀ c, c + 1 < nodes.length → c ∈ nodes.flatMap Node.children) (i : Nat) :
    (nodeFreq nodes i).toNat ≤ (nodeFreq nodes (nodes.length - 1)).toNat := by
  rcases Nat.lt_trichotomy (i + 1) nodes.length with hi | hi | hi
  · obtain ⟨k, hik, hk, hle⟩ := exists_parent h (hchild i hi)
    exact hle.trans (freq_le_last h hchild k)
  · rw [← hi, Nat.add_sub_cancel]
  · simp [nodeFreq, List.getElem?_eq_none (show nodes.length ≤ i by omega)]
termination_by nodes.length - i

/-- In FT's tree no node has a larger frequency than the root. -/
theorem TreeOk.freq_le_root {ft : List FtEntry} {nodes : List Node} {root : Nat} (h : TreeOk ft nodes root) (i : Nat) :
    (nodeFreq nodes i).toNat ≤ (nodeFreq nodes root).toNat := by
  obtain ⟨hpos, hcount, rfl, -, -, hok, hperm⟩ := h
  rw [show 2 * ft.length - 2 = nodes.length - 1 by omega]
  exact freq_le_last hok (fun c hc => hperm.mem_iff.2 (List.mem_range.2 (by omega))) i

/-- The root's frequency is the sum of all counts of FT: the root is all that the working set holds at the end. -/
theorem buildTree_root_freq {p : Params} {ft : List FtEntry} (hp : p.ok = true) (hf : FtOk p ft) (hne : ft ≠ []) :
    (nodeFreq (buildTree ft).nodes (2 * ft.length - 2)).toNat = (ft.map (·.cnt.toNat)).sum := by
  obtain ⟨hok, -⟩ := buildTree_ok hp hf
  obtain ⟨hm, -, -, hroot, -⟩ := buildTree_treeOk hp hf hne
  have hws := hok.wsCount
  obtain ⟨r, hr⟩ := List.length_eq_one_iff.1 (show (buildTree ft).ws.length = 1 by omega)
  have htotal := hok.total
  rw [hr] at hroot htotal
  simpa [← hroot] using htotal

/-- Settles O38: no frequency is above the root's, which is the sum of the counts and so below 2^53. -/
theorem rootFrequencyIsTheTotal : Obligations.RootFrequencyIsTheTotal := by
  intro s hp hf hne
  have htree := buildTree_treeOk_last hp hf hne
  have hroot := buildTree_root_freq hp hf hne
  refine ⟨_, exec_treeBuild hp hf hne, hroot, fun i => ?_, fun i l r f hi => ?_⟩
  · calc (nodeFreq (buildTree s.ft).nodes i).toNat
      _ ≤ (nodeFreq (buildTree s.ft).nodes (2 * s.ft.length - 2)).toNat := htree.freq_le_root i
      _ = (s.ft.map (·.cnt.toNat)).sum := hroot
      _ < 2 ^ 53 := sum_cnt_lt hp hf
  · obtain ⟨-, -, -, -, -, hok, -⟩ := htree
    obtain ⟨-, -, hsum⟩ := internal_ok hok hi
    exact ⟨hsum, hsum ▸ Nat.le_add_right _ _, hsum ▸ Nat.le_add_left _ _⟩

end Sys2Proof.Machine
end

section
/-! PROOFS. CODE_GEN and CT_CLEAR (42_code_table.md R130 to R136): the paths of the tree, the walk that collects them as
codes, and what the code table made of them holds. -/

namespace Sys2Proof.Machine

/-! ## CT_CLEAR, and CODE_GEN without a tree (R134, R130, R136) -/

/-- Settles O31: the empty table has no entry and no len. -/
theorem ctClearEmptiesCt : Obligations.CtClearEmptiesCt :=
  ⟨by decide, fun _ => ⟨_, rfl, rfl, rfl, rfl⟩⟩

/-- Settles O42: CODE_GEN tests TREE_VALID before anything else. -/
theorem codeGenWithoutTree : Obligations.CodeGenWithoutTree := by
  intro s hv
  rw [exec, execCodeGen, if_pos (by simp [hv])]
  rfl

/-- Either outcome of CODE_GEN consumes the tree (R136). -/
theorem noTree_of_exec_codeGen {s t : State} (h : exec .codeGen s = .next t) : t.treeValid = false ∧ t.nodes = [] := by
  obtain ⟨w, hw, hend⟩ := exec_cases (by decide) h
  cases hw with
  | codes => cases hend <;> exact ⟨rfl, rfl⟩
  | ft hi | ct hi => simp at hi
  | dmem hi => cases hi

/-- Settles O45: the second CODE_GEN finds TREE_VALID = 0. -/
theorem codeGenConsumesTheTree : Obligations.CodeGenConsumesTheTree := by
  intro s
  obtain ⟨t, ht⟩ := exec_next .codeGen s
  obtain ⟨hv, hn⟩ := noTree_of_exec_codeGen ht
  exact ⟨t, ht, hv, hn, by simp [State.csrValue, State.nodeN, hv],
    _, codeGenWithoutTree (t.start 0x00000005#32) hv, rfl, rfl⟩

/-! ## Paths (R41, R130) -/

/-- Node i is a leaf. -/
def IsLeaf (nodes : List Node) (i : Nat) : Prop :=
  ∃ x f, nodes[i]? = some (.leaf x f)

/-- Node c is the child of node k that bit b leads to: 0 to the left, 1 to the right. -/
def IsChild (nodes : List Node) (k : Nat) (b : Bool) (c : Nat) : Prop :=
  ∃ l r f, nodes[k]? = some (.internal l r f) ∧ (if b then r else l) = c

theorem follow_leaf {nodes : List Node} {i j : Nat} (h : IsLeaf nodes i) {bits : List Bool} :
    follow nodes i bits = some j ↔ bits = [] ∧ i = j := by
  obtain ⟨x, f, hi⟩ := h
  cases bits <;> simp [follow, hi]

theorem follow_internal {nodes : List Node} {i l r : Nat} {f : Freq} (hi : nodes[i]? = some (.internal l r f)) (b : Bool)
    (bits : List Bool) : follow nodes i (b :: bits) = follow nodes (if b then r else l) bits := by
  rw [follow, hi]

theorem follow_append (nodes : List Node) (i : Nat) (p q : List Bool) :
    follow nodes i (p ++ q) = (follow nodes i p).bind fun j => follow nodes j q := by
  induction p generalizing i with
  | nil => rfl
  | cons b p ih =>
    rw [List.cons_append, follow, follow]
    split
    · exact ih _
    · rfl

/-- The last bit of a path leads from a node to one of its children. -/
theorem follow_snoc {nodes : List Node} {i c : Nat} {p : List Bool} {b : Bool} :
    follow nodes i (p ++ [b]) = some c ↔ ∃ k, follow nodes i p = some k ∧ IsChild nodes k b c := by
  rw [follow_append, Option.bind_eq_some_iff]
  refine exists_congr fun k => and_congr_right fun _ => ?_
  rw [IsChild, follow]
  split
  · rename_i l r f hk
    simp [hk, follow]
  · rename_i hk
    simp only [reduceCtorEq, false_iff]
    rintro ⟨l, r, f, hl, -⟩
    exact hk l r f hl

/-- No path goes on from a leaf. -/
theorem eq_of_prefix_of_leaf {nodes : List Node} {i j k : Nat} {p q : List Bool} (hp : follow nodes i p = some j)
    (hj : IsLeaf nodes j) (hpq : p <+: q) (hq : follow nodes i q = some k) : p = q := by
  obtain ⟨r, rfl⟩ := hpq
  rw [follow_append, hp, Option.bind_some, follow_leaf hj] at hq
  rw [hq.1, List.append_nil]

/-- A bit sequence longer than the index it starts from comes to a leaf, since a path goes down in index. -/
theorem exists_prefix_to_leaf {nodes : List Node} (hok : ∀ i < nodes.length, nodeOk nodes i) {i : Nat}
    (hi : i < nodes.length) {bits : List Bool} (hlong : i < bits.length) :
    ∃ p j, p <+: bits ∧ follow nodes i p = some j ∧ IsLeaf nodes j := by
  induction bits generalizing i with
  | nil => cases hlong
  | cons b bits ih =>
    have hget := List.getElem?_eq_getElem hi
    cases hn : nodes[i] with
    | leaf x f => exact ⟨[], i, List.nil_prefix, rfl, x, f, hn ▸ hget⟩
    | internal l r f =>
      rw [hn] at hget
      obtain ⟨hl, hr, -⟩ := internal_ok hok hget
      have hc : (if b then r else l) < i := by split <;> assumption
      rw [List.length_cons] at hlong
      obtain ⟨p, j, hp, hf, hj⟩ := ih (hc.trans hi) (by omega)
      exact ⟨b :: p, j, List.cons_prefix_cons.2 ⟨rfl, hp⟩, by rw [follow_internal hget, hf], hj⟩

theorem IsChild.mem_children {nodes : List Node} {k c : Nat} {b : Bool} (h : IsChild nodes k b c) :
    ∃ n, nodes[k]? = some n ∧ c ∈ n.children := by
  obtain ⟨l, r, f, hk, rfl⟩ := h
  exact ⟨_, hk, by cases b <;> simp [Node.children]⟩

theorem exists_isChild {nodes : List Node} {c : Nat} (h : c ∈ nodes.flatMap Node.children) :
    ∃ k b, IsChild nodes k b c := by
  obtain ⟨n, hn, hc⟩ := List.mem_flatMap.1 h
  obtain ⟨k, hk⟩ := List.getElem?_of_mem hn
  cases n with
  | leaf x f => simp [Node.children] at hc
  | internal l r f =>
    obtain rfl | rfl : c = l ∨ c = r := by simpa [Node.children] using hc
    · exact ⟨k, false, c, r, f, hk, rfl⟩
    · exact ⟨k, true, l, c, f, hk, rfl⟩

/-- Where no node stands twice among the children, a node has one parent, on one side. -/
theorem IsChild.unique {nodes : List Node} (hnodup : (nodes.flatMap Node.children).Nodup) {k k' c : Nat} {b b' : Bool}
    (h : IsChild nodes k b c) (h' : IsChild nodes k' b' c) : k = k' ∧ b = b' := by
  obtain ⟨hsides, hapart⟩ := List.nodup_flatMap.1 hnodup
  have hparent : k = k' := by
    obtain ⟨n, hn, hc⟩ := h.mem_children
    obtain ⟨n', hn', hc'⟩ := h'.mem_children
    obtain ⟨hk, rfl⟩ := List.getElem?_eq_some_iff.1 hn
    obtain ⟨hk', rfl⟩ := List.getElem?_eq_some_iff.1 hn'
    rcases Nat.lt_trichotomy k k' with hlt | heq | hgt
    · exact (List.pairwise_iff_getElem.1 hapart k k' hk hk' hlt hc hc').elim
    · exact heq
    · exact (List.pairwise_iff_getElem.1 hapart k' k hk' hk hgt hc' hc).elim
  subst hparent
  obtain ⟨l, r, f, hk, hc⟩ := h
  obtain ⟨l', r', f', hk', hc'⟩ := h'
  obtain ⟨rfl, rfl, rfl⟩ : l = l' ∧ r = r' ∧ f = f' := by simpa [hk] using hk'
  have hlr : l ≠ r := by simpa [Node.children] using hsides _ (List.mem_of_getElem? hk)
  refine ⟨rfl, ?_⟩
  match b, b' with
  | false, false | true, true => rfl
  | false, true => exact absurd (hc.trans hc'.symm) hlr
  | true, false => exact absurd (hc'.trans hc.symm) hlr

/-! ## The paths of FT's tree -/

section
variable {ft : List FtEntry} {nodes : List Node} {root : Nat} (h : TreeOk ft nodes root)
include h

/-- The first N nodes are the leaves (R41). -/
theorem TreeOk.isLeaf_iff {i : Nat} : IsLeaf nodes i ↔ i < ft.length := by
  obtain ⟨-, -, -, hleaves, hinternal, -⟩ := h
  constructor
  · rintro ⟨x, f, hi⟩
    by_contra hge
    refine hinternal (.leaf x f) (List.mem_of_getElem? (i := i - ft.length) ?_) rfl
    rw [List.getElem?_drop, ← hi]
    congr 1
    omega
  · intro hi
    have hget : (leavesOf ft)[i]? = nodes[i]? := by rw [← hleaves, List.getElem?_take_of_lt hi]
    exact ⟨_, _, by rw [← hget, leavesOf, List.getElem?_map, List.getElem?_eq_getElem hi]; rfl⟩

/-- How CODE_GEN counts the leaves (R130). -/
theorem TreeOk.leafCount : (nodes.length + 1) / 2 = ft.length := by
  obtain ⟨hpos, hcount, -⟩ := h
  omega

theorem TreeOk.root_lt : root < nodes.length := by
  obtain ⟨hpos, hcount, hroot, -⟩ := h
  omega

theorem TreeOk.nodesOk : ∀ i < nodes.length, nodeOk nodes i := by
  obtain ⟨-, -, -, -, -, hok, -⟩ := h
  exact hok

/-- A path leads to every node: the one to its parent, and a bit more. -/
theorem TreeOk.exists_path {c : Nat} (hc : c < nodes.length) : ∃ bits, follow nodes root bits = some c := by
  have ⟨hpos, hcount, hroot, _, _, _, hperm⟩ := h
  rcases Nat.lt_or_ge c (nodes.length - 1) with hlt | hge
  · obtain ⟨k, b, hchild⟩ := exists_isChild (hperm.mem_iff.2 (List.mem_range.2 hlt))
    have ⟨l, r, f, hk, hside⟩ := hchild
    obtain ⟨hl, hr, -⟩ := internal_ok h.nodesOk hk
    have hck : c < k := by cases b <;> simp at hside <;> omega
    have hkn : k < nodes.length := (List.getElem?_eq_some_iff.1 hk).1
    obtain ⟨p, hp⟩ := TreeOk.exists_path hkn
    exact ⟨p ++ [b], follow_snoc.2 ⟨k, hp, hchild⟩⟩
  · exact ⟨[], congrArg some (by omega)⟩
termination_by nodes.length - c

/-- The root is no child, and no node is a child twice, so only one path leads to a node. -/
theorem TreeOk.path_unique {p q : List Bool} {c : Nat} (hp : follow nodes root p = some c)
    (hq : follow nodes root q = some c) : p = q := by
  obtain ⟨-, hcount, hroot, -, -, -, hperm⟩ := h
  have hnoparent (k : Nat) (b : Bool) : ¬ IsChild nodes k b root := fun hc => by
    obtain ⟨n, hn, hmem⟩ := hc.mem_children
    have := List.mem_range.1 (hperm.mem_iff.1 (List.mem_flatMap.2 ⟨n, List.mem_of_getElem? hn, hmem⟩))
    omega
  induction p using List.reverseRecOn generalizing q c with
  | nil =>
    cases hp
    cases q using List.reverseRecOn with
    | nil => rfl
    | append_singleton q b =>
      obtain ⟨k, -, hc⟩ := follow_snoc.1 hq
      exact absurd hc (hnoparent k b)
  | append_singleton p b ih =>
    obtain ⟨k, hpk, hc⟩ := follow_snoc.1 hp
    cases q using List.reverseRecOn with
    | nil =>
      cases hq
      exact absurd hc (hnoparent k b)
    | append_singleton q b' =>
      obtain ⟨k', hqk, hc'⟩ := follow_snoc.1 hq
      obtain ⟨rfl, rfl⟩ := hc.unique (hperm.nodup_iff.2 List.nodup_range) hc'
      rw [ih hpk hqk]

end

/-! ## The walk (R130) -/

/-- What the walk records of the leaf that a path leads to. -/
def LeafCode.ofPath (leaf : Nat) (bits : List Bool) : LeafCode := ⟨leaf, bitsNat bits, bits.length⟩

theorem walk_leaf {nodes : List Node} {i : Nat} (hi : IsLeaf nodes i) (fuel : Nat) (pre : List Bool) :
    walk nodes (fuel + 1) i (bitsNat pre) pre.length = [.ofPath i pre] := by
  obtain ⟨x, f, hi⟩ := hi
  rw [walk, hi]
  rfl

/-- At an internal node the walk appends to the path what it follows: 0 to the left, 1 to the right. -/
theorem walk_internal {nodes : List Node} {i l r : Nat} {f : Freq} (hi : nodes[i]? = some (.internal l r f)) (fuel : Nat)
    (pre : List Bool) :
    walk nodes (fuel + 1) i (bitsNat pre) pre.length =
      walk nodes fuel l (bitsNat (pre ++ [false])) (pre ++ [false]).length ++
        walk nodes fuel r (bitsNat (pre ++ [true])) (pre ++ [true]).length := by
  simp [walk, hi, bitsNat_snoc]

/-- The walk from a node runs out of nodes before it runs out of fuel. -/
inductive WalkEnds (nodes : List Node) : (fuel i : Nat) → Prop
  | leaf {fuel i : Nat} (hi : IsLeaf nodes i) : WalkEnds nodes (fuel + 1) i
  | internal {fuel i l r : Nat} {f : Freq} (hi : nodes[i]? = some (.internal l r f)) (left : WalkEnds nodes fuel l)
      (right : WalkEnds nodes fuel r) : WalkEnds nodes (fuel + 1) i

/-- A child's index is below its parent's (R41), so fuel above the index is enough. -/
theorem walkEnds_of_lt {nodes : List Node} (hok : ∀ i < nodes.length, nodeOk nodes i) {fuel i : Nat} (hfuel : i < fuel)
    (hi : i < nodes.length) : WalkEnds nodes fuel i := by
  induction fuel generalizing i with
  | zero => cases hfuel
  | succ fuel ih =>
    have hget := List.getElem?_eq_getElem hi
    cases hn : nodes[i] with
    | leaf x f => exact .leaf ⟨x, f, hn ▸ hget⟩
    | internal l r f =>
      rw [hn] at hget
      obtain ⟨hl, hr, -⟩ := internal_ok hok hget
      exact .internal hget (ih (by omega) (hl.trans hi)) (ih (by omega) (hr.trans hi))

section
variable {nodes : List Node} {fuel i : Nat} (hends : WalkEnds nodes fuel i) (pre : List Bool)
include hends

/-- The walk meets exactly the leaves below its node, and records of each the path to it. -/
theorem mem_walk {c : LeafCode} :
    c ∈ walk nodes fuel i (bitsNat pre) pre.length ↔
      ∃ j bits, follow nodes i bits = some j ∧ IsLeaf nodes j ∧ c = .ofPath j (pre ++ bits) := by
  induction hends generalizing pre with
  | @leaf _ i hi =>
    simp only [walk_leaf hi, List.mem_singleton, follow_leaf hi]
    constructor
    · rintro rfl
      exact ⟨i, [], ⟨rfl, rfl⟩, hi, by simp⟩
    · rintro ⟨j, bits, ⟨rfl, rfl⟩, -, rfl⟩
      simp
  | internal hi _ _ ihl ihr =>
    rw [walk_internal hi, List.mem_append, ihl, ihr]
    constructor
    · rintro (⟨j, bits, hf, hj, rfl⟩ | ⟨j, bits, hf, hj, rfl⟩)
      · exact ⟨j, false :: bits, by simpa [follow_internal hi] using hf, hj, by simp⟩
      · exact ⟨j, true :: bits, by simpa [follow_internal hi] using hf, hj, by simp⟩
    · rintro ⟨j, bits, hf, hj, rfl⟩
      match bits with
      | [] =>
        cases hf
        obtain ⟨x, g, hx⟩ := hj
        cases hi.symm.trans hx
      | false :: bits => exact .inl ⟨j, bits, by simpa [follow_internal hi] using hf, hj, by simp⟩
      | true :: bits => exact .inr ⟨j, bits, by simpa [follow_internal hi] using hf, hj, by simp⟩

/-- Where no two paths from a node lead to one leaf, the walk meets no leaf twice. -/
theorem nodup_walk (hunique : ∀ p q j, follow nodes i p = some j → follow nodes i q = some j → p = q) :
    ((walk nodes fuel i (bitsNat pre) pre.length).map (·.leaf)).Nodup := by
  induction hends generalizing pre with
  | leaf hi => simp [walk_leaf hi]
  | @internal _ i l r f hi hl hr ihl ihr =>
    have hcons {b b' : Bool} {p q : List Bool} {j : Nat} (hp : follow nodes (if b then r else l) p = some j)
        (hq : follow nodes (if b' then r else l) q = some j) : b :: p = b' :: q :=
      hunique _ _ j (by rwa [follow_internal hi]) (by rwa [follow_internal hi])
    rw [walk_internal hi, List.map_append]
    refine List.nodup_append.2 ⟨ihl _ fun p q j hp hq => (List.cons.inj (hcons (b := false) (b' := false) hp hq)).2,
      ihr _ fun p q j hp hq => (List.cons.inj (hcons (b := true) (b' := true) hp hq)).2, fun j hj k hk hjk => ?_⟩
    obtain ⟨c, hc, rfl⟩ := List.mem_map.1 hj
    obtain ⟨d, hd, rfl⟩ := List.mem_map.1 hk
    obtain ⟨j, p, hp, -, rfl⟩ := (mem_walk hl _).1 hc
    obtain ⟨k, q, hq, -, rfl⟩ := (mem_walk hr _).1 hd
    obtain rfl : j = k := hjk
    cases hcons (b := false) (b' := true) hp hq

/-- The leaves below a node share out its part of the code space: a leaf n levels deep has 2^-n of the whole (R135). -/
theorem sum_walk {depth : Nat} (hdepth : ∀ c ∈ walk nodes fuel i (bitsNat pre) pre.length, c.depth ≤ depth) :
    pre.length ≤ depth ∧
      ((walk nodes fuel i (bitsNat pre) pre.length).map fun c => 2 ^ (depth - c.depth)).sum =
        2 ^ (depth - pre.length) := by
  induction hends generalizing pre with
  | leaf hi => simpa [walk_leaf hi, LeafCode.ofPath] using hdepth
  | internal hi _ _ ihl ihr =>
    rw [walk_internal hi] at hdepth ⊢
    obtain ⟨hle, hsuml⟩ := ihl _ fun c hc => hdepth c (List.mem_append_left _ hc)
    obtain ⟨-, hsumr⟩ := ihr _ fun c hc => hdepth c (List.mem_append_right _ hc)
    simp only [List.length_append, List.length_singleton] at hle hsuml hsumr ⊢
    refine ⟨by omega, ?_⟩
    rw [List.map_append, List.sum_append, hsuml, hsumr, ← two_mul, ← pow_succ']
    congr 1
    omega

end

/-! ## The codes of FT's tree (R130, R132) -/

theorem codeOf_of_mem {codes : List LeafCode} {c : LeafCode} (hc : c ∈ codes)
    (hunique : ∀ d ∈ codes, d.leaf = c.leaf → d = c) : codeOf codes c.leaf = c := by
  obtain ⟨d, hd⟩ := Option.isSome_iff_exists.1
    (List.find?_isSome (p := fun d => decide (d.leaf = c.leaf)).2 ⟨c, hc, decide_eq_true rfl⟩)
  rw [codeOf, hd, Option.getD_some]
  exact hunique d (List.mem_of_find?_eq_some hd) (by simpa using List.find?_some hd)

section
variable {ft : List FtEntry} {nodes : List Node} {root : Nat} (h : TreeOk ft nodes root) (h2 : 2 ≤ ft.length)
include h

theorem TreeOk.walkEnds_root : WalkEnds nodes nodes.length root :=
  walkEnds_of_lt h.nodesOk h.root_lt h.root_lt

include h2

/-- With two symbols or more the root is no leaf, so the codes are the walk's. -/
theorem TreeOk.leafCodes_eq_walk :
    leafCodes nodes root = walk nodes nodes.length root (bitsNat []) ([] : List Bool).length := by
  unfold leafCodes
  split
  · rename_i x f hleaf
    have hlt := h.isLeaf_iff.1 ⟨x, f, hleaf⟩
    obtain ⟨-, -, hroot, -⟩ := h
    omega
  · rfl

theorem TreeOk.mem_leafCodes {c : LeafCode} :
    c ∈ leafCodes nodes root ↔ ∃ i bits, follow nodes root bits = some i ∧ i < ft.length ∧ c = .ofPath i bits := by
  rw [h.leafCodes_eq_walk h2, mem_walk h.walkEnds_root]
  simp only [h.isLeaf_iff, List.nil_append]

/-- The code of a leaf is the path that leads to it. -/
theorem TreeOk.codeOf_leafCodes {i : Nat} (hi : i < ft.length) {bits : List Bool}
    (hf : follow nodes root bits = some i) : codeOf (leafCodes nodes root) i = .ofPath i bits := by
  refine codeOf_of_mem (c := .ofPath i bits) ((h.mem_leafCodes h2).2 ⟨i, bits, hf, hi, rfl⟩) fun d hd hleaf => ?_
  obtain ⟨j, bits', hf', -, rfl⟩ := (h.mem_leafCodes h2).1 hd
  obtain rfl : j = i := hleaf
  rw [h.path_unique hf hf']

theorem TreeOk.exists_path_code {i : Nat} (hi : i < ft.length) :
    ∃ bits, follow nodes root bits = some i ∧ codeOf (leafCodes nodes root) i = .ofPath i bits := by
  obtain ⟨bits, hf⟩ := h.exists_path (c := i) (by obtain ⟨-, hcount, -⟩ := h; omega)
  exact ⟨bits, hf, h.codeOf_leafCodes h2 hi hf⟩

theorem TreeOk.firstTooLong_of_pathsFit (hfit : pathsFit nodes root ft.length) :
    firstTooLong (leafCodes nodes root) ft.length = none := by
  refine List.find?_eq_none.2 fun i hi => ?_
  rw [List.mem_range] at hi
  obtain ⟨bits, hf, hcode⟩ := h.exists_path_code h2 hi
  simpa [hcode, LeafCode.ofPath] using hfit bits i hf hi

theorem TreeOk.firstTooLong_of_path {i : Nat} (hi : i < ft.length) {bits : List Bool}
    (hf : follow nodes root bits = some i) (hlong : Config.maxCodeLen < bits.length)
    (hbefore : ∀ bits j, follow nodes root bits = some j → j < i → bits.length ≤ Config.maxCodeLen) :
    firstTooLong (leafCodes nodes root) ft.length = some i := by
  refine List.find?_range_eq_some.2 ⟨?_, List.mem_range.2 hi, fun j hj => ?_⟩
  · simpa [h.codeOf_leafCodes h2 hi hf, LeafCode.ofPath] using hlong
  · obtain ⟨bits', hf', hcode⟩ := h.exists_path_code h2 (hj.trans hi)
    simpa [hcode, LeafCode.ofPath] using hbefore bits' j hf' hj

/-- The leaves' shares of the code space make up the whole of it (R135). -/
theorem TreeOk.sum_leafCodes {depth : Nat} (hdepth : ∀ c ∈ leafCodes nodes root, c.depth ≤ depth) :
    ((leafCodes nodes root).map fun c => 2 ^ (depth - c.depth)).sum = 2 ^ depth := by
  rw [h.leafCodes_eq_walk h2] at hdepth ⊢
  exact (sum_walk h.walkEnds_root [] hdepth).2

/-- Leaf by leaf in index order, the codes are those the walk records. -/
theorem TreeOk.perm_leafCodes :
    ((List.range ft.length).map (codeOf (leafCodes nodes root))).Perm (leafCodes nodes root) := by
  have hnodup : ((leafCodes nodes root).map (·.leaf)).Nodup := by
    rw [h.leafCodes_eq_walk h2]
    exact nodup_walk h.walkEnds_root [] fun _ _ _ => h.path_unique
  have hleaves : ((leafCodes nodes root).map (·.leaf)).Perm (List.range ft.length) := by
    refine (List.perm_ext_iff_of_nodup hnodup List.nodup_range).2 fun i => ?_
    rw [List.mem_map, List.mem_range]
    constructor
    · rintro ⟨c, hc, rfl⟩
      obtain ⟨i, bits, -, hi, rfl⟩ := (h.mem_leafCodes h2).1 hc
      exact hi
    · intro hi
      obtain ⟨bits, hf, -⟩ := h.exists_path_code h2 hi
      exact ⟨_, (h.mem_leafCodes h2).2 ⟨i, bits, hf, hi, rfl⟩, rfl⟩
  have hcodes : ((leafCodes nodes root).map (·.leaf)).map (codeOf (leafCodes nodes root)) = leafCodes nodes root := by
    rw [List.map_map]
    refine (List.map_congr_left fun c hc => ?_).trans (List.map_id _)
    obtain ⟨i, bits, hf, hi, rfl⟩ := (h.mem_leafCodes h2).1 hc
    exact h.codeOf_leafCodes h2 hi hf
  simpa only [hcodes] using (hleaves.map (codeOf (leafCodes nodes root))).symm

end

/-! ## The table of the paths (R130, R133) -/

/-- Entry i of the table is a code of at least one bit, and its bits lead from the root to node i. -/
def HoldsPaths (nodes : List Node) (root : Nat) (ct : List CtEntry) : Prop :=
  ∀ i e, ct[i]? = some e →
    follow nodes root (codeBits e) = some i ∧ 1 ≤ e.len.toNat ∧ e.value.toNat < 2 ^ e.len.toNat

theorem length_codeTable (nodes : List Node) (codes : List LeafCode) (n : Nat) : (codeTable nodes codes n).length = n := by
  simp [codeTable]

/-- A path the length field holds is written as a code value and a length without loss (R44, R132). -/
theorem codeBits_of_path {e : CtEntry} {bits : List Bool} (hfit : bits.length ≤ Config.maxCodeLen)
    (hvalue : e.value = BitVec.ofNat 255 (bitsNat bits)) (hlen : e.len = BitVec.ofNat 8 bits.length) :
    codeBits e = bits ∧ e.len.toNat = bits.length ∧ e.value.toNat < 2 ^ e.len.toNat := by
  simp only [Config.maxCodeLen] at hfit
  have hl : e.len.toNat = bits.length := by
    rw [hlen, BitVec.toNat_ofNat, Nat.mod_eq_of_lt (by omega)]
  have hlt := bitsNat_lt bits
  have hv : e.value.toNat = bitsNat bits := by
    rw [hvalue, BitVec.toNat_ofNat, Nat.mod_eq_of_lt (hlt.trans_le (Nat.pow_le_pow_right (by decide) hfit))]
  exact ⟨by rw [codeBits, hl, hv, bin_bitsNat], hl, by rwa [hl, hv]⟩

section
variable {ft : List FtEntry} {nodes : List Node} {root : Nat} (h : TreeOk ft nodes root) (h2 : 2 ≤ ft.length)
include h h2

theorem TreeOk.codeTable_holdsPaths (hfit : pathsFit nodes root ft.length) :
    HoldsPaths nodes root (codeTable nodes (leafCodes nodes root) ft.length) := by
  intro i e he
  obtain ⟨hi, rfl⟩ := List.getElem?_eq_some_iff.1 he
  rw [length_codeTable] at hi
  obtain ⟨bits, hf, hcode⟩ := h.exists_path_code h2 hi
  obtain ⟨hbits, hlen, hvalue⟩ := codeBits_of_path (e := (codeTable nodes (leafCodes nodes root) ft.length)[i])
    (hfit bits i hf hi) (by simp [codeTable, hcode, LeafCode.ofPath]) (by simp [codeTable, hcode, LeafCode.ofPath])
  have hne : bits ≠ [] := by
    rintro rfl
    obtain ⟨-, -, hroot, -⟩ := h
    cases hf
    omega
  exact ⟨hbits ▸ hf, hlen ▸ List.length_pos_iff.2 hne, hvalue⟩

/-- The table's code lengths fill the code space (R135). -/
theorem TreeOk.sum_codeTable (hfit : firstTooLong (leafCodes nodes root) ft.length = none) :
    ((codeTable nodes (leafCodes nodes root) ft.length).map fun e => 2 ^ (255 - e.len.toNat)).sum = 2 ^ 255 := by
  have hdepth : ∀ c ∈ leafCodes nodes root, c.depth ≤ 255 := fun c hc => by
    obtain ⟨i, hi, rfl⟩ := List.mem_map.1 ((h.perm_leafCodes h2).mem_iff.2 hc)
    exact depth_le_of_firstTooLong hfit (List.mem_range.1 hi)
  have hlen : (codeTable nodes (leafCodes nodes root) ft.length).map (fun e => 2 ^ (255 - e.len.toNat)) =
      ((List.range ft.length).map (codeOf (leafCodes nodes root))).map fun c => 2 ^ (255 - c.depth) := by
    rw [codeTable, List.map_map, List.map_map]
    refine List.map_congr_left fun i hi => ?_
    have hd := depth_le_of_firstTooLong hfit (List.mem_range.1 hi)
    simp only [Config.maxCodeLen] at hd
    rw [Function.comp_apply, Function.comp_apply, BitVec.toNat_ofNat, Nat.mod_eq_of_lt (by omega)]
  calc ((codeTable nodes (leafCodes nodes root) ft.length).map fun e => 2 ^ (255 - e.len.toNat)).sum
    _ = ((leafCodes nodes root).map fun c => 2 ^ (255 - c.depth)).sum := by
      rw [hlen, ((h.perm_leafCodes h2).map _).sum_eq]
    _ = 2 ^ 255 := h.sum_leafCodes h2 hdepth

end

/-! ## What a table of the paths is (R135) -/

section
variable {ft : List FtEntry} {nodes : List Node} {root : Nat} (h : TreeOk ft nodes root)
  {ct : List CtEntry} (hct : HoldsPaths nodes root ct) (hlen : ct.length = ft.length)
include h hct hlen

/-- No leaf's path goes on to another leaf. -/
theorem TreeOk.index_eq_of_codeBits_prefix {i j : Nat} {e f : CtEntry} (he : ct[i]? = some e) (hf : ct[j]? = some f)
    (hpre : codeBits e <+: codeBits f) : i = j := by
  obtain ⟨hpe, -⟩ := hct i e he
  obtain ⟨hpf, -⟩ := hct j f hf
  have hi := (List.getElem?_eq_some_iff.1 he).1
  have heq := eq_of_prefix_of_leaf hpe (h.isLeaf_iff.2 (hlen ▸ hi)) hpre hpf
  rw [heq, hpf] at hpe
  exact (Option.some.inj hpe).symm

theorem TreeOk.prefixFree : PrefixFree ct := by
  refine List.pairwise_iff_getElem.2 fun i j hi hj hij => ?_
  have hi := List.getElem?_eq_getElem hi
  have hj := List.getElem?_eq_getElem hj
  exact ⟨fun hpre => hij.ne (h.index_eq_of_codeBits_prefix hct hlen hi hj hpre),
    fun hpre => hij.ne' (h.index_eq_of_codeBits_prefix hct hlen hj hi hpre)⟩

/-- A sequence of MAXLEN bits, followed from the root, comes to a leaf, whose code then begins it. -/
theorem TreeOk.exists_code_prefix {bits : List Bool} (hbits : bits.length = maxLen ct) :
    ∃ e ∈ ct, codeBits e <+: bits := by
  obtain ⟨p, j, hp, hf, hj⟩ := exists_prefix_to_leaf h.nodesOk h.root_lt
    (bits := bits ++ List.replicate nodes.length false) (by simpa using Nat.lt_add_left _ h.root_lt)
  have hlt : j < ct.length := hlen ▸ h.isLeaf_iff.1 hj
  obtain ⟨hpath, -⟩ := hct j ct[j] (List.getElem?_eq_getElem hlt)
  have hmem : ct[j] ∈ ct := List.getElem_mem hlt
  rw [h.path_unique hf hpath] at hp
  exact ⟨_, hmem, List.prefix_of_prefix_length_le hp (List.prefix_append _ _)
    (by rw [length_codeBits, hbits]; exact len_le_maxLen hmem)⟩

/-- Of two codes that begin the same bits one begins the other, so only one does. -/
theorem TreeOk.code_prefix_unique {bits : List Bool} {e f : CtEntry} (he : e ∈ ct) (hf : f ∈ ct)
    (hpe : codeBits e <+: bits) (hpf : codeBits f <+: bits) : e = f := by
  obtain ⟨i, hi⟩ := List.getElem?_of_mem he
  obtain ⟨j, hj⟩ := List.getElem?_of_mem hf
  have hij : i = j := by
    rcases List.prefix_or_prefix_of_prefix hpe hpf with hpre | hpre
    · exact h.index_eq_of_codeBits_prefix hct hlen hi hj hpre
    · exact (h.index_eq_of_codeBits_prefix hct hlen hj hi hpre).symm
  rw [hij, hj] at hi
  exact (Option.some.inj hi).symm

end

/-! ## How CODE_GEN ends with a tree (R130, R131, R132) -/

section
variable {s : State} (hv : s.treeValid = true) (h : TreeOk s.ft s.nodes s.root)
include hv h

/-- CODE_GEN where no leaf is too deep. -/
theorem exec_codeGen_of_fit (hfit : firstTooLong (leafCodes s.nodes s.root) s.ft.length = none) :
    exec .codeGen s = .next { s with
      ct := codeTable s.nodes (leafCodes s.nodes s.root) s.ft.length, treeValid := false, nodes := [], root := 0,
      result0 := BitVec.ofNat 32 s.ft.length,
      result1 := BitVec.ofNat 32 (maxLen (codeTable s.nodes (leafCodes s.nodes s.root) s.ft.length)),
      busy := false, done := true, a := Latched.absent } := by
  rw [exec, execCodeGen, if_neg (by simp [hv])]
  simp only [h.leafCount, hfit, length_codeTable]
  rfl

/-- CODE_GEN where leaf i is the first too deep. -/
theorem exec_codeGen_of_tooLong {i : Nat} (hlong : firstTooLong (leafCodes s.nodes s.root) s.ft.length = some i) :
    exec .codeGen s = .next { s with
      ct := [], treeValid := false, nodes := [], root := 0, errcode := .codeTooLong,
      errInfo := BitVec.ofNat 32 i, busy := false, done := true, a := Latched.absent } := by
  rw [exec, execCodeGen, if_neg (by simp [hv])]
  simp only [h.leafCount, hlong]
  rfl

end

/-- Settles O40: each leaf's code is the path to it, and every path fits. -/
theorem codeGenGivesPathCodes : Obligations.CodeGenGivesPathCodes := by
  intro s hv h h2 hfit
  have ⟨_, _, _, hleaves, _⟩ := h
  exact ⟨_, exec_codeGen_of_fit hv h (h.firstTooLong_of_pathsFit h2 hfit), map_sym_codeTable hleaves _,
    h.codeTable_holdsPaths h2 hfit⟩

/-- Settles O43: a path longer than 255 starts from a root that is no leaf, and its leaf is the first that the check
finds. -/
theorem codeGenRefusesLongCodes : Obligations.CodeGenRefusesLongCodes := by
  intro s bits i hv h hf hi hlong hbefore
  have h2 : 2 ≤ s.ft.length := by
    have hle := follow_length h.nodesOk hf
    obtain ⟨-, -, hroot, -⟩ := h
    omega
  exact exec_codeGen_of_tooLong hv h (h.firstTooLong_of_path h2 hi hf hlong hbefore)

/-- The tree of one symbol is its leaf (R131). -/
theorem TreeOk.eq_of_sole {x : Sym} {c : Count} {nodes : List Node} {root : Nat} (h : TreeOk [⟨x, c⟩] nodes root) :
    nodes = [.leaf x (c.setWidth 64)] ∧ root = 0 := by
  obtain ⟨-, hcount, hroot, hleaves, -⟩ := h
  exact ⟨(List.take_of_length_le hcount.le).symm.trans hleaves, hroot⟩

/-- Settles O41: the root is the one leaf, whose code is (0, 1) and not the empty path. -/
theorem soleSymbolGetsCodeZero : Obligations.SoleSymbolGetsCodeZero := by
  intro s x c hv hft h
  obtain ⟨hnodes, hroot⟩ := TreeOk.eq_of_sole (hft ▸ h)
  have hcodes : leafCodes s.nodes s.root = [⟨0, 0, 1⟩] := by rw [hnodes, hroot]; rfl
  have htable : codeTable s.nodes (leafCodes s.nodes s.root) s.ft.length = [⟨x, 0, 1⟩] := by
    rw [hcodes, hnodes, hft]; rfl
  rw [exec_codeGen_of_fit hv h (by rw [hcodes, hft]; rfl), htable, hft]
  rfl

/-- Settles O44. For one symbol the table is that of O41; for more the codes are the paths to the leaves, of which none
goes on from another, and which every long enough sequence follows to an end. -/
theorem generatedCodeIsPrefixFreeAndComplete : Obligations.GeneratedCodeIsPrefixFreeAndComplete := by
  intro s hv h hfit
  rcases Nat.lt_or_ge s.ft.length 2 with h1 | h2
  · have ⟨hpos, _⟩ := h
    obtain ⟨⟨x, c⟩, hft⟩ := List.length_eq_one_iff.1 (show s.ft.length = 1 by omega)
    have hbits : codeBits ⟨x, 0, 1⟩ = [false] := by simp [codeBits, bin]
    refine ⟨_, soleSymbolGetsCodeZero s x c hv hft h, List.pairwise_singleton _ _, fun e he => ?_,
      List.pairwise_singleton _ _, fun h2 => by omega, fun _ e he => ?_⟩
    · rw [List.mem_singleton.1 he]
      simp
    · rw [List.mem_singleton.1 he, hbits]
      decide
  · have hct := h.codeTable_holdsPaths h2 hfit
    have hlen := length_codeTable s.nodes (leafCodes s.nodes s.root) s.ft.length
    have hshort := h.firstTooLong_of_pathsFit h2 hfit
    have hfree := h.prefixFree hct hlen
    refine ⟨_, exec_codeGen_of_fit hv h hshort, hfree, fun e he => ?_, distinct_of_prefixFree hfree,
      fun _ => ⟨h.sum_codeTable h2 hshort, fun bits hbits => ?_⟩, fun h1 => by omega⟩
    · obtain ⟨i, hi⟩ := List.getElem?_of_mem he
      exact (hct i e hi).2
    · obtain ⟨e, he, hpre⟩ := h.exists_code_prefix hct hlen hbits
      exact ⟨e, ⟨he, hpre⟩, fun f ⟨hf, hfpre⟩ => h.code_prefix_unique hct hlen hf he hfpre hpre⟩

end Sys2Proof.Machine
end

section
/-! PROOFS. TABLE_SER (43_table_serializer.md R140 to R142): the whole table and its padding where they fit, the error
at the entry or the padding whose byte does not fit, and what the packer has written by then. -/

namespace Sys2Proof.Machine

/-! ## The packer at the end of a sequence (R68, R69) -/

/-- The padding ends at a byte boundary. -/
theorem length_add_padCount (n : Nat) : n + padCount n = 8 * bytesFor n := by
  simp only [padCount, bytesFor]
  omega

theorem padCount_le (n : Nat) : padCount n ≤ 7 := by
  simp only [padCount]
  omega

/-- A flushed packer wrote the sequence and its padding. -/
theorem bits_packerOf_padded (m : Memory) (a : Latched) {seq bits : List Bool}
    (hseq : seq = bits ++ List.replicate (padCount bits.length) false) :
    Memory.bits (packerOf m a seq).mem a.dst (8 * bytesFor bits.length) = seq ∧
    sameOutside m (packerOf m a seq).mem a.dst (bytesFor bits.length) := by
  have hlen : seq.length = 8 * bytesFor bits.length := by
    rw [hseq, List.length_append, List.length_replicate, length_add_padCount]
  have hout : seq.length / 8 = bytesFor bits.length := by omega
  have hbits := bits_packerOf m a seq
  rw [hout, List.take_of_length_le hlen.le] at hbits
  exact ⟨hbits, hout ▸ sameOutside_packerOf m a seq⟩

/-- A packer stopped at the bit that would complete the first byte that does not fit has written DST_CAP bytes, which
hold the first bits of the sequence. -/
theorem packerOf_stopped (m : Memory) (a : Latched) {seq : List Bool} (h : 8 * a.dstCap.toNat + 7 ≤ seq.length) :
    (packerOf m a (seq.take (8 * a.dstCap.toNat + 7))).out = a.dstCap.toNat ∧
    Memory.bits (packerOf m a (seq.take (8 * a.dstCap.toNat + 7))).mem a.dst (8 * a.dstCap.toNat) =
      seq.take (8 * a.dstCap.toNat) ∧
    sameOutside m (packerOf m a (seq.take (8 * a.dstCap.toNat + 7))).mem a.dst a.dstCap.toNat := by
  have hout : (seq.take (8 * a.dstCap.toNat + 7)).length / 8 = a.dstCap.toNat := by
    rw [List.length_take]
    omega
  have hbits := bits_packerOf m a (seq.take (8 * a.dstCap.toNat + 7))
  rw [hout, List.take_take, Nat.min_eq_left (by omega)] at hbits
  have houtside := sameOutside_packerOf m a (seq.take (8 * a.dstCap.toNat + 7))
  rw [hout] at houtside
  exact ⟨hout, hbits, houtside⟩

/-! ## How TABLE_SER ends (R140) -/

/-- TABLE_SER's loop over the whole of CT, from the packer it starts with. -/
theorem serLoop_ct_fits {s : State} (h : (tableBits s.ct).length / 8 ≤ s.a.dstCap.toNat) :
    serLoop s.a s.ct 0 (Packer.init s.dmem) = .ok (packerOf s.dmem s.a (tableBits s.ct)) :=
  serLoop_fits s.dmem s.a s.ct 0 [] h

/-- Every byte the entries complete fits, and the padding's byte too: TABLE_SER completes (R140, R141). -/
theorem exec_tableSer_fits {s : State} (hr : s.dstInRange = true)
    (h : bytesFor (tableBits s.ct).length ≤ s.a.dstCap.toNat) :
    exec .tableSer s = .next { s with
      dmem := (packerOf s.dmem s.a
        (tableBits s.ct ++ List.replicate (padCount (tableBits s.ct).length) false)).mem,
      result0 := BitVec.ofNat 32 (bytesFor (tableBits s.ct).length), result1 := BitVec.ofNat 32 s.ct.length,
      result2 := BitVec.ofNat 32 (padCount (tableBits s.ct).length) }.complete := by
  have hfit : (tableBits s.ct).length / 8 ≤ s.a.dstCap.toNat := by
    simp only [bytesFor] at h
    omega
  have hout : ((tableBits s.ct).length + padCount (tableBits s.ct).length) / 8 = bytesFor (tableBits s.ct).length := by
    rw [length_add_padCount, Nat.mul_div_cancel_left _ (by decide)]
  simp only [exec, execTableSer, hr, serLoop_ct_fits hfit, flush_packerOf s.dmem s.a _ hfit, if_pos h, packerOf_out,
    packerOf_nbits, List.length_append, List.length_replicate, hout]
  rfl

/-- The padding completes a byte that does not fit: CAPACITY(CT_N). -/
theorem exec_tableSer_of_padding_full {s : State} (hr : s.dstInRange = true)
    (hfit : (tableBits s.ct).length / 8 ≤ s.a.dstCap.toNat)
    (hfull : s.a.dstCap.toNat < bytesFor (tableBits s.ct).length) :
    exec .tableSer s = .next (s.serFail (packerOf s.dmem s.a
      ((tableBits s.ct ++ List.replicate (padCount (tableBits s.ct).length) false).take (8 * s.a.dstCap.toNat + 7)))
      s.ct.length) := by
  simp only [exec, execTableSer, hr, serLoop_ct_fits hfit, flush_packerOf s.dmem s.a _ hfit,
    if_neg (Nat.not_le.2 hfull)]
  rfl

/-- An entry completes a byte that does not fit: CAPACITY of its index. -/
theorem exec_tableSer_of_entry_full {s : State} (hr : s.dstInRange = true) {es fs : List CtEntry} {e : CtEntry}
    (hct : s.ct = es ++ e :: fs) (hfit : (tableBits es).length / 8 ≤ s.a.dstCap.toNat)
    (hfull : s.a.dstCap.toNat < (tableBits es ++ entryBits e).length / 8) :
    exec .tableSer s = .next (s.serFail (packerOf s.dmem s.a
      ((tableBits es ++ entryBits e).take (8 * s.a.dstCap.toNat + 7))) es.length) := by
  have hloop := serLoop_full s.dmem s.a es e fs 0 [] hfit hfull
  rw [← hct, packerOf_nil, Nat.zero_add, List.nil_append] at hloop
  simp only [exec, execTableSer, hr, hloop]
  rfl

theorem tableBits_snoc (es : List CtEntry) (e : CtEntry) : tableBits (es ++ [e]) = tableBits es ++ entryBits e := by
  rw [tableBits_append]
  simp [tableBits]

/-- The entries that complete more than `n` bytes have a first one that completes the byte of index `n`. -/
theorem exists_first_full_entry {n : Nat} {ct : List CtEntry} (h : n < (tableBits ct).length / 8) :
    ∃ es e fs, ct = es ++ e :: fs ∧ (tableBits es).length / 8 ≤ n ∧ n < (tableBits es ++ entryBits e).length / 8 := by
  induction ct using List.reverseRecOn with
  | nil => exact absurd h (Nat.not_lt_zero n)
  | append_singleton ct e ih =>
    rcases Nat.lt_or_ge n ((tableBits ct).length / 8) with hbefore | hfit
    · obtain ⟨es, f, fs, rfl, hf⟩ := ih hbefore
      exact ⟨es, f, fs ++ [e], by simp, hf⟩
    · rw [tableBits_snoc] at h
      exact ⟨ct, e, [], rfl, hfit, h⟩

/-- TABLE_SER's error state (R140, R68), the packer having stopped within a sequence that begins as the table does. -/
theorem tableSer_stops_of_serFail {s : State} {seq : List Bool} {j : Nat}
    (h : exec .tableSer s = .next (s.serFail (packerOf s.dmem s.a (seq.take (8 * s.a.dstCap.toNat + 7))) j))
    (hlen : 8 * s.a.dstCap.toNat + 7 ≤ seq.length)
    (hseq : seq.take (8 * s.a.dstCap.toNat) = (tableBits s.ct).take (8 * s.a.dstCap.toNat)) :
    ∃ m, exec .tableSer s = .next { s with
        dmem := m, result0 := s.a.dstCap, result1 := BitVec.ofNat 32 j, result2 := 0, errcode := .capacity,
        errInfo := BitVec.ofNat 32 j, busy := false, done := true, a := Latched.absent } ∧
      Memory.bits m s.a.dst (8 * s.a.dstCap.toNat) = (tableBits s.ct).take (8 * s.a.dstCap.toNat) ∧
      sameOutside s.dmem m s.a.dst s.a.dstCap.toNat := by
  obtain ⟨hout, hbits, houtside⟩ := packerOf_stopped s.dmem s.a hlen
  refine ⟨_, ?_, hbits.trans hseq, houtside⟩
  rw [h, State.serFail, hout, BitVec.ofNat_toNat, BitVec.setWidth_eq]
  rfl

/-! ## The whole table, and the region that is too small (R140 to R142) -/

/-- Settles O46: the packer emits the table and its padding, which make whole bytes. -/
theorem tableSerWritesPaddedEntries : Obligations.TableSerWritesPaddedEntries := by
  intro s hr h
  obtain ⟨hbits, houtside⟩ := bits_packerOf_padded s.dmem s.a (bits := tableBits s.ct) rfl
  exact ⟨_, exec_tableSer_fits hr h, hbits, padCount_le _, houtside⟩

/-- Settles O47. Where the entries complete only bytes that fit, the padding is what does not; otherwise the first entry
that completes a byte too many. -/
theorem tableSerStopsAtCapacity : Obligations.TableSerStopsAtCapacity := by
  intro s hr h
  rcases Nat.lt_or_ge s.a.dstCap.toNat ((tableBits s.ct).length / 8) with hentry | hfit
  · obtain ⟨es, e, fs, hct, hes, he⟩ := exists_first_full_entry hentry
    have hbits : tableBits s.ct = (tableBits es ++ entryBits e) ++ tableBits fs := by
      rw [hct, tableBits_append, tableBits_cons, List.append_assoc]
    have hbefore : s.ct.take es.length = es := by rw [hct, List.take_left]
    have hthrough : tableBits (s.ct.take (es.length + 1)) = tableBits es ++ entryBits e := by
      rw [hct, List.take_length_add_append, List.take_succ_cons, List.take_zero, tableBits_snoc]
    obtain ⟨m, hexec, hm, houtside⟩ := tableSer_stops_of_serFail (exec_tableSer_of_entry_full hr hct hes he) (by omega)
      (by rw [hbits]; exact (List.take_append_of_le_length (by omega)).symm)
    refine ⟨es.length, m, hexec, by simp [hct], ?_, fun _ => ?_, hm, houtside⟩
    · rw [hbefore]
      omega
    · rw [hthrough]
      omega
  · have hpadded := length_add_padCount (tableBits s.ct).length
    have hlen : (tableBits s.ct).length ≤ 8 * s.a.dstCap.toNat + 7 ∧
        8 * s.a.dstCap.toNat < (tableBits s.ct).length := by
      simp only [bytesFor] at h
      omega
    obtain ⟨m, hexec, hm, houtside⟩ := tableSer_stops_of_serFail (exec_tableSer_of_padding_full hr hfit h)
      (by rw [List.length_append, List.length_replicate]; omega) (List.take_append_of_le_length (by omega))
    refine ⟨s.ct.length, m, hexec, le_rfl, ?_, fun hj => absurd hj (lt_irrefl _), hm, houtside⟩
    rw [List.take_length]
    exact hlen.1

end Sys2Proof.Machine
end

section
/-! PROOFS. TABLE_DESER (44_table_deserializer.md R150 to R156): the table its entries insert, the error at the first
entry that fails, and what it reads of the bytes TABLE_SER wrote. -/

namespace Sys2Proof.Machine

/-! ## The table of a list of entries (R153) -/

/-- Entries whose symbols are new and distinct are appended in their order (R153). -/
theorem foldl_mapPut_of_nodup {t es : List CtEntry} (h : ((t ++ es).map (·.sym)).Nodup) :
    es.foldl mapPut t = t ++ es := by
  induction es generalizing t with
  | nil => simp
  | cons e es ih =>
    have hnew : e.sym ∉ t.map (·.sym) := fun hmem => by
      rw [List.map_append, List.map_cons] at h
      exact (List.nodup_append.1 h).2.2 _ hmem _ List.mem_cons_self rfl
    have hput : mapPut t e = t ++ [e] := if_neg hnew
    rw [List.append_cons] at h ⊢
    rw [List.foldl_cons, hput, ih h]

/-- The table of a list of entries holds each of their symbols once. -/
theorem foldl_mapPut_syms (es : List CtEntry) :
    ((es.foldl mapPut []).map (·.sym)).Nodup ∧
    ∀ x, x ∈ (es.foldl mapPut []).map (·.sym) ↔ x ∈ es.map (·.sym) := by
  induction es using List.reverseRecOn with
  | nil => simp
  | append_singleton es e ih =>
    obtain ⟨hnodup, hsyms⟩ := ih
    rw [List.foldl_append, List.foldl_cons, List.foldl_nil]
    refine ⟨?_, fun x => by rw [mem_mapPut_syms, hsyms, List.map_append]; simp [or_comm]⟩
    rw [map_sym_mapPut]
    split
    · exact hnodup
    · rename_i hnew
      exact hnodup.append (List.nodup_singleton _) (by simpa using hnew)

theorem length_foldl_mapPut (es : List CtEntry) : (es.foldl mapPut []).length = (es.map (·.sym)).dedup.length := by
  obtain ⟨hnodup, hsyms⟩ := foldl_mapPut_syms es
  have hperm := (List.perm_ext_iff_of_nodup hnodup (es.map (·.sym)).nodup_dedup).2 fun x => by
    rw [hsyms, List.mem_dedup]
  simpa only [List.length_map] using hperm.length_eq

/-- The insert into the table of a list of entries is refused exactly for a new symbol of a full table (R150). -/
theorem ctPut_foldl_mapPut (n : Nat) (es : List CtEntry) (e : CtEntry) :
    ctPut n (es.foldl mapPut []) e =
      if e.sym ∉ es.map (·.sym) ∧ (es.map (·.sym)).dedup.length = n then none
      else some ((es ++ [e]).foldl mapPut []) := by
  obtain ⟨hnodup, hsyms⟩ := foldl_mapPut_syms es
  simp only [ctPut_eq n hnodup, hsyms, length_foldl_mapPut, List.foldl_append, List.foldl_cons, List.foldl_nil]

/-! ## One entry (R150, R152) -/

/-- What TABLE_DESER asks of an entry it reads (R150). -/
abbrev entryOk (e : CtEntry) : Prop :=
  isScalar e.sym.toNat = true ∧ e.value.toNat < 2 ^ e.len.toNat

theorem readEntry_of_bad_lead {bs : List Bool} {lead : Byte} (hlead : bs.take 8 = byteBits lead)
    (hbad : utf8Len lead = none) : readEntry bs = .invalid := by
  rw [readEntry, hlead, ofBits_byteBits, hbad]

theorem readEntry_of_short_sequence {bs : List Bool} {lead : Byte} {n : Nat} (hlead : bs.take 8 = byteBits lead)
    (hn : utf8Len lead = some n) (hshort : bs.length < 8 * n) : readEntry bs = .truncated := by
  rw [readEntry, hlead, ofBits_byteBits, hn]
  exact if_pos hshort

theorem eight_le_length_of_take {bs : List Bool} {b : Byte} (h : bs.take 8 = byteBits b) : 8 ≤ bs.length := by
  have hlen := congrArg List.length h
  rw [List.length_take, length_byteBits] at hlen
  omega

theorem eight_le_length_symbolBits (x : Sym) : 8 ≤ ((utf8Encode x).flatMap byteBits).length := by
  have := utf8Encode_length_pos x
  rw [length_flatMap_byteBits]
  omega

/-- The first eight bits of a sequence of bytes are its lead byte's. -/
theorem exists_lead_of_sequence {u : List Byte} {n : Nat} (hlead : u.head?.bind utf8Len = some n) (tail : List Bool) :
    ∃ lead, (u.flatMap byteBits ++ tail).take 8 = byteBits lead ∧ utf8Len lead = some n := by
  cases u with
  | nil => cases hlead
  | cons b u =>
    refine ⟨b, ?_, hlead⟩
    rw [List.flatMap_cons, List.append_assoc, List.take_left' (length_byteBits b)]

theorem sequence_not_short (u : List Byte) (tail : List Bool) :
    ¬ (u.flatMap byteBits ++ tail).length < 8 * u.length := by
  rw [List.length_append, length_flatMap_byteBits]
  omega

theorem readEntry_of_bad_sequence {u : List Byte} (hlead : u.head?.bind utf8Len = some u.length)
    (hbad : utf8Decode u = none) (tail : List Bool) : readEntry (u.flatMap byteBits ++ tail) = .invalid := by
  obtain ⟨lead, htake, hlen⟩ := exists_lead_of_sequence hlead tail
  rw [readEntry, htake, ofBits_byteBits, hlen]
  simp only [if_neg (sequence_not_short _ _), bytesOfBits_flatMap, hbad]

/-- What follows the symbol of an entry (R150): the length byte and the code value, each cut where too few bits remain
(R152). -/
theorem readEntry_symbol {x : Sym} (hx : isScalar x.toNat = true) (atLen : List Bool) :
    readEntry ((utf8Encode x).flatMap byteBits ++ atLen) =
      if atLen.length < 8 then .truncated
      else if atLen.length - 8 < bitsNat (atLen.take 8) then .truncated
      else .entry ⟨x, BitVec.ofNat 255 (bitsNat ((atLen.drop 8).take (bitsNat (atLen.take 8)))),
          BitVec.ofNat 8 (bitsNat (atLen.take 8))⟩
        (8 * (utf8Encode x).length + 8 + bitsNat (atLen.take 8)) := by
  obtain ⟨⟨b, bs, hb, hlen⟩, hdecode⟩ := utf8_roundtrip x hx
  have hlead : (utf8Encode x).head?.bind utf8Len = some (utf8Encode x).length := by rw [← hlen, hb]; rfl
  obtain ⟨lead, htake, hlen⟩ := exists_lead_of_sequence hlead atLen
  rw [readEntry, htake, ofBits_byteBits, hlen]
  simp only [if_neg (sequence_not_short _ _), bytesOfBits_flatMap, hdecode,
    List.drop_left' (length_flatMap_byteBits _), List.length_drop]

theorem entryBits_append (e : CtEntry) (tail : List Bool) :
    entryBits e ++ tail =
      (utf8Encode e.sym).flatMap byteBits ++ (bin 8 e.len.toNat ++ (bin e.len.toNat e.value.toNat ++ tail)) := by
  simp only [entryBits, List.append_assoc]

/-- The entry read of an entry's bits has its symbol, also where the value does not fit the length. -/
theorem readEntry_entryBits_sym {e : CtEntry} (hs : isScalar e.sym.toNat = true) (tail : List Bool) :
    ∃ f bits, readEntry (entryBits e ++ tail) = .entry f bits ∧ f.sym = e.sym := by
  have hlen : bitsNat (bin 8 e.len.toNat) = e.len.toNat := bitsNat_byteBits e.len
  have hroom : ¬ 8 + (e.len.toNat + tail.length) - 8 < e.len.toNat := by omega
  rw [entryBits_append, readEntry_symbol hs]
  simp only [List.length_append, length_bin, List.take_left' (length_bin 8 _), hlen, if_neg hroom,
    if_neg (show ¬ 8 + (e.len.toNat + tail.length) < 8 by omega)]
  exact ⟨_, _, rfl, rfl⟩

/-- An entry cut in its length byte. -/
theorem readEntry_of_short_length {x : Sym} (hx : isScalar x.toNat = true) {tail : List Bool} (h : tail.length < 8) :
    readEntry ((utf8Encode x).flatMap byteBits ++ tail) = .truncated := by
  rw [readEntry_symbol hx, if_pos h]

/-- An entry cut in its code value. -/
theorem readEntry_of_short_value {x : Sym} (hx : isScalar x.toNat = true) {len : Nat} (hlen : len ≤ 255)
    {tail : List Bool} (h : tail.length < len) :
    readEntry ((utf8Encode x).flatMap byteBits ++ bin 8 len ++ tail) = .truncated := by
  have hmod : len % 2 ^ 8 = len := Nat.mod_eq_of_lt (by omega)
  rw [List.append_assoc, readEntry_symbol hx, List.take_left' (length_bin 8 _), bitsNat_bin, hmod, List.length_append,
    length_bin, if_neg (by omega), if_pos (by omega)]

/-- An entry cut anywhere after its symbol (R156): in the length byte, or in the code value. -/
theorem readEntry_cut_entry {e : CtEntry} (hs : isScalar e.sym.toNat = true) {k : Nat}
    (hsym : 8 * (utf8Encode e.sym).length ≤ k) (hcut : k < (entryBits e).length) :
    readEntry ((entryBits e).take k) = .truncated := by
  obtain ⟨j, rfl⟩ := Nat.exists_eq_add_of_le hsym
  rw [length_entryBits] at hcut
  have hparts : (entryBits e).take (8 * (utf8Encode e.sym).length + j) = (utf8Encode e.sym).flatMap byteBits ++
      (bin 8 e.len.toNat ++ bin e.len.toNat e.value.toNat).take j := by
    rw [entryBits, List.append_assoc, ← length_flatMap_byteBits, List.take_length_add_append]
  rw [hparts]
  rcases Nat.lt_or_ge j 8 with hlength | hvalue
  · exact readEntry_of_short_length hs (by rw [List.length_take]; omega)
  · obtain ⟨v, rfl⟩ := Nat.exists_eq_add_of_le hvalue
    have hlen := e.len.isLt
    have htake := List.take_length_add_append (l₁ := bin 8 e.len.toNat) (l₂ := bin e.len.toNat e.value.toNat) v
    rw [length_bin] at htake
    rw [htake, ← List.append_assoc]
    exact readEntry_of_short_value hs (by omega) (by rw [List.length_take, length_bin]; omega)

/-! ## TABLE_DESER's loop (R150, R151) -/

/-- Where the loop stands when it has read the entries `es` and comes to the bits `rest`. -/
def DeserLoop.after (es : List CtEntry) (rest : List Bool) : DeserLoop :=
  ⟨rest, (tableBits es).length, es.foldl mapPut [], es.length⟩

/-- The loop over well-formed entries with at most NSYM_MAX distinct symbols. By induction on the entries from their
end, which is the order the loop reads them in. -/
theorem deserLoop_entries {n : Nat} {es : List CtEntry} (hes : ∀ e ∈ es, entryOk e)
    (hn : (es.map (·.sym)).dedup.length ≤ n) (fuel : Nat) (rest : List Bool) :
    deserLoop n (es.length + fuel) (.after [] (tableBits es ++ rest)) = deserLoop n fuel (.after es rest) := by
  induction es using List.reverseRecOn generalizing fuel rest with
  | nil => simp [tableBits]
  | append_singleton es e ih =>
    have hdistinct := length_dedup_snoc (es.map (·.sym)) e.sym
    rw [List.map_append, List.map_singleton] at hn
    obtain ⟨hs, hv⟩ := hes e (by simp)
    have hroom : ¬ (e.sym ∉ es.map (·.sym) ∧ (es.map (·.sym)).dedup.length = n) := by
      rintro ⟨hnew, hfull⟩
      rw [if_neg hnew] at hdistinct
      omega
    have hloop := ih (fun f hf => hes f (List.mem_append_left _ hf)) (by omega) (fuel + 1) (entryBits e ++ rest)
    simp only [DeserLoop.after, deserLoop_entry n fuel e rest _ _ _ hs hv, ctPut_foldl_mapPut, if_neg hroom] at hloop
    simpa [DeserLoop.after, tableBits_snoc, Nat.add_assoc, Nat.add_comm 1] using hloop

/-- Fewer than eight bits end the loop (R151). -/
theorem deserLoop_of_short {l : DeserLoop} (h : l.rest.length < 8) (n fuel : Nat) : deserLoop n fuel l = .ok l := by
  cases fuel with
  | zero => rfl
  | succ fuel => rw [deserLoop, if_pos h]

theorem deserLoop_of_invalid {l : DeserLoop} (h8 : 8 ≤ l.rest.length) (h : readEntry l.rest = .invalid)
    (n fuel : Nat) : deserLoop n (fuel + 1) l = .error (.invalidSymbol, l) := by
  rw [deserLoop, if_neg (by omega), h]

theorem deserLoop_of_truncated {l : DeserLoop} (h8 : 8 ≤ l.rest.length) (h : readEntry l.rest = .truncated)
    (n fuel : Nat) : deserLoop n (fuel + 1) l = .error (.truncatedTable, l) := by
  rw [deserLoop, if_neg (by omega), h]

theorem deserLoop_of_full {l : DeserLoop} (h8 : 8 ≤ l.rest.length) {e : CtEntry} {bits : Nat}
    (h : readEntry l.rest = .entry e bits) {n : Nat} (hput : ctPut n l.new e = none) (fuel : Nat) :
    deserLoop n (fuel + 1) l = .error (.capacity, l) := by
  rw [deserLoop, if_neg (by omega), h]
  simp only [hput]

/-! ## TABLE_DESER over a region that begins with well-formed entries -/

/-- An entry has at least a symbol byte and its length byte (R97). -/
theorem length_le_length_tableBits (es : List CtEntry) : 16 * es.length ≤ (tableBits es).length := by
  induction es with
  | nil => exact Nat.zero_le _
  | cons e es ih =>
    have hsym := utf8Encode_length_pos e.sym
    rw [tableBits_cons, List.length_append, length_entryBits, List.length_cons]
    omega

/-- The source region of TABLE_DESER lies in DMEM and begins with well-formed entries it has room for. -/
structure ReadsEntries (s : State) (es : List CtEntry) (rest : List Bool) : Prop where
  inRange : s.srcInRange = true
  bits : s.srcBits (8 * s.a.srcLen.toNat) = tableBits es ++ rest
  ok : ∀ e ∈ es, entryOk e
  room : (es.map (·.sym)).dedup.length ≤ s.params.nsymMax

theorem ReadsEntries.length_eq {s : State} {es : List CtEntry} {rest : List Bool} (h : ReadsEntries s es rest) :
    8 * s.a.srcLen.toNat = (tableBits es).length + rest.length := by
  rw [← List.length_append, ← h.bits, State.srcBits, Memory.length_bits]

/-- The loop comes to the bits after the entries, with fuel for each of those bits. -/
theorem ReadsEntries.deserLoop_eq {s : State} {es : List CtEntry} {rest : List Bool} (h : ReadsEntries s es rest) :
    ∃ fuel, rest.length ≤ fuel ∧
      deserLoop s.params.nsymMax (8 * s.a.srcLen.toNat) ⟨s.srcBits (8 * s.a.srcLen.toNat), 0, [], 0⟩ =
        deserLoop s.params.nsymMax fuel (.after es rest) := by
  have hlen := h.length_eq
  have hentries := length_le_length_tableBits es
  obtain ⟨fuel, hfuel⟩ := Nat.exists_eq_add_of_le (show es.length ≤ 8 * s.a.srcLen.toNat by omega)
  refine ⟨fuel, by omega, ?_⟩
  rw [h.bits, hfuel]
  exact deserLoop_entries h.ok h.room fuel rest

/-- Fewer than eight bits after the entries: TABLE_DESER completes with the entries' table (R150, R151). -/
theorem ReadsEntries.exec_tableDeser {s : State} {es : List CtEntry} {pad : List Bool} (h : ReadsEntries s es pad)
    (hpad : pad.length < 8) :
    exec .tableDeser s = .next { s with
      ct := es.foldl mapPut [], result0 := BitVec.ofNat 32 (es.foldl mapPut []).length,
      result1 := BitVec.ofNat 32 es.length, result2 := BitVec.ofNat 32 pad.length, busy := false, done := true,
      a := Latched.absent } := by
  obtain ⟨fuel, -, hloop⟩ := h.deserLoop_eq
  rw [deserLoop_of_short (l := .after es pad) hpad] at hloop
  have htrailing : 8 * s.a.srcLen.toNat - (tableBits es).length = pad.length := by rw [h.length_eq]; omega
  simp only [exec, execTableDeser, h.inRange, hloop, DeserLoop.after, htrailing]
  rfl

/-- A loop that fails at the bits after the entries: TABLE_DESER raises its error there. -/
theorem ReadsEntries.stops {s : State} {es : List CtEntry} {rest : List Bool} (h : ReadsEntries s es rest)
    (h8 : 8 ≤ rest.length) {e : ErrCode}
    (hfail : ∀ fuel, deserLoop s.params.nsymMax (fuel + 1) (.after es rest) = .error (e, .after es rest)) :
    deserStops s e es.length (tableBits es).length := by
  obtain ⟨fuel, hfuel, hloop⟩ := h.deserLoop_eq
  obtain ⟨fuel, rfl⟩ := Nat.exists_eq_succ_of_ne_zero (show fuel ≠ 0 by omega)
  rw [hfail] at hloop
  simp only [deserStops, exec, execTableDeser, h.inRange, hloop]
  rfl

theorem ReadsEntries.stops_of_invalid {s : State} {es : List CtEntry} {rest : List Bool} (h : ReadsEntries s es rest)
    (h8 : 8 ≤ rest.length) (hread : readEntry rest = .invalid) :
    deserStops s .invalidSymbol es.length (tableBits es).length :=
  h.stops h8 (deserLoop_of_invalid h8 hread _)

theorem ReadsEntries.stops_of_truncated {s : State} {es : List CtEntry} {rest : List Bool} (h : ReadsEntries s es rest)
    (h8 : 8 ≤ rest.length) (hread : readEntry rest = .truncated) :
    deserStops s .truncatedTable es.length (tableBits es).length :=
  h.stops h8 (deserLoop_of_truncated h8 hread _)

theorem ReadsEntries.stops_of_full {s : State} {es : List CtEntry} {rest : List Bool} (h : ReadsEntries s es rest)
    (h8 : 8 ≤ rest.length) {e : CtEntry} {bits : Nat} (hread : readEntry rest = .entry e bits)
    (hnew : e.sym ∉ es.map (·.sym)) (hfull : (es.map (·.sym)).dedup.length = s.params.nsymMax) :
    deserStops s .capacity es.length (tableBits es).length := by
  have hput : ctPut s.params.nsymMax (es.foldl mapPut []) e = none := by
    rw [ctPut_foldl_mapPut, if_pos ⟨hnew, hfull⟩]
  exact h.stops h8 (deserLoop_of_full (l := .after es rest) h8 hread hput)

/-- Settles O48: the loop reads the entries and stops at the trailing bits. -/
theorem tableDeserReadsEntries : Obligations.TableDeserReadsEntries :=
  fun _ _ _ hr hb hpad hes hn => ReadsEntries.exec_tableDeser ⟨hr, hb, hes, hn⟩ hpad

/-- Settles O49: the region check comes before the loop, which reads the well-formed entries and stops at what follows
them; a case for each way the next entry fails. -/
theorem tableDeserStopsAtBadEntry : Obligations.TableDeserStopsAtBadEntry := by
  intro s
  refine ⟨fun hr => by rw [deserStops, exec, execTableDeser, hr]; rfl, fun es rest hr hb hes hn => ?_⟩
  have h : ReadsEntries s es rest := ⟨hr, hb, hes, hn⟩
  refine ⟨fun lead hlead hbad => ?_, fun lead n hlead hn hshort => ?_, ?_, ?_, ?_, ?_⟩
  · exact h.stops_of_invalid (eight_le_length_of_take hlead) (readEntry_of_bad_lead hlead hbad)
  · exact h.stops_of_truncated (eight_le_length_of_take hlead) (readEntry_of_short_sequence hlead hn hshort)
  · rintro u tail _ rfl rfl hlead hbad
    obtain ⟨lead, htake, -⟩ := exists_lead_of_sequence hlead tail
    exact h.stops_of_invalid (eight_le_length_of_take htake) (readEntry_of_bad_sequence hlead hbad tail)
  · rintro x tail rfl hx hshort
    have hsym := eight_le_length_symbolBits x
    exact h.stops_of_truncated (by rw [List.length_append]; omega) (readEntry_of_short_length hx hshort)
  · rintro x len tail rfl hx hlen hshort
    have hsym := eight_le_length_symbolBits x
    exact h.stops_of_truncated (by rw [List.length_append, List.length_append]; omega)
      (readEntry_of_short_value hx hlen hshort)
  · rintro e tail rfl hs hnew hfull
    have h8 : 8 ≤ (entryBits e ++ tail).length := by rw [List.length_append, length_entryBits]; omega
    obtain ⟨f, bits, hread, hsym⟩ := readEntry_entryBits_sym hs tail
    exact h.stops_of_full h8 hread (hsym ▸ hnew) hfull

/-! ## TABLE_DESER over the bytes TABLE_SER wrote (R155, R156) -/

/-- TABLE_SER's region with its padding: the bits of `n` of its bytes are the first of the table's bits. -/
theorem srcBits_of_tableSer {s t u : State} (hr : s.dstInRange = true)
    (hfit : bytesFor (tableBits s.ct).length ≤ s.a.dstCap.toNat) (h : exec .tableSer s = .next t)
    (hdmem : u.dmem = t.dmem) (haddr : u.a.srcAddr = s.a.dstAddr) {n : Nat}
    (hn : n ≤ bytesFor (tableBits s.ct).length) :
    u.srcBits (8 * n) = (tableBits s.ct ++ List.replicate (padCount (tableBits s.ct).length) false).take (8 * n) := by
  obtain ⟨k, hk⟩ := Nat.exists_eq_add_of_le hn
  obtain ⟨hbits, -⟩ := bits_packerOf_padded s.dmem s.a (bits := tableBits s.ct) rfl
  rw [exec_tableSer_fits hr hfit] at h
  cases h
  rw [hk, Nat.mul_add, Memory.bits_add] at hbits
  rw [← hbits, List.take_left' (Memory.length_bits ..), State.srcBits, hdmem, Latched.src, haddr]
  rfl

/-- TABLE_SER's RESULT0 and RESULT2 for a table that fits (R140, R142). -/
theorem results_of_tableSer {s t : State} (hr : s.dstInRange = true)
    (hfit : bytesFor (tableBits s.ct).length ≤ s.a.dstCap.toNat) (h : exec .tableSer s = .next t) :
    t.result0.toNat = bytesFor (tableBits s.ct).length ∧
    t.result2 = BitVec.ofNat 32 (padCount (tableBits s.ct).length) := by
  rw [exec_tableSer_fits hr hfit] at h
  cases h
  exact ⟨Nat.mod_eq_of_lt (hfit.trans_lt s.a.dstCap.isLt), rfl⟩

/-- A region inside TABLE_SER's lies in DMEM. -/
theorem srcInRange_of_tableSer {s u : State} (hr : s.dstInRange = true) (hparams : u.params = s.params)
    (haddr : u.a.srcAddr = s.a.dstAddr) (hlen : u.a.srcLen.toNat ≤ s.a.dstCap.toNat) : u.srcInRange = true := by
  rw [State.dstInRange_iff] at hr
  rw [State.srcInRange_iff, hparams, haddr]
  omega

/-- Settles O50: the loop reads TABLE_SER's entries, whose symbols are distinct, and stops at its padding. -/
theorem tableRoundTrip : Obligations.TableRoundTrip := by
  intro s t u _ hct hr hfit hser hparams hdmem haddr hsrcLen
  obtain ⟨hdistinct, hok, hroom⟩ := hct
  obtain ⟨hbytes, hpadding⟩ := results_of_tableSer hr hfit hser
  rw [← hsrcLen] at hbytes
  have hbits := srcBits_of_tableSer hr hfit hser hdmem haddr hbytes.le
  rw [List.take_of_length_le (by rw [List.length_append, List.length_replicate, length_add_padCount, hbytes])] at hbits
  have hdedup : (s.ct.map (·.sym)).dedup.length ≤ u.params.nsymMax := by
    rwa [List.Nodup.dedup hdistinct, List.length_map, hparams]
  have hreads : ReadsEntries u s.ct _ :=
    ⟨srcInRange_of_tableSer hr hparams haddr (hbytes.trans_le hfit), hbits, hok, hdedup⟩
  have htable : s.ct.foldl mapPut [] = s.ct := foldl_mapPut_of_nodup (t := []) hdistinct
  rw [hreads.exec_tableDeser (by rw [List.length_replicate]; exact Nat.lt_succ_of_le (padCount_le _)), htable,
    List.length_replicate, hpadding]

/-- Settles O51: the last byte of TABLE_SER's region holds bits of the last entry, whose symbol lies before it, so the
loop reads every other entry and stops at the last. -/
theorem cutTableRegionIsTruncated : Obligations.CutTableRegionIsTruncated := by
  intro s t u _ hct hne hr hfit hser hparams hdmem haddr hsrcLen
  obtain ⟨es, e, hes⟩ := (List.eq_nil_or_concat' _).resolve_left hne
  obtain ⟨hdistinct, hok, hroom⟩ := hct
  obtain ⟨hbytes, -⟩ := results_of_tableSer hr hfit hser
  have hlen : (tableBits s.ct).length = (tableBits es).length + (entryBits e).length := by
    rw [hes, tableBits_snoc, List.length_append]
  have hentry := length_entryBits e
  have hpadded := length_add_padCount (tableBits s.ct).length
  have hpadding := padCount_le (tableBits s.ct).length
  have hcut : u.a.srcLen.toNat + 1 = bytesFor (tableBits s.ct).length := by
    rw [← hbytes, hsrcLen]
    bv_omega
  obtain ⟨k, hk⟩ := Nat.exists_eq_add_of_le (show (tableBits es).length ≤ 8 * u.a.srcLen.toNat by omega)
  have hbits := srcBits_of_tableSer hr hfit hser hdmem haddr (Nat.le_of_succ_le hcut.le)
  rw [hk, hes, tableBits_snoc, List.append_assoc, List.take_length_add_append,
    List.take_append_of_le_length (by omega), ← hk] at hbits
  have hsub : es.Sublist s.ct := hes ▸ List.sublist_append_left es [e]
  have hnodup : (es.map (·.sym)).Nodup := List.Nodup.sublist (hsub.map _) hdistinct
  have hreads : ReadsEntries u es ((entryBits e).take k) :=
    ⟨srcInRange_of_tableSer hr hparams haddr (by omega), hbits, fun f hf => hok f (hsub.subset hf), by
      rw [hnodup.dedup, List.length_map, hparams]
      exact hsub.length_le.trans hroom⟩
  have htruncated : readEntry ((entryBits e).take k) = .truncated :=
    readEntry_cut_entry (hok e (by simp [hes])).1 (by omega) (by omega)
  have hsym := utf8Encode_length_pos e.sym
  have hstops := hreads.stops_of_truncated (by rw [List.length_take]; omega) htruncated
  rwa [hes, List.length_append, List.length_singleton, Nat.add_sub_cancel, List.dropLast_concat]

end Sys2Proof.Machine
end

section
/-! PROOFS. TEXT_ENCODE (45_bitstream_encoder.md R160 to R165): the codes of a whole text and their padding where they
fit, and the error at the first symbol, or the padding, that fails. -/

namespace Sys2Proof.Machine

/-! ## TEXT_ENCODE's loop over a source region that begins with a text (R160) -/

/-- The source region begins with a text that TEXT_ENCODE gets past: the checks pass, the text is valid, CT covers it,
and the whole bytes of its codes fit. -/
structure EncodesText (s : State) (text : List Sym) (rest : List Byte) : Prop where
  checks : s.regionErr = none
  bytes : s.srcBytes = textBytes text ++ rest
  scalars : allScalar text
  covered : covers s.ct text
  fits : (textCode s.ct text).length / 8 ≤ s.a.dstCap.toNat

/-- Where the loop stands after a text: its codes emitted, its bytes and its symbols counted. -/
def EncLoop.after (s : State) (text : List Sym) : EncLoop :=
  ⟨packerOf s.dmem s.a (textCode s.ct text), (textBytes text).length, text.length⟩

theorem EncodesText.length_eq {s : State} {text : List Sym} {rest : List Byte} (h : EncodesText s text rest) :
    s.a.srcLen.toNat = (textBytes text).length + rest.length := by
  rw [← State.length_srcBytes, h.bytes, List.length_append]

/-- A text that is the whole region has SRC_LEN bytes. -/
theorem EncodesText.length_textBytes {s : State} {text : List Sym} (h : EncodesText s text []) :
    (textBytes text).length = s.a.srcLen.toNat :=
  h.length_eq.symm

/-- The loop comes to the bytes after the text with fuel for each of those bytes. -/
theorem EncodesText.exists_encLoop_eq {s : State} {text : List Sym} {rest : List Byte} (h : EncodesText s text rest) :
    ∃ fuel, rest.length ≤ fuel ∧ encLoop s.ct s.a s.a.srcLen.toNat s.srcBytes ⟨Packer.init s.dmem, 0, 0⟩ =
      encLoop s.ct s.a fuel rest (.after s text) := by
  have hlen := h.length_eq
  have htext := textLength_le text
  obtain ⟨fuel, hfuel⟩ := Nat.exists_eq_add_of_le (show text.length ≤ s.a.srcLen.toNat by omega)
  refine ⟨fuel, by omega, ?_⟩
  rw [hfuel, h.bytes, ← packerOf_nil s.dmem s.a, encLoop_text _ _ _ _ _ _ _ _ _ h.scalars h.covered h.fits,
    List.nil_append, Nat.zero_add, Nat.zero_add, EncLoop.after]

/-- At the end of the region the loop ends. -/
theorem EncodesText.encLoop_eq_ok {s : State} {text : List Sym} (h : EncodesText s text []) :
    encLoop s.ct s.a s.a.srcLen.toNat s.srcBytes ⟨Packer.init s.dmem, 0, 0⟩ = .ok (.after s text) := by
  obtain ⟨fuel, -, hloop⟩ := h.exists_encLoop_eq
  rwa [encLoop] at hloop

/-! ## The turn that fails (R160, R162) -/

theorem encLoop_of_invalid {rest : List Byte} (hne : rest ≠ []) (hbad : nextSymbol rest = none) (ct : List CtEntry)
    (a : Latched) (fuel : Nat) (l : EncLoop) : encLoop ct a (fuel + 1) rest l = .error (.invalidSymbol, l) := by
  cases rest with
  | nil => exact absurd rfl hne
  | cons b bs => rw [encLoop, hbad]

theorem encLoop_of_missing {ct : List CtEntry} {x : Sym} (hx : isScalar x.toNat = true)
    (hmissing : x ∉ ct.map (·.sym)) (a : Latched) (fuel : Nat) (tail : List Byte) (l : EncLoop) :
    encLoop ct a (fuel + 1) (utf8Encode x ++ tail) l = .error (.missingSymbol, l) := by
  rw [encLoop_symbol _ _ _ _ _ _ hx, ctLookup_eq_none.2 hmissing]

/-- A code that completes a byte too many leaves a packer stopped within it. -/
theorem encLoop_of_full {s : State} {text : List Sym} {x : Sym} (hx : isScalar x.toNat = true)
    (hheld : x ∈ s.ct.map (·.sym)) (hfit : (textCode s.ct text).length / 8 ≤ s.a.dstCap.toNat)
    (hfull : s.a.dstCap.toNat < (textCode s.ct (text ++ [x])).length / 8) (fuel : Nat) (tail : List Byte) :
    encLoop s.ct s.a (fuel + 1) (utf8Encode x ++ tail) (.after s text) = .error (.capacity, { EncLoop.after s text with
      pk := packerOf s.dmem s.a ((textCode s.ct (text ++ [x])).take (8 * s.a.dstCap.toNat + 7)) }) := by
  obtain ⟨e, he⟩ := Option.ne_none_iff_exists'.1 fun hnone => ctLookup_eq_none.1 hnone hheld
  have hcode : textCode s.ct (text ++ [x]) = textCode s.ct text ++ codeBits e := by
    simp [textCode, he]
  rw [hcode] at hfull ⊢
  simp only [encLoop_symbol _ _ _ _ _ _ hx, he, EncLoop.after, emit_packerOf _ _ _ _ hfit, if_neg (Nat.not_le.2 hfull)]

/-! ## How TEXT_ENCODE ends (R160, R165) -/

/-- A turn that fails at the bytes after the text: TEXT_ENCODE raises its error. -/
theorem EncodesText.exec_of_turn_error {s : State} {text : List Sym} {rest : List Byte} (h : EncodesText s text rest)
    (hne : rest ≠ []) {e : ErrCode} {l : EncLoop}
    (hfail : ∀ fuel, encLoop s.ct s.a (fuel + 1) rest (.after s text) = .error (e, l)) :
    exec .textEncode s = .next (s.encFail e l) := by
  obtain ⟨fuel, hfuel, hloop⟩ := h.exists_encLoop_eq
  have hpos := List.length_pos_of_ne_nil hne
  obtain ⟨fuel, rfl⟩ := Nat.exists_eq_succ_of_ne_zero (show fuel ≠ 0 by omega)
  simp only [exec, execTextEncode, h.checks, hloop, hfail]

/-- Every byte of the codes fits, and the padding's byte too: TEXT_ENCODE completes (R165). -/
theorem EncodesText.exec_fits {s : State} {text : List Sym} (h : EncodesText s text [])
    (hfit : bytesFor (textCode s.ct text).length ≤ s.a.dstCap.toNat) :
    exec .textEncode s = .next { s with
      dmem := (packerOf s.dmem s.a
        (textCode s.ct text ++ List.replicate (padCount (textCode s.ct text).length) false)).mem,
      result0 := BitVec.ofNat 32 (bytesFor (textCode s.ct text).length), result1 := BitVec.ofNat 32 text.length,
      result2 := BitVec.ofNat 32 (padCount (textCode s.ct text).length), result3 := s.a.srcLen }.complete := by
  have hout : ((textCode s.ct text).length + padCount (textCode s.ct text).length) / 8 =
      bytesFor (textCode s.ct text).length := by
    rw [length_add_padCount, Nat.mul_div_cancel_left _ (by decide)]
  have hpos : BitVec.ofNat 32 (textBytes text).length = s.a.srcLen := by
    rw [h.length_textBytes, BitVec.ofNat_toNat, BitVec.setWidth_eq]
  simp only [exec, execTextEncode, h.checks, h.encLoop_eq_ok, EncLoop.after, flush_packerOf s.dmem s.a _ h.fits,
    if_pos hfit, packerOf_out, packerOf_nbits, List.length_append, List.length_replicate, hout, hpos]

/-- The padding completes a byte that does not fit: CAPACITY at the end of the region. -/
theorem EncodesText.exec_of_padding_full {s : State} {text : List Sym} (h : EncodesText s text [])
    (hfull : s.a.dstCap.toNat < bytesFor (textCode s.ct text).length) :
    exec .textEncode s = .next (s.encFail .capacity { EncLoop.after s text with
      pk := packerOf s.dmem s.a ((textCode s.ct text ++
        List.replicate (padCount (textCode s.ct text).length) false).take (8 * s.a.dstCap.toNat + 7)) }) := by
  simp only [exec, execTextEncode, h.checks, h.encLoop_eq_ok, EncLoop.after, flush_packerOf s.dmem s.a _ h.fits,
    if_neg (Nat.not_le.2 hfull)]

/-- TEXT_ENCODE's error state where the symbol that fails emitted nothing: the packer stands at the end of the codes. -/
theorem encodeStops_of_encFail {s : State} {e : ErrCode} {text : List Sym}
    (h : exec .textEncode s = .next (s.encFail e (.after s text))) :
    encodeStops s e ((textCode s.ct text).length / 8) text.length (textBytes text).length (textCode s.ct text) :=
  ⟨_, h, bits_packerOf _ _ _, sameOutside_packerOf _ _ _⟩

/-- TEXT_ENCODE's error state where the packer stopped at capacity, within a sequence that begins with the bits
(R68). -/
theorem encodeStops_of_encFail_full {s : State} {text : List Sym} {seq bits : List Bool}
    (h : exec .textEncode s = .next (s.encFail .capacity { EncLoop.after s text with
      pk := packerOf s.dmem s.a (seq.take (8 * s.a.dstCap.toNat + 7)) }))
    (hlen : 8 * s.a.dstCap.toNat + 7 ≤ seq.length)
    (hseq : seq.take (8 * s.a.dstCap.toNat) = bits.take (8 * s.a.dstCap.toNat)) :
    encodeStops s .capacity s.a.dstCap.toNat text.length (textBytes text).length bits := by
  obtain ⟨hout, hbits, houtside⟩ := packerOf_stopped s.dmem s.a hlen
  refine ⟨_, ?_, hbits.trans hseq, houtside⟩
  rw [h, State.encFail, hout]
  rfl

/-! ## The whole text, and the first failure (R160 to R165) -/

/-- Settles O52: the packer emits the text's codes and their padding, which make whole bytes. -/
theorem textEncodeWritesCodes : Obligations.TextEncodeWritesCodes := by
  intro s text hr hb hs hc hfit
  have hwhole : (textCode s.ct text).length / 8 ≤ s.a.dstCap.toNat := by
    simp only [bytesFor] at hfit
    omega
  have htext : EncodesText s text [] := ⟨hr, by rw [hb, List.append_nil], hs, hc, hwhole⟩
  obtain ⟨hbits, houtside⟩ := bits_packerOf_padded s.dmem s.a (bits := textCode s.ct text) rfl
  exact ⟨_, htext.exec_fits hfit, hbits, houtside⟩

/-- Settles O53: the loop comes to the end of the text, and what follows the text decides the error: no symbol, a symbol
without a code, a code too many, or nothing, where the padding is what does not fit. -/
theorem textEncodeStopsAtFirstError : Obligations.TextEncodeStopsAtFirstError := by
  intro s text rest hr hb hs hc hfit
  have htext : EncodesText s text rest := ⟨hr, hb, hs, hc, hfit⟩
  have hsymbol (x : Sym) (tail : List Byte) : utf8Encode x ++ tail ≠ [] :=
    List.append_ne_nil_of_left_ne_nil (List.ne_nil_of_length_pos (utf8Encode_length_pos x)) tail
  refine ⟨fun hne hbad => ?_, fun x tail hrest hx hmissing => ?_, fun x tail hrest hx hheld hfull => ?_,
    fun hrest hfull => ?_⟩
  · exact encodeStops_of_encFail (htext.exec_of_turn_error hne fun _ => encLoop_of_invalid hne hbad _ _ _ _)
  · subst hrest
    exact encodeStops_of_encFail
      (htext.exec_of_turn_error (hsymbol x tail) fun _ => encLoop_of_missing hx hmissing _ _ _ _)
  · subst hrest
    exact encodeStops_of_encFail_full
      (htext.exec_of_turn_error (hsymbol x tail) fun _ => encLoop_of_full hx hheld hfit hfull _ _) (by omega) rfl
  · subst hrest
    have hpadded := length_add_padCount (textCode s.ct text).length
    have hlen : 8 * s.a.dstCap.toNat < (textCode s.ct text).length := by
      simp only [bytesFor] at hfull
      omega
    rw [← htext.length_textBytes]
    exact encodeStops_of_encFail_full (htext.exec_of_padding_full hfull)
      (by rw [List.length_append, List.length_replicate]; omega) (List.take_append_of_le_length (by omega))

end Sys2Proof.Machine
end

section
/-! PROOFS. TEXT_DECODE (46_bitstream_decoder.md R170 to R175): its checks in their order, the symbols of the codes it
reads, and the bits after them. -/

namespace Sys2Proof.Machine

/-! ## The checks (R170, R171) -/

/-- The two padding counts TEXT_DECODE refuses (R171): above 7, and not 0 with an empty region. -/
abbrev Latched.BadPad (a : Latched) : Prop :=
  7 < a.arg0.toNat ∨ (a.srcLen = 0 ∧ a.arg0 ≠ 0)

/-- No entry of a list without a repeated pair repeats one. -/
theorem repeatsPair_eq_false {ct : List CtEntry} {i j : Nat}
    (h : (ct.take j).Pairwise fun f g => ¬ (f.value = g.value ∧ f.len = g.len)) (hij : i < j) :
    repeatsPair ct i = false := by
  rw [repeatsPair]
  cases hi : ct[i]? with
  | none => rfl
  | some e =>
    have hcut : ct.take (i + 1) = ct.take i ++ [e] := by rw [List.take_add_one, hi, Option.toList_some]
    have hprefix : (ct.take i ++ [e]).Pairwise fun f g => ¬ (f.value = g.value ∧ f.len = g.len) :=
      hcut ▸ h.sublist (List.take_sublist_take_left hij)
    simpa using fun f hf => (List.pairwise_append.1 hprefix).2.2 f hf e (List.mem_singleton_self e)

theorem firstDuplicate_eq_none {ct : List CtEntry} (h : ct.Pairwise fun f g => ¬ (f.value = g.value ∧ f.len = g.len)) :
    firstDuplicate ct = none := by
  refine List.find?_eq_none.2 fun i hi => ?_
  rw [repeatsPair_eq_false (by rwa [List.take_length]) (List.mem_range.1 hi)]
  exact Bool.false_ne_true

/-- The first entry that repeats an earlier pair is the one `firstDuplicate` answers. -/
theorem firstDuplicate_eq_some {ct : List CtEntry} {j : Nat} {e : CtEntry} (hj : ct[j]? = some e)
    (hrepeats : ∃ f ∈ ct.take j, f.value = e.value ∧ f.len = e.len)
    (hfirst : (ct.take j).Pairwise fun f g => ¬ (f.value = g.value ∧ f.len = g.len)) : firstDuplicate ct = some j := by
  have hlt := (List.getElem?_eq_some_iff.1 hj).1
  refine List.find?_range_eq_some.2 ⟨?_, List.mem_range.2 hlt, fun i hi => ?_⟩
  · simpa [repeatsPair, hj] using hrepeats
  · rw [repeatsPair_eq_false hfirst hi, Bool.not_false]

section
variable {s : State} (hregions : s.regionErr = none)
include hregions

theorem State.decodeErr_of_badPad (hpad : s.a.BadPad) : s.decodeErr = some ⟨.badArg, 2⟩ := by
  simp only [State.decodeErr, hregions]
  exact if_pos (by simpa [Latched.BadPad] using hpad)

/-- With the regions and the padding count in order, the checks are those of CT (R170). -/
theorem State.decodeErr_of_goodPad (hpad : ¬ s.a.BadPad) :
    s.decodeErr = if s.ct.isEmpty then some ⟨.emptyAlphabet, 0⟩
      else (firstDuplicate s.ct).map fun j => ⟨.duplicateCode, BitVec.ofNat 32 j⟩ := by
  simp only [State.decodeErr, hregions]
  rw [if_neg (by simpa using hpad)]
  cases firstDuplicate s.ct <;> rfl

end

/-- TEXT_DECODE stops at the check that fails, with only the error recorded. -/
theorem exec_textDecode_of_decodeErr {s : State} {e : Err} (h : s.decodeErr = some e) :
    exec .textDecode s = .next (s.raise e.kind e.info) := by
  rw [exec, execTextDecode, h]

/-- Settles O54: a case for each check, in their order. -/
theorem textDecodeChecksInOrder : Obligations.TextDecodeChecksInOrder := by
  intro s
  refine ⟨fun e hr => ?_, fun hr hpad => ?_, fun hr hpad hempty => ?_, fun j e hr hpad hj hrepeats hfirst => ?_⟩
  · exact exec_textDecode_of_decodeErr (by rw [State.decodeErr, hr])
  · exact exec_textDecode_of_decodeErr (State.decodeErr_of_badPad hr hpad)
  · exact exec_textDecode_of_decodeErr (by rw [State.decodeErr_of_goodPad hr hpad, hempty]; rfl)
  · have hne : ¬ s.ct.isEmpty := by
      rw [List.isEmpty_iff]
      rintro hnil
      simp [hnil] at hj
    exact exec_textDecode_of_decodeErr (e := ⟨.duplicateCode, BitVec.ofNat 32 j⟩) (by
      rw [State.decodeErr_of_goodPad hr hpad, if_neg hne, firstDuplicate_eq_some hj hrepeats hfirst, Option.map_some])

/-- A table that passes the checks repeats no (value, len) pair. -/
theorem distinct_of_decodeErr {s : State} (h : s.decodeErr = none) :
    s.ct.Pairwise fun e f => ¬ (e.value = f.value ∧ e.len = f.len) := by
  refine distinct_of_firstDuplicate ?_
  unfold State.decodeErr at h
  split at h
  · cases h
  split at h
  · cases h
  split at h
  · cases h
  split at h
  · cases h
  · assumption

/-! ## Where the loop stands between two codes (R171) -/

/-- The loop at the start of a run at bit `k`, the symbols `xs` having been written. -/
def DecLoop.after (s : State) (xs : List Sym) (k : Nat) : DecLoop :=
  ⟨0, 0, k, k, (textBytes xs).length, xs.length, Memory.writeAll s.dmem s.a.dst (textBytes xs)⟩

theorem DecLoop.after_nil (s : State) : DecLoop.after s [] 0 = ⟨0, 0, 0, 0, 0, 0, s.dmem⟩ := rfl

theorem textBytes_snoc (xs : List Sym) (x : Sym) : textBytes (xs ++ [x]) = textBytes xs ++ utf8Encode x := by
  simp [textBytes]

/-- A symbol with room is written after those before it, and a new run begins. -/
theorem matchSym_after {s : State} {xs : List Sym} {x : Sym} (hfit : (textBytes (xs ++ [x])).length ≤ s.a.dstCap.toNat)
    (start acc depth k : Nat) :
    matchSym s.a { DecLoop.after s xs start with acc := acc, depth := depth, k := k } x =
      .ok (.after s (xs ++ [x]) k) := by
  rw [textBytes_snoc, List.length_append] at hfit
  have hroom : ¬ s.a.dstCap.toNat < (textBytes xs).length + (utf8Encode x).length := Nat.not_lt.2 hfit
  simp only [matchSym, emitSym, DecLoop.after, hroom, if_false, textBytes_snoc, Memory.writeAll_append,
    List.length_append, List.length_singleton]

/-- A symbol without room ends the loop as it stands. -/
theorem matchSym_of_full {a : Latched} {l : DecLoop} {x : Sym} (hfull : a.dstCap.toNat < l.out + (utf8Encode x).length) :
    matchSym a l x = .error (.capacity, l) := by
  simp only [matchSym, emitSym, if_pos hfull]

/-! ## How TEXT_DECODE ends after its checks (R171) -/

/-- TEXT_DECODE completes with the bytes of `xs` written, `k` bits consumed and `depth` of them left unmatched. -/
def decodeCompletes (s : State) (xs : List Sym) (k depth : Nat) : Prop :=
  ∃ m, exec .textDecode s = .next { s with
      dmem := m, result0 := BitVec.ofNat 32 (textBytes xs).length, result1 := BitVec.ofNat 32 xs.length,
      result2 := BitVec.ofNat 32 k, result3 := BitVec.ofNat 32 depth,
      busy := false, done := true, a := Latched.absent } ∧
    Memory.bytes m s.a.dst (textBytes xs).length = textBytes xs ∧
    sameOutside s.dmem m s.a.dst (textBytes xs).length

/-- TEXT_DECODE raises an error in the run that began at bit `start`, with the bytes of `xs` written and `k` bits
consumed. -/
def decodeStops (s : State) (e : ErrCode) (xs : List Sym) (k start : Nat) : Prop :=
  ∃ m, exec .textDecode s = .next { s with
      dmem := m, result0 := BitVec.ofNat 32 (textBytes xs).length, result1 := BitVec.ofNat 32 xs.length,
      result2 := BitVec.ofNat 32 k, result3 := 0, errcode := e, errInfo := BitVec.ofNat 32 start,
      busy := false, done := true, a := Latched.absent } ∧
    Memory.bytes m s.a.dst (textBytes xs).length = textBytes xs ∧
    sameOutside s.dmem m s.a.dst (textBytes xs).length

section
variable {s : State} {xs : List Sym} {start acc depth k : Nat} (hchecks : s.decodeErr = none)
include hchecks

theorem decodeCompletes_of_loop
    (hloop : decLoop s.ct s.a (s.srcBits s.a.validBits) (.after s [] 0) =
      .ok { DecLoop.after s xs start with acc := acc, depth := depth, k := k }) : decodeCompletes s xs k depth := by
  refine ⟨_, ?_, Memory.bytes_writeAll s.dmem s.a.dst (textBytes xs), sameOutside_writeAll _ _ _⟩
  rw [DecLoop.after_nil] at hloop
  simp only [exec, execTextDecode, hchecks, hloop]
  rfl

theorem decodeStops_of_loop {e : ErrCode}
    (hloop : decLoop s.ct s.a (s.srcBits s.a.validBits) (.after s [] 0) =
      .error (e, { DecLoop.after s xs start with acc := acc, depth := depth, k := k })) :
    decodeStops s e xs k start := by
  refine ⟨_, ?_, Memory.bytes_writeAll s.dmem s.a.dst (textBytes xs), sameOutside_writeAll _ _ _⟩
  rw [DecLoop.after_nil] at hloop
  simp only [exec, execTextDecode, hchecks, hloop]
  rfl

end

@[simp] theorem State.length_srcBits (s : State) (n : Nat) : (s.srcBits n).length = n := Memory.length_bits ..

/-- Every value of a table that meets CT's invariants fits its length (R44). -/
theorem CtOk.value_lt {p : Params} {ct : List CtEntry} (h : CtOk p ct) : ∀ e ∈ ct, e.value.toNat < 2 ^ e.len.toNat := by
  obtain ⟨-, hentry, -⟩ := h
  exact fun e he => (hentry e he).2

/-- The bits around bit `n`. -/
theorem exists_split_at {bits : List Bool} {n : Nat} (h : n < bits.length) :
    ∃ before b after, bits = before ++ b :: after ∧ before.length = n :=
  ⟨bits.take n, bits[n], bits.drop (n + 1), by simp, by rw [List.length_take]; omega⟩

/-! ## The codes of entries, each its own shortest match (R170, R171) -/

/-- The valid bits begin with the codes of entries that TEXT_DECODE gets past: the checks pass, it is not the
single-symbol case, each code is its own shortest match, and the entries' symbols have room. -/
structure DecodesCodes (s : State) (es : List CtEntry) (rest : List Bool) : Prop where
  checks : s.decodeErr = none
  values : ∀ e ∈ s.ct, e.value.toNat < 2 ^ e.len.toNat
  notSole : singleSym s.ct = none
  codes : shortestMatches s.ct es
  bits : s.srcBits s.a.validBits = es.flatMap codeBits ++ rest
  fits : (textBytes (es.map (·.sym))).length ≤ s.a.dstCap.toNat

theorem DecodesCodes.validBits_eq {s : State} {es : List CtEntry} {rest : List Bool} (h : DecodesCodes s es rest) :
    s.a.validBits = (es.flatMap codeBits).length + rest.length := by
  rw [← List.length_append, ← h.bits, State.length_srcBits]

/-- The loop at a code comes to the match of its entry. -/
theorem DecodesCodes.decLoop_codeBits {s : State} {es : List CtEntry} {rest : List Bool} (h : DecodesCodes s es rest)
    {e : CtEntry} (he : shortestMatches s.ct [e]) (xs : List Sym) (start : Nat) :
    decLoop s.ct s.a (codeBits e) (.after s xs start) = matchSym s.a { DecLoop.after s xs start with
      acc := e.value.toNat, depth := e.len.toNat, k := start + e.len.toNat } e.sym :=
  decLoop_code s.a h.notSole (distinct_of_decodeErr h.checks) h.values he _ rfl rfl

/-- The loop comes to the bits after the codes. By induction on the entries from their end, which is the order the loop
writes in. -/
theorem DecodesCodes.decLoop_eq {s : State} {es : List CtEntry} {rest : List Bool} (h : DecodesCodes s es rest) :
    decLoop s.ct s.a (s.srcBits s.a.validBits) (.after s [] 0) =
      decLoop s.ct s.a rest (.after s (es.map (·.sym)) (es.flatMap codeBits).length) := by
  induction es using List.reverseRecOn generalizing rest with
  | nil => rw [h.bits]; rfl
  | append_singleton es e ih =>
    have hlast : shortestMatches s.ct [e] := fun f hf => h.codes f (List.mem_append_right es hf)
    have hbits : (es ++ [e]).flatMap codeBits = es.flatMap codeBits ++ codeBits e := by simp
    have hsyms : (es ++ [e]).map (·.sym) = es.map (·.sym) ++ [e.sym] := by simp
    have hfit := h.fits
    have hmore := textBytes_snoc (es.map (·.sym)) e.sym
    rw [hsyms] at hfit ⊢
    have hbefore : DecodesCodes s es (codeBits e ++ rest) :=
      { h with
        codes := fun f hf => h.codes f (List.mem_append_left [e] hf)
        bits := by rw [h.bits, hbits, List.append_assoc]
        fits := by rw [hmore, List.length_append] at hfit; omega }
    rw [ih hbefore, decLoop_append, hbefore.decLoop_codeBits hlast, matchSym_after hfit, hbits, List.length_append,
      length_codeBits]

/-- The codes are all of the valid bits: their symbols are decoded. -/
theorem DecodesCodes.completes {s : State} {es : List CtEntry} (h : DecodesCodes s es []) :
    decodeCompletes s (es.map (·.sym)) s.a.validBits 0 := by
  have hloop := h.decLoop_eq
  rw [decLoop, show (es.flatMap codeBits).length = s.a.validBits from h.validBits_eq.symm] at hloop
  exact decodeCompletes_of_loop h.checks hloop

/-! ## A text under a table where no code begins another (R171) -/

/-- Where no code begins another, every code of at least one bit is its own shortest match. -/
theorem shortestMatches_of_prefixFree {ct es : List CtEntry} (hfree : PrefixFree ct) (hlen : ∀ e ∈ ct, 1 ≤ e.len.toNat)
    (hes : ∀ e ∈ es, e ∈ ct) : shortestMatches ct es := by
  refine fun e he => ⟨hes e he, hlen e (hes e he), fun f hf _ hshort hprefix => ?_⟩
  obtain ⟨i, hi, rfl⟩ := List.getElem_of_mem (hes e he)
  obtain ⟨j, hj, rfl⟩ := List.getElem_of_mem hf
  have hpairs := List.pairwise_iff_getElem.1 hfree
  rcases Nat.lt_trichotomy i j with hlt | rfl | hgt
  · exact (hpairs i j hi hj hlt).2 hprefix
  · exact Nat.lt_irrefl _ hshort
  · exact (hpairs j i hj hi hgt).1 hprefix

/-- The code bits of a text the table covers are those of entries that hold its symbols. -/
theorem exists_entries_of_covers {ct : List CtEntry} {text : List Sym} (h : covers ct text) :
    ∃ es : List CtEntry, (∀ e ∈ es, e ∈ ct) ∧ es.map (·.sym) = text ∧ textCode ct text = es.flatMap codeBits := by
  induction text with
  | nil => exact ⟨[], by simp, rfl, rfl⟩
  | cons x text ih =>
    obtain ⟨es, hes, hsyms, hbits⟩ := ih fun y hy => h y (List.mem_cons_of_mem x hy)
    obtain ⟨e, he⟩ := Option.ne_none_iff_exists'.1 fun hnone =>
      ctLookup_eq_none.1 hnone (h x List.mem_cons_self)
    obtain ⟨hmem, hsym⟩ := ctLookup_some he
    exact ⟨e :: es, List.forall_mem_cons.2 ⟨hmem, hes⟩, by rw [List.map_cons, hsym, hsyms],
      by rw [textCode_cons, he, hbits, List.flatMap_cons]⟩

/-- Settles O55: where no code begins another, the codes of a text are codes of entries, each its own shortest match, which
the loop decodes one by one. -/
theorem textDecodeInvertsCodes : Obligations.TextDecodeInvertsCodes := by
  refine ⟨fun s text hchecks hct hfree hlen hsole hcovers hbits hfit => ?_,
    fun s es hchecks hct hsole hcodes hbits hfit => ?_⟩
  · obtain ⟨es, hes, rfl, hcode⟩ := exists_entries_of_covers hcovers
    have hdecodes : DecodesCodes s es [] :=
      ⟨hchecks, hct.value_lt, hsole, shortestMatches_of_prefixFree hfree hlen hes,
        by rw [hbits, hcode, List.append_nil], hfit⟩
    exact hdecodes.completes
  · have hdecodes : DecodesCodes s es [] :=
      ⟨hchecks, hct.value_lt, hsole, hcodes, by rw [hbits, List.append_nil], hfit⟩
    have hend := hdecodes.completes
    rwa [decodeCompletes, List.length_map] at hend

/-! ## The single-symbol case (R173) -/

theorem singleSym_of_sole {ct : List CtEntry} {e : CtEntry} (hct : ct = [e]) (hlen : e.len = 1) :
    singleSym ct = some e.sym := by
  rw [hct, singleSym, if_pos hlen]

theorem length_textBytes_replicate (n : Nat) (x : Sym) :
    (textBytes (List.replicate n x)).length = n * (utf8Encode x).length := by
  simp [textBytes]

theorem decTurn_sole {ct : List CtEntry} {x : Sym} (hsole : singleSym ct = some x) (a : Latched) (l : DecLoop) (b : Bool) :
    decTurn ct a l b = matchSym a { l with k := l.k + 1 } x := by
  rw [decTurn, hsole]

/-- In the single-symbol case the loop over bits with room for a symbol each has written so many symbols. -/
theorem decLoop_sole {s : State} {x : Sym} (hsole : singleSym s.ct = some x) (bits : List Bool)
    (hfit : bits.length * (utf8Encode x).length ≤ s.a.dstCap.toNat) :
    decLoop s.ct s.a bits (.after s [] 0) = .ok (.after s (List.replicate bits.length x) bits.length) := by
  induction bits using List.reverseRecOn with
  | nil => rfl
  | append_singleton bits b ih =>
    rw [List.length_append, List.length_singleton] at hfit ⊢
    have hroom : (textBytes (List.replicate bits.length x ++ [x])).length ≤ s.a.dstCap.toNat := by
      rwa [← List.replicate_succ', length_textBytes_replicate]
    have hturn : decTurn s.ct s.a (.after s (List.replicate bits.length x) bits.length) b = .ok _ :=
      (decTurn_sole hsole _ _ _).trans (matchSym_after hroom bits.length 0 0 (bits.length + 1))
    rw [decLoop_append, ih ((Nat.mul_le_mul_right _ (Nat.le_succ _)).trans hfit)]
    simp only [decLoop, hturn, List.replicate_succ']

/-- In the single-symbol case the loop stops at the bit after those that DST_CAP has room for. -/
theorem decLoop_sole_full {s : State} {x : Sym} (hsole : singleSym s.ct = some x) {bits : List Bool} {n : Nat}
    (hn : n < bits.length) (hfit : n * (utf8Encode x).length ≤ s.a.dstCap.toNat)
    (hfull : s.a.dstCap.toNat < n * (utf8Encode x).length + (utf8Encode x).length) :
    decLoop s.ct s.a bits (.after s [] 0) =
      .error (.capacity, { DecLoop.after s (List.replicate n x) n with k := n + 1 }) := by
  obtain ⟨run, b, rest, rfl, rfl⟩ := exists_split_at hn
  have hturn : decTurn s.ct s.a (.after s (List.replicate run.length x) run.length) b = .error _ :=
    (decTurn_sole hsole _ _ _).trans (matchSym_of_full (by rwa [DecLoop.after, length_textBytes_replicate]))
  rw [decLoop_append, decLoop_sole hsole run hfit]
  simp only [decLoop, hturn]
  rfl

/-- Settles O56: a turn writes one symbol, whatever its bit. -/
theorem soleCodeDecodesEveryBit : Obligations.SoleCodeDecodesEveryBit := by
  intro s e hchecks hct hlen hfit
  have hloop := decLoop_sole (singleSym_of_sole hct hlen) (s.srcBits s.a.validBits) (by simpa using hfit)
  rw [State.length_srcBits] at hloop
  have hend := decodeCompletes_of_loop hchecks hloop
  rwa [decodeCompletes, length_textBytes_replicate, List.length_replicate] at hend

/-! ## Bits that complete no code (R174, R175) -/

/-- No code is as long as a run of more than MAXLEN bits. -/
theorem invLookup_of_long {ct : List CtEntry} {bits : List Bool} (h : maxLen ct < bits.length) :
    invLookup ct (bitsNat bits) bits.length = none := by
  refine Option.eq_none_iff_forall_ne_some.2 fun x hx => ?_
  obtain ⟨e, he, -, rfl⟩ := invLookup_some hx
  rw [length_codeBits] at h
  exact h.not_ge (len_le_maxLen he)

/-- The loop at a run of bits that begins with no code and is longer than MAXLEN stops at its bit MAXLEN + 1. -/
theorem decLoop_unrecognized {ct : List CtEntry} (a : Latched) (hsole : singleSym ct = none) {tail : List Bool}
    {l : DecLoop} (hacc : l.acc = 0) (hdepth : l.depth = 0)
    (hno : ∀ e ∈ ct, 1 ≤ e.len.toNat → ¬ codeBits e <+: tail) (hlong : maxLen ct < tail.length) :
    ∃ acc, decLoop ct a tail l = .error (.unrecognizedCode,
      { l with acc := acc, depth := maxLen ct + 1, k := l.k + maxLen ct + 1 }) := by
  obtain ⟨run, b, rest, rfl, hrun⟩ := exists_split_at hlong
  have hlook := invLookup_of_long (ct := ct) (bits := run ++ [b]) (by simp [hrun])
  rw [bitsNat_snoc, List.length_append, List.length_singleton, hrun] at hlook
  refine ⟨2 * bitsNat run + b.toNat, ?_⟩
  rw [decLoop_append, decLoop_unmatched a hsole run [] l hacc hdepth
    (fun e he h1 hprefix => hno e he h1 (hprefix.trans (List.prefix_append run _))) hrun.le]
  simp only [List.nil_append, decLoop, decTurn, hsole, decBit, hrun, hlook, if_pos (Nat.lt_succ_self (maxLen ct))]

/-- Settles O57: after the codes the loop reads the tail as one run, to its end or to the bit that makes it too long. -/
theorem unmatchedRunStopsOrFails : Obligations.UnmatchedRunStopsOrFails := by
  intro s es tail hchecks hct hsole hcodes hbits hno hfit
  have h : DecodesCodes s es tail := ⟨hchecks, hct.value_lt, hsole, hcodes, hbits, hfit⟩
  have hloop := h.decLoop_eq
  refine ⟨fun hshort => ?_, fun hlong => ?_⟩
  · rw [decLoop_unmatched s.a hsole tail [] (.after s _ _) rfl rfl hno hshort] at hloop
    have hend := decodeCompletes_of_loop hchecks hloop
    rwa [decodeCompletes, List.length_map, List.nil_append, DecLoop.after, ← h.validBits_eq] at hend
  · obtain ⟨acc, hrun⟩ := decLoop_unrecognized s.a hsole (l := .after s (es.map (·.sym)) (es.flatMap codeBits).length)
      rfl rfl hno hlong
    rw [hrun] at hloop
    have hend := decodeStops_of_loop hchecks hloop
    rwa [decodeStops, List.length_map] at hend

/-! ## A symbol that does not fit (R171, R173) -/

/-- Settles O58: the match at the end of the code finds no room. In the single-symbol case that is the match of the bit
after those that DST_CAP has room for. -/
theorem textDecodeStopsAtCapacity : Obligations.TextDecodeStopsAtCapacity := by
  refine ⟨fun s es e tail hchecks hct hsole hcodes hbits hfit hfull => ?_, fun s e hchecks hct hlen hfull => ?_⟩
  · have hbefore : shortestMatches s.ct es := fun f hf => hcodes f (List.mem_append_left _ hf)
    have hlast : shortestMatches s.ct [e] := fun f hf => hcodes f (List.mem_append_right es hf)
    have h : DecodesCodes s es (codeBits e ++ tail) :=
      ⟨hchecks, hct.value_lt, hsole, hbefore, by rw [hbits, List.append_assoc], hfit⟩
    have hloop := h.decLoop_eq
    rw [decLoop_append, h.decLoop_codeBits hlast, matchSym_of_full hfull] at hloop
    have hend := decodeStops_of_loop hchecks hloop
    rwa [decodeStops, List.length_map] at hend
  · intro whole
    have hpos := utf8Encode_length_pos e.sym
    have hwhole : whole < (s.srcBits s.a.validBits).length := by
      rw [State.length_srcBits]
      exact (Nat.div_lt_iff_lt_mul hpos).2 hfull
    have hend := decodeStops_of_loop hchecks (decLoop_sole_full (singleSym_of_sole hct hlen) hwhole
      (Nat.div_mul_le_self _ _) (Nat.lt_div_mul_add hpos))
    rwa [decodeStops, length_textBytes_replicate, List.length_replicate] at hend

/-! ## The accumulator's width (R172) -/

/-- The accumulator fits its depth, which is at most `n`. -/
def DecLoop.AccFits (n : Nat) (l : DecLoop) : Prop :=
  l.acc < 2 ^ l.depth ∧ l.depth ≤ n

theorem DecLoop.AccFits.mono {n k : Nat} {l : DecLoop} (h : l.AccFits n) (hnk : n ≤ k) : l.AccFits k :=
  h.imp_right fun hdepth => hdepth.trans hnk

/-- How the accumulator stands after bits were read: within MAXLEN bits, or one more where the loop stopped (R172,
R175). -/
def AccEnds (ct : List CtEntry) : Except (ErrCode × DecLoop) DecLoop → Prop
  | .ok l => l.AccFits (maxLen ct)
  | .error (_, l) => l.AccFits (maxLen ct + 1)

/-- A match empties the accumulator, or leaves it where the symbol does not fit. -/
theorem matchSym_accEnds {ct : List CtEntry} (a : Latched) {l : DecLoop} (h : l.AccFits (maxLen ct + 1)) (x : Sym) :
    AccEnds ct (matchSym a l x) := by
  unfold matchSym
  split
  · exact h
  · exact ⟨Nat.one_pos, Nat.zero_le _⟩

/-- One turn shifts in at most one bit, and goes on only within MAXLEN bits. -/
theorem decTurn_accEnds {ct : List CtEntry} (a : Latched) {l : DecLoop} (h : l.AccFits (maxLen ct)) (b : Bool) :
    AccEnds ct (decTurn ct a l b) := by
  unfold decTurn
  split
  · refine matchSym_accEnds a ?_ _
    exact h.mono (Nat.le_succ _)
  obtain ⟨hacc, hdepth⟩ := h
  have hshift : 2 * l.acc + b.toNat < 2 ^ (l.depth + 1) := by
    have hbit := b.toNat_le
    rw [Nat.pow_succ]
    omega
  have hnext : DecLoop.AccFits (maxLen ct + 1)
      { l with k := l.k + 1, acc := 2 * l.acc + b.toNat, depth := l.depth + 1 } :=
    ⟨hshift, Nat.succ_le_succ hdepth⟩
  unfold decBit
  dsimp only
  split
  · exact matchSym_accEnds a hnext _
  split
  · exact hnext
  · rename_i hshort
    exact ⟨hshift, Nat.not_lt.1 hshort⟩

theorem decLoop_accEnds {ct : List CtEntry} (a : Latched) (bits : List Bool) {l : DecLoop}
    (h : l.AccFits (maxLen ct)) : AccEnds ct (decLoop ct a bits l) := by
  induction bits generalizing l with
  | nil => exact h
  | cons b bits ih =>
    have hturn := decTurn_accEnds a h b
    rw [decLoop]
    split
    · rename_i hb
      rwa [hb] at hturn
    · rename_i hb
      rw [hb] at hturn
      exact ih hturn

/-- Settles O59: either end of the loop is within the bound, by induction on the bits. -/
theorem accumulatorFitsItsWidth : Obligations.AccumulatorFitsItsWidth := by
  intro ct a bits m l hend
  have hends := decLoop_accEnds (ct := ct) a bits (l := ⟨0, 0, 0, 0, 0, 0, m⟩) ⟨Nat.one_pos, Nat.zero_le _⟩
  obtain ⟨hacc, hdepth⟩ : l.AccFits (maxLen ct + 1) := by
    obtain hok | ⟨e, herror⟩ := hend
    · rw [hok] at hends
      exact hends.mono (Nat.le_succ _)
    · rwa [herror] at hends
  exact ⟨hacc, hdepth, Nat.succ_le_succ (maxLen_le ct)⟩

end Sys2Proof.Machine
end

section
/-! PROOFS. The whole codec (46_bitstream_decoder.md R176): what each command of the sequence leaves for the next where it
completes without an error, and the text that TEXT_DECODE restores. -/

namespace Sys2Proof.Machine

/-! ## The source region through the commands that write no DMEM (R92, R95) -/

/-- `t` has the parameters, the source operands and the DMEM of `s`, so that one region is the source of both. -/
structure SameSource (s t : State) : Prop where
  params : t.params = s.params
  srcAddr : t.srcAddr = s.srcAddr
  srcLen : t.srcLen = s.srcLen
  dmem : t.dmem = s.dmem

theorem SameSource.trans {s t u : State} (h : SameSource s t) (h' : SameSource t u) : SameSource s u :=
  ⟨h'.params.trans h.params, h'.srcAddr.trans h.srcAddr, h'.srcLen.trans h.srcLen, h'.dmem.trans h.dmem⟩

/-- Command start writes none of them, and a command without a destination region neither. -/
theorem sameSource_of_exec_start {i : Instr} {s t : State} {w : Word} (hi : i ≠ .softReset) (hdst : usesDst i = false)
    (h : exec i (s.start w) = .next t) : SameSource s t := by
  obtain ⟨u, hu, hend⟩ := exec_cases hi h
  cases hu with
  | dmem hmem => exact absurd hmem (by simp [hdst])
  | _ => cases hend <;> exact ⟨rfl, rfl, rfl, rfl⟩

/-! ## The table that FREQ_COUNT, TREE_BUILD and CODE_GEN make (R111, R124, R135) -/

/-- FT after FREQ_COUNT meets FT's invariants, whatever it held before (R40). -/
theorem ftOk_of_exec_freqCount {s t : State} (h : exec .freqCount s = .next t) : FtOk s.params t.ft := by
  rw [exec, execFreqCount] at h
  split at h
  · cases h; exact ftOk_nil _
  split at h <;> rename_i hloop <;> cases h
  · exact ftOk_nil _
  · have hroom : FtRoom [] s.srcBytes.length := ⟨State.length_srcBytes s ▸ s.a.srcLen.isLt, nofun⟩
    exact freqLoop_keeps (ftOk_nil _) hroom hloop

/-- TREE_BUILD without an error leaves the tree of FT. -/
theorem treeOk_of_exec_treeBuild {s t : State} (hp : s.params.ok = true) (hf : FtOk s.params s.ft)
    (h : exec .treeBuild s = .next t) (herr : t.errcode = .none) :
    t.ft = s.ft ∧ t.treeValid = true ∧ TreeOk t.ft t.nodes t.root := by
  have hne : s.ft ≠ [] := by
    intro hnil
    rw [treeBuildOfNothing s hnil] at h
    cases h
    cases herr
  rw [exec_treeBuild hp hf hne] at h
  cases h
  exact ⟨rfl, rfl, buildTree_treeOk_last hp hf hne⟩

/-- Where no leaf is recorded as too deep, no path to a leaf is (R132). -/
theorem TreeOk.pathsFit_of_firstTooLong {ft : List FtEntry} {nodes : List Node} {root : Nat} (h : TreeOk ft nodes root)
    (hfit : firstTooLong (leafCodes nodes root) ft.length = none) : pathsFit nodes root ft.length := by
  intro bits i hf hi
  rcases Nat.lt_or_ge ft.length 2 with h1 | h2
  · have hle := follow_length h.nodesOk hf
    obtain ⟨-, -, hroot, -⟩ := h
    omega
  · have hdepth := depth_le_of_firstTooLong hfit hi
    rwa [h.codeOf_leafCodes h2 hi hf] at hdepth

/-- CT is a code that TEXT_DECODE inverts: no code begins another, and each has at least one bit. -/
structure DecodableCt (p : Params) (ct : List CtEntry) : Prop where
  ok : CtOk p ct
  prefixFree : PrefixFree ct
  lens : ∀ e ∈ ct, 1 ≤ e.len.toNat

/-- CODE_GEN of FT's tree without an error leaves such a code (R135). -/
theorem decodableCt_of_exec_codeGen {s t : State} (hf : FtOk s.params s.ft) (hv : s.treeValid = true)
    (htree : TreeOk s.ft s.nodes s.root) (h : exec .codeGen s = .next t) (herr : t.errcode = .none) :
    DecodableCt s.params t.ct := by
  have hfit : firstTooLong (leafCodes s.nodes s.root) s.ft.length = none := by
    by_contra hsome
    obtain ⟨i, hlong⟩ := Option.ne_none_iff_exists'.1 hsome
    rw [exec_codeGen_of_tooLong hv htree hlong] at h
    cases h
    cases herr
  obtain ⟨u, hu, hfree, hlens, -⟩ :=
    generatedCodeIsPrefixFreeAndComplete s hv htree (htree.pathsFit_of_firstTooLong hfit)
  obtain rfl : u = t := Host.Outcome.next.inj (hu.symm.trans h)
  obtain ⟨-, -, -, hleaves, -⟩ := id htree
  have hok := codeTable_ctOk hf hleaves (leafCodes_code_lt s.nodes s.root) hfit
  rw [exec_codeGen_of_fit hv htree hfit] at h
  cases h
  exact ⟨hok, hfree, fun e he => (hlens e he).1⟩

/-! ## TEXT_ENCODE without an error (R160, R165) -/

theorem errcode_of_encodeStops {s t : State} {e : ErrCode} {out nsym pos : Nat} {bits : List Bool}
    (h : exec .textEncode s = .next t) (hstops : encodeStops s e out nsym pos bits) : t.errcode = e := by
  obtain ⟨m, hexec, -⟩ := hstops
  rw [hexec] at h
  cases h
  rfl

section
variable {s t : State} {text : List Sym} (h : exec .textEncode s = .next t) (herr : t.errcode = .none)
include h herr

theorem regionErr_of_exec_textEncode : s.regionErr = none := by
  by_contra hsome
  obtain ⟨e, he⟩ := Option.ne_none_iff_exists'.1 hsome
  rw [exec, execTextEncode, he] at h
  cases h
  exact (raised_of_regionErr he).1 herr

variable (hbytes : s.srcBytes = textBytes text) (hscalars : allScalar text)
include hbytes hscalars

/-- Every symbol has a code, and every byte of the codes fits: else a symbol would have stopped the command. By induction
on the part of the text that was encoded, from its end. -/
theorem encodesText_of_prefix {pre rest : List Sym} (htext : text = pre ++ rest) :
    EncodesText s pre (textBytes rest) := by
  have hregions := regionErr_of_exec_textEncode h herr
  induction pre using List.reverseRecOn generalizing rest with
  | nil => exact ⟨hregions, by rw [hbytes, htext, List.nil_append]; rfl, nofun, nofun, by simp [textCode]⟩
  | append_singleton pre x ih =>
    rw [List.append_assoc, List.singleton_append] at htext
    obtain ⟨-, hsource, hs, hcovered, hfits⟩ := ih htext
    have hx : isScalar x.toNat = true := hscalars x (by simp [htext])
    obtain ⟨-, hmissing, hfull, -⟩ :=
      textEncodeStopsAtFirstError s pre (textBytes (x :: rest)) hregions hsource hs hcovered hfits
    have hheld : x ∈ s.ct.map (·.sym) := by
      by_contra hnot
      cases herr.symm.trans (errcode_of_encodeStops h (hmissing x _ (textBytes_cons x rest) hx hnot))
    have hroom : (textCode s.ct (pre ++ [x])).length / 8 ≤ s.a.dstCap.toNat := by
      by_contra hnot
      cases herr.symm.trans
        (errcode_of_encodeStops h (hfull x _ (textBytes_cons x rest) hx hheld (Nat.not_le.1 hnot)))
    refine ⟨hregions, ?_, ?_, ?_, hroom⟩
    · rw [hsource, textBytes_cons, textBytes_snoc, List.append_assoc]
    · exact List.forall_mem_append.2 ⟨hs, by simpa using hx⟩
    · exact List.forall_mem_append.2 ⟨hcovered, by simpa using hheld⟩

/-- The whole text is encoded, and its padding fits too. -/
theorem encodesText_of_exec_textEncode :
    EncodesText s text [] ∧ bytesFor (textCode s.ct text).length ≤ s.a.dstCap.toNat := by
  have hencodes := encodesText_of_prefix h herr hbytes hscalars (List.append_nil text).symm
  refine ⟨hencodes, ?_⟩
  obtain ⟨hregions, hsource, hs, hcovered, hfits⟩ := hencodes
  obtain ⟨-, -, -, hpadding⟩ := textEncodeStopsAtFirstError s text [] hregions hsource hs hcovered hfits
  by_contra hnot
  cases herr.symm.trans (errcode_of_encodeStops h (hpadding rfl (Nat.not_le.1 hnot)))

end

/-- The region TEXT_ENCODE wrote, decoded with its size and its padding count: the valid bits are the text's code, and
the padding count is one that TEXT_DECODE takes (R165, R177). -/
theorem srcBits_of_textEncode {s t d : State} {text : List Sym} (htext : EncodesText s text [])
    (hfit : bytesFor (textCode s.ct text).length ≤ s.a.dstCap.toNat) (h : exec .textEncode s = .next t)
    (hdmem : d.dmem = t.dmem) (haddr : d.a.srcAddr = s.a.dstAddr) (hlen : d.a.srcLen = t.result0)
    (hpad : d.a.arg0 = t.result2) :
    d.srcBits d.a.validBits = textCode s.ct text ∧ ¬ d.a.BadPad := by
  obtain ⟨hbits, -⟩ := bits_packerOf_padded s.dmem s.a (bits := textCode s.ct text) rfl
  rw [htext.exec_fits hfit] at h
  cases h
  have hpadding := padCount_le (textCode s.ct text).length
  have hpadded := length_add_padCount (textCode s.ct text).length
  have hsize : d.a.srcLen.toNat = bytesFor (textCode s.ct text).length := by
    rw [hlen]
    exact Nat.mod_eq_of_lt (hfit.trans_lt s.a.dstCap.isLt)
  have hcount : d.a.arg0.toNat = padCount (textCode s.ct text).length := by
    rw [hpad]
    exact Nat.mod_eq_of_lt (hpadding.trans_lt (by decide))
  have hvalid : d.a.validBits = (textCode s.ct text).length := by
    rw [Latched.validBits, hsize, hcount, ← hpadded, Nat.add_sub_cancel]
  constructor
  · rw [← hpadded, Memory.bits_add] at hbits
    have hcode := (List.append_inj hbits (Memory.length_bits ..)).1
    rw [hvalid, State.srcBits, hdmem, Latched.src, haddr]
    exact hcode
  · rintro (hlarge | ⟨hempty, hne⟩)
    · omega
    · rw [hempty] at hsize
      refine hne (BitVec.eq_of_toNat_eq ?_)
      simp only [BitVec.ofNat_eq_ofNat, BitVec.toNat_ofNat] at hsize ⊢
      omega

/-! ## TEXT_DECODE of a text's code (R171, R173) -/

theorem sole_of_singleSym {ct : List CtEntry} {x : Sym} (h : singleSym ct = some x) : ∃ e, ct = [e] ∧ e.len = 1 := by
  unfold singleSym at h
  split at h
  · split at h
    · exact ⟨_, rfl, ‹_›⟩
    · cases h
  · cases h

/-- A code that TEXT_DECODE inverts passes its check of CT, where it covers a text that is not empty. -/
theorem decodeErr_eq_none {s : State} {text : List Sym} (hregions : s.regionErr = none) (hpad : ¬ s.a.BadPad)
    (hct : DecodableCt s.params s.ct) (hcovers : covers s.ct text) (hne : text ≠ []) : s.decodeErr = none := by
  have hheld : ¬ s.ct.isEmpty := by
    rw [List.isEmpty_iff]
    intro hnil
    obtain ⟨x, hx⟩ := List.exists_mem_of_ne_nil text hne
    simpa [hnil] using hcovers x hx
  rw [State.decodeErr_of_goodPad hregions hpad, if_neg hheld,
    firstDuplicate_eq_none (distinct_of_prefixFree hct.prefixFree), Option.map_none]

/-- In the single-symbol case too, the code of a text decodes to the text: its bits are one for each symbol. -/
theorem decodeCompletes_of_textCode {s : State} {text : List Sym} (hchecks : s.decodeErr = none)
    (hct : DecodableCt s.params s.ct) (hcovers : covers s.ct text) (hbits : s.srcBits s.a.validBits = textCode s.ct text)
    (hfit : (textBytes text).length ≤ s.a.dstCap.toNat) :
    decodeCompletes s text s.a.validBits 0 := by
  cases hsingle : singleSym s.ct with
  | none =>
    exact textDecodeInvertsCodes.1 s text hchecks hct.ok hct.prefixFree hct.lens hsingle hcovers hbits hfit
  | some x =>
    obtain ⟨e, hsole, hlen⟩ := sole_of_singleSym hsingle
    obtain ⟨es, hes, rfl, hcode⟩ := exists_entries_of_covers hcovers
    obtain ⟨n, rfl⟩ : ∃ n, es = List.replicate n e :=
      ⟨_, List.eq_replicate_length.2 fun f hf => List.mem_singleton.1 (hsole ▸ hes f hf)⟩
    have hvalid : s.a.validBits = n := by
      rw [← State.length_srcBits s s.a.validBits, hbits, hcode]
      simp [hlen]
    subst hvalid
    rw [List.map_replicate, length_textBytes_replicate] at hfit
    rw [List.map_replicate, decodeCompletes, length_textBytes_replicate, List.length_replicate]
    exact soleCodeDecodesEveryBit s e hchecks hsole hlen hfit

/-- Settles O60: CODE_GEN leaves a code that TEXT_DECODE inverts, TEXT_ENCODE without an error has written the text's
code and reports its padding, and the valid bits are that code. -/
theorem encodeThenDecodeRestoresText : Obligations.EncodeThenDecodeRestoresText := by
  intro s t1 t2 t3 t4 text e f cap cap' hp hr hne hbytes hscalars h1 he1 h2 he2 h3 he3 h4 he4 d hregions hroom
  have hsource1 := sameSource_of_exec_start (by decide) rfl h1
  have hsource2 := sameSource_of_exec_start (by decide) rfl h2
  have hsource3 := sameSource_of_exec_start (by decide) rfl h3
  have hsource := (hsource1.trans hsource2).trans hsource3
  have hft1 : FtOk t1.params t1.ft :=
    hsource1.params ▸ ftOk_of_exec_freqCount (s := s.start 2) h1
  obtain ⟨hft, hv, htree⟩ := treeOk_of_exec_treeBuild (s := t1.start 4) (hsource1.params ▸ hp) hft1 h2 he2
  have hft2 : FtOk t2.params t2.ft := by rwa [hsource2.params, hft]
  have hct3 : DecodableCt t3.params t3.ct :=
    hsource3.params ▸ decodableCt_of_exec_codeGen (s := t2.start 5) hft2 hv htree h3 he3
  have hbytes4 : ({ t3 with dstAddr := e, dstCap := cap }.start 9).srcBytes = textBytes text := by
    rw [← hbytes]
    simp [State.srcBytes, State.latch, Latched.src, hsource.dmem, hsource.srcAddr, hsource.srcLen]
  obtain ⟨hencodes, hfit⟩ := encodesText_of_exec_textEncode h4 he4 hbytes4 hscalars
  obtain ⟨hbits, hpad⟩ := srcBits_of_textEncode (d := d) hencodes hfit h4 rfl rfl rfl rfl
  obtain ⟨hparams, -, hct, -⟩ := exec_sameTables (by simp) h4
  have hdct : d.ct = t3.ct := hct
  have hdecodable : DecodableCt d.params d.ct := by rwa [hdct, show d.params = t3.params from hparams]
  have hcovers : covers d.ct text := hdct ▸ hencodes.covered
  have hchecks := decodeErr_eq_none hregions hpad hdecodable hcovers hne
  obtain ⟨m, hexec, hwritten, -⟩ :=
    decodeCompletes_of_textCode hchecks hdecodable hcovers (hbits.trans (by rw [hdct]; rfl)) hroom
  exact ⟨_, hexec, rfl, rfl, rfl, rfl, hwritten⟩

end Sys2Proof.Machine
end

section
/-! PROOFS. NOP (R180), the completion of every command (R190, R192, R193, R196), the soft reset (R181, R221) and
power-on reset (R220). -/

namespace Sys2Proof.Machine

/-! ## The completion (R180, R190, R192, R193) -/

/-- Settles O29: NOP is the completion and nothing else, from command start too. -/
theorem nopOnlyCompletes : Obligations.NopOnlyCompletes :=
  ⟨by decide, fun _ => rfl, fun _ => rfl⟩

/-- Settles O20: each completion leaves the block idle with DONE set and nothing latched, and no command writes
IRQ_EN. -/
theorem everyCommandCompletes : Obligations.EveryCommandCompletes := by
  intro i s hi
  obtain ⟨t, ht⟩ := exec_next i s
  obtain ⟨w, hw, hend⟩ := exec_cases hi ht
  obtain ⟨-, hirqEn, -⟩ := hw.sameHostSide
  refine ⟨t, ht, ?_⟩
  cases hend
  all_goals exact ⟨rfl, rfl, hirqEn, hirqEn, rfl⟩

/-! ## The soft reset (R181, R221) -/

/-- Every byte a soft reset leaves unspecified lies in the active destination range (R181). -/
theorem activeDst_of_abandoned {s : State} {addr : Nat} (hlow : s.a.dst ≤ addr)
    (hhigh : addr < s.a.dst + s.abandonedBytes) : s.activeDst addr = true := by
  unfold State.abandonedBytes at hhigh
  split at hhigh
  · rename_i hrun
    simp only [State.activeDst, hrun, Bool.true_and, Bool.and_eq_true, decide_eq_true_eq]
    omega
  · omega

/-- No command runs in an idle block, so none is abandoned. -/
theorem abandonedBytes_of_idle {s : State} (hb : s.busy = false) : s.abandonedBytes = 0 := by
  simp [State.abandonedBytes, State.running, hb]

/-- Settles O9: the soft reset is power-on reset with free values in the abandoned bytes of DMEM, which all lie in the
active destination range. -/
theorem softResetRestoresResetState : Obligations.SoftResetRestoresResetState := by
  intro s
  refine ⟨_, _, rfl, fun addr hout => ?_, fun hb => ?_⟩
  · rw [read_scramble, if_neg]
    rintro ⟨hlow, hhigh⟩
    exact Bool.eq_false_iff.1 hout (activeDst_of_abandoned hlow hhigh)
  · rw [abandonedBytes_of_idle hb, scramble]

/-! ## Power-on reset (R220, R222) -/

/-- ID's fields joined (R21). -/
theorem idWord_eq : idWord = 0x48554601#32 := by decide

theorem ctrlWord_powerOn (p : Params) (m : Memory) : (State.powerOn p m).ctrlWord = 0 := by
  change 0#30 ++ BitVec.ofBool false ++ 0#1 = 0
  decide

theorem statusWord_powerOn (p : Params) (m : Memory) : (State.powerOn p m).statusWord = 0 := by
  change statusOf ErrCode.none.code false false (ErrCode.none.code != 0) false false = 0
  decide

/-- The registers and windows computed from the tables read 0 as those that are fields: the tables are empty. -/
theorem csrValue_powerOn (p : Params) (m : Memory) {c : Csr} (hid : c ≠ .id) (hnsym : c ≠ .capNsym)
    (hmem : c ≠ .capMem) : (State.powerOn p m).csrValue c = 0 := by
  cases c with
  | id => exact absurd rfl hid
  | capNsym => exact absurd rfl hnsym
  | capMem => exact absurd rfl hmem
  | ctrl => exact ctrlWord_powerOn p m
  | status => exact statusWord_powerOn p m
  | nodeFreqHiW => exact BitVec.extractLsb'_zero
  | _ => rfl

/-- Settles O8: the constants and the fields are those power-on reset gives. -/
theorem powerOnResetValues : Obligations.PowerOnResetValues := fun p m =>
  ⟨idWord_eq, rfl, rfl, fun _ => csrValue_powerOn p m, rfl, rfl, rfl, rfl, rfl, rfl⟩

theorem commandRegsOk_powerOn (p : Params) (m : Memory) : CommandRegsOk (State.powerOn p m) :=
  ⟨nofun, fun _ => rfl, fun _ => rfl, nofun, nofun⟩

/-- Settles O28: after power-on reset the tables are empty, there is no tree, and no command runs. -/
theorem powerOnMeetsInvariants : Obligations.PowerOnMeetsInvariants := fun p m hp hm =>
  ⟨hm, .of_noTree hp (ftOk_nil p) (ctOk_nil p) rfl rfl rfl, commandRegsOk_powerOn p m⟩

end Sys2Proof.Machine
end
